-- ==== Sys2Proof/Word.lean ====
section
/-! DEFINITION. The word types of the block: ring bytes (20_memory R52) and the 32-bit words of the
command stream (30_encoding R80). -/

namespace Sys2Proof

/-- One ring cell (20_memory R52). -/
abbrev Byte := BitVec 8

/-- One word of the command stream (30_encoding R80), and one address (00_scope R6: `ADDR_W` = 32). -/
abbrev Word := BitVec 32

end Sys2Proof
end

