-- ==== Sys2Proof/Syntax.lean ====
section
/-! DEFINITION. The commands and events of the block: one constructor of `Instr` for each row of
spec/opcode_table.json (30_encoding R85), with the operands of R83 as typed fields, and the three agents
(00_scope R5). -/

namespace Sys2Proof

/-- A direction of 00_scope R11; the direction bit `D` of 30_encoding R84: 0 is `tx`, 1 is `rx`. -/
inductive Dir where
  | tx
  | rx
  deriving DecidableEq, Repr

/-- The three agents of 00_scope R5. -/
inductive Agent where
  /-- The foreground, which issues commands. -/
  | foreground
  /-- The interrupt handler of 42_completion R173. -/
  | interruptHandler
  /-- The DMA engine, which raises completions and writes received bytes. -/
  | dmaEngine
  deriving DecidableEq, Repr

/-- The class column of 30_encoding R85. -/
inductive CmdClass where
  /-- The surface exposed to application code. -/
  | host
  /-- An operation the source defines but does not expose; issued only in a test. -/
  | internal
  /-- A step of the DMA engine or of the handler, written into a stream to fix a schedule. -/
  | event
  deriving DecidableEq, Repr

/-- The 21 commands and events of 30_encoding R85. -/
inductive Instr where
  /-- `CFG`: mode code `J`, sample rate, bits per sample `B`, clock master `M` (41_lifecycle R142). -/
  | cfg (mode : BitVec 8) (rate : Word) (bits : BitVec 8) (master : Bool)
  /-- `END` (41_lifecycle R144). -/
  | endSession
  /-- `AVR` (43_streaming R191). -/
  | avr
  /-- `AVW` (43_streaming R192). -/
  | avw
  /-- `RDB`: the requested byte count `N` (43_streaming R193). -/
  | rdb (count : BitVec 24)
  /-- `WRB`: the payload; its length is the byte count `N` (43_streaming R194, 30_encoding R88). -/
  | wrb (payload : List Byte)
  /-- `RDS` (43_streaming R195). -/
  | rds
  /-- `PKS` (43_streaming R196). -/
  | pks
  /-- `WRS`: the 32-bit sample `V` (43_streaming R197). -/
  | wrs (sample : Word)
  /-- `FLS` (43_streaming R198). -/
  | fls
  /-- `ONTX`: the token `T` when `P = 1`, none when `P = 0` (43_streaming R199). -/
  | ontx (token : Option (BitVec 16))
  /-- `ONRX`: the token `T` when `P = 1`, none when `P = 0` (43_streaming R200). -/
  | onrx (token : Option (BitVec 16))
  /-- `ENTX` (41_lifecycle R146). -/
  | entx
  /-- `ENRX` (41_lifecycle R147). -/
  | enrx
  /-- `DISTX` (41_lifecycle R148). -/
  | distx
  /-- `DISRX` (41_lifecycle R149). -/
  | disrx
  /-- `ADV`: direction `D`, amount `A` (40_ring R120). -/
  | adv (d : Dir) (amount : BitVec 23)
  /-- `IDX`: an offset `N` (40_ring R119). -/
  | idx (offset : BitVec 24)
  /-- `DONE`: direction `D` (42_completion R171). -/
  | done (d : Dir)
  /-- `IRQ`: direction `D` (42_completion R173). -/
  | irq (d : Dir)
  /-- `RXW`: offset `N`, byte `X` (42_completion R179). -/
  | rxw (offset : BitVec 24) (x : Byte)
  deriving DecidableEq, Repr

end Sys2Proof
end

