-- ==== Sys2Proof/WellFormed.lean ====
section
/-! DEFINITION. When a term of `Instr` is a command the encoding can spell. Every operand but one is
typed by the width of its field (30_encoding R83); the one check left is that the payload length of
`WRB` fits its 24-bit field `N` (R81, R90). -/

namespace Sys2Proof

/-- The payload of `WRB` fits the 24-bit count field `N` (30_encoding R90). -/
def payloadFits (payload : List Byte) : Bool := decide (payload.length < 2 ^ 24)

/-- A term of `Instr` that some words of 30_encoding spell. -/
def Instr.wellFormed : Instr → Bool
  | .cfg _ _ _ _ => true
  | .endSession => true
  | .avr => true
  | .avw => true
  | .rdb _ => true
  | .wrb payload => payloadFits payload
  | .rds => true
  | .pks => true
  | .wrs _ => true
  | .fls => true
  | .ontx _ => true
  | .onrx _ => true
  | .entx => true
  | .enrx => true
  | .distx => true
  | .disrx => true
  | .adv _ _ => true
  | .idx _ => true
  | .done _ => true
  | .irq _ => true
  | .rxw _ _ => true

end Sys2Proof
end

