-- ==== Sys2Proof/Decode.lean ====
section
/-! DEFINITION. The command encoding of spec/30_encoding.md: field extraction (R83), the total decoder
(R82, R86, R87, R88), the encoder of the same tables (R81), command lengths (R89), match and mask (R93),
the byte order of a stream (R80), and the classes and agents of R85. -/

namespace Sys2Proof

/-! ## Fields of a word (R81, R83) -/

/-- `O = w0[7:0]`. -/
def fieldO (w : Word) : BitVec 8 := w.extractLsb' 0 8
/-- `N = w0[31:8]`. -/
def fieldN (w : Word) : BitVec 24 := w.extractLsb' 8 24
/-- `J = w0[15:8]`. -/
def fieldJ (w : Word) : BitVec 8 := w.extractLsb' 8 8
/-- `B = w0[23:16]`. -/
def fieldB (w : Word) : BitVec 8 := w.extractLsb' 16 8
/-- Bit 8 of word 0: the direction bit `D` and the present bit `P`. -/
def fieldBit8 (w : Word) : Bool := w.getLsbD 8
/-- Bit 24 of word 0: the clock-master bit `M`. -/
def fieldM (w : Word) : Bool := w.getLsbD 24
/-- `T = w0[31:16]`. -/
def fieldT (w : Word) : BitVec 16 := w.extractLsb' 16 16
/-- `A = w0[31:9]`, the same bits that format FD requires to be zero. -/
def fieldA (w : Word) : BitVec 23 := w.extractLsb' 9 23
/-- `X = w1[7:0]`. -/
def fieldX (w : Word) : Byte := w.extractLsb' 0 8
/-- The must-be-zero bits `[31:25]` of format FC. -/
def zeroFC (w : Word) : BitVec 7 := w.extractLsb' 25 7
/-- The must-be-zero bits `[15:9]` of format FR. -/
def zeroFR (w : Word) : BitVec 7 := w.extractLsb' 9 7

/-- Direction of a `D` bit (R84). -/
def dirOfBit (b : Bool) : Dir := if b then .rx else .tx

/-- The `D` bit of a direction (R84). -/
def bitOfDir : Dir → Nat
  | .tx => 0
  | .rx => 1

/-! ## Bytes and words (R80, R88) -/

/-- The four bytes of a word, least significant first (R80). -/
def bytesOfWord (w : Word) : List Byte :=
  [w.extractLsb' 0 8, w.extractLsb' 8 8, w.extractLsb' 16 8, w.extractLsb' 24 8]

/-- The word of four bytes, least significant first (R80). -/
def wordOfBytes (a b c d : Byte) : Word :=
  BitVec.ofNat 32 (a.toNat + 2 ^ 8 * b.toNat + 2 ^ 16 * c.toNat + 2 ^ 24 * d.toNat)

/-- A stream of words held as bytes, each word little-endian (R80). -/
def bytesOfWords : List Word → List Byte
  | [] => []
  | w :: ws => bytesOfWord w ++ bytesOfWords ws

/-- A stream held as bytes, read as words (R80); none where it ends inside a word. -/
def wordsOfBytes : List Byte → Option (List Word)
  | [] => some []
  | a :: b :: c :: d :: rest => (wordsOfBytes rest).map (wordOfBytes a b c d :: ·)
  | _ => none

/-- The payload words of `WRB`: four bytes a word, the last word padded with zero bytes (R88). -/
def packPayload : List Byte → List Word
  | [] => []
  | [a] => [wordOfBytes a 0 0 0]
  | [a, b] => [wordOfBytes a b 0 0]
  | [a, b, c] => [wordOfBytes a b c 0]
  | a :: b :: c :: d :: rest => wordOfBytes a b c d :: packPayload rest

/-- `ceil(n / 4)` (R82). -/
def payloadWords (n : Nat) : Nat := (n + 3) / 4

/-- The first `n` words and the rest; none where the list is shorter. -/
def takeWords : Nat → List Word → Option (List Word × List Word)
  | 0, ws => some ([], ws)
  | _ + 1, [] => none
  | n + 1, w :: ws => (takeWords n ws).map fun p => (w :: p.1, p.2)

/-! ## The decoder -/

/-- Why words spell no command. The block refuses each of them with `REF_ENCODING` (60_exceptions R237). -/
inductive DecodeError where
  /-- An opcode outside R85 (R86). -/
  | reservedOpcode
  /-- A must-be-zero bit that is set (R87). -/
  | mustBeZero
  /-- `T` not 0 with `P = 0` in `ONTX` or `ONRX` (R87). -/
  | tokenWithoutPresent
  /-- A padding byte of `WRB` that is not 0 (R87, R88). -/
  | nonzeroPadding
  /-- The stream ends inside a command (R82). -/
  | streamEnds
  deriving DecidableEq, Repr

/-- What the decoder reads from a stream: a command and the words after it, or a rejection by name. -/
inductive Decoded where
  | ok (i : Instr) (rest : List Word)
  | reject (e : DecodeError)
  deriving DecidableEq, Repr

/-- Format F0: bits `[31:8]` are zero. -/
def decodeF0 (i : Instr) (w : Word) (ws : List Word) : Decoded :=
  if fieldN w = 0 then .ok i ws else .reject .mustBeZero

/-- Format FC: bits `[31:25]` are zero, word 1 is the rate. -/
def decodeFC (w : Word) : List Word → Decoded
  | [] => if zeroFC w = 0 then .reject .streamEnds else .reject .mustBeZero
  | rate :: ws =>
    if zeroFC w = 0 then .ok (.cfg (fieldJ w) rate (fieldB w) (fieldM w)) ws
    else .reject .mustBeZero

/-- Format FV: bits `[31:8]` are zero, word 1 is `V`. -/
def decodeFV (w : Word) : List Word → Decoded
  | [] => if fieldN w = 0 then .reject .streamEnds else .reject .mustBeZero
  | v :: ws => if fieldN w = 0 then .ok (.wrs v) ws else .reject .mustBeZero

/-- Format FR: bits `[15:9]` are zero; `T` is zero where `P = 0` (R87). -/
def decodeFR (mk : Option (BitVec 16) → Instr) (w : Word) (ws : List Word) : Decoded :=
  if zeroFR w = 0 then
    if fieldBit8 w then .ok (mk (some (fieldT w))) ws
    else if fieldT w = 0 then .ok (mk none) ws
    else .reject .tokenWithoutPresent
  else .reject .mustBeZero

/-- Format FD: bits `[31:9]` are zero. -/
def decodeFD (mk : Dir → Instr) (w : Word) (ws : List Word) : Decoded :=
  if fieldA w = 0 then .ok (mk (dirOfBit (fieldBit8 w))) ws else .reject .mustBeZero

/-- Format FW: bits `[31:8]` of word 1 are zero. -/
def decodeFW (w : Word) : List Word → Decoded
  | [] => .reject .streamEnds
  | v :: ws => if fieldN v = 0 then .ok (.rxw (fieldN w) (fieldX v)) ws else .reject .mustBeZero

/-- `WRB`: `ceil(N/4)` payload words whose bytes after byte `N-1` are zero (R88). -/
def decodeWrb (w : Word) (ws : List Word) : Decoded :=
  let n := (fieldN w).toNat
  match takeWords (payloadWords n) ws with
  | none => .reject .streamEnds
  | some (payload, rest) =>
    let bytes := bytesOfWords payload
    if (bytes.drop n).all (· == 0) then .ok (.wrb (bytes.take n)) rest
    else .reject .nonzeroPadding

/-- Reads one command from the front of a stream (R82, R85); total, every other stream is rejected by
name. -/
def decode : List Word → Decoded
  | [] => .reject .streamEnds
  | w :: ws =>
    match (fieldO w).toNat with
    | 0x01 => decodeFC w ws
    | 0x02 => decodeF0 .endSession w ws
    | 0x03 => decodeF0 .avr w ws
    | 0x04 => decodeF0 .avw w ws
    | 0x05 => .ok (.rdb (fieldN w)) ws
    | 0x06 => decodeWrb w ws
    | 0x07 => decodeF0 .rds w ws
    | 0x08 => decodeF0 .pks w ws
    | 0x09 => decodeFV w ws
    | 0x0A => decodeF0 .fls w ws
    | 0x0B => decodeFR .ontx w ws
    | 0x0C => decodeFR .onrx w ws
    | 0x10 => decodeF0 .entx w ws
    | 0x11 => decodeF0 .enrx w ws
    | 0x12 => decodeF0 .distx w ws
    | 0x13 => decodeF0 .disrx w ws
    | 0x18 => .ok (.adv (dirOfBit (fieldBit8 w)) (fieldA w)) ws
    | 0x19 => .ok (.idx (fieldN w)) ws
    | 0x20 => decodeFD .done w ws
    | 0x21 => decodeFD .irq w ws
    | 0x22 => decodeFW w ws
    | _ => .reject .reservedOpcode

/-! ## The encoder (R81, R85) -/

/-- A word with opcode `o` and the value `rest` in bits `[31:8]`. -/
def word0 (o rest : Nat) : Word := BitVec.ofNat 32 (o + 2 ^ 8 * rest)

/-- Bits `[31:8]` of format FR: `T[31:16] 0[15:9] P[8]`. -/
def bitsFR : Option (BitVec 16) → Nat
  | none => 0
  | some t => 1 + 2 ^ 8 * t.toNat

/-- The words of a command (R81). -/
def encode : Instr → List Word
  | .cfg mode rate bits master =>
    [word0 0x01 (mode.toNat + 2 ^ 8 * bits.toNat + 2 ^ 16 * master.toNat), rate]
  | .endSession => [word0 0x02 0]
  | .avr => [word0 0x03 0]
  | .avw => [word0 0x04 0]
  | .rdb count => [word0 0x05 count.toNat]
  | .wrb payload => word0 0x06 payload.length :: packPayload payload
  | .rds => [word0 0x07 0]
  | .pks => [word0 0x08 0]
  | .wrs sample => [word0 0x09 0, sample]
  | .fls => [word0 0x0A 0]
  | .ontx token => [word0 0x0B (bitsFR token)]
  | .onrx token => [word0 0x0C (bitsFR token)]
  | .entx => [word0 0x10 0]
  | .enrx => [word0 0x11 0]
  | .distx => [word0 0x12 0]
  | .disrx => [word0 0x13 0]
  | .adv d amount => [word0 0x18 (bitOfDir d + 2 * amount.toNat)]
  | .idx offset => [word0 0x19 offset.toNat]
  | .done d => [word0 0x20 (bitOfDir d)]
  | .irq d => [word0 0x21 (bitOfDir d)]
  | .rxw offset x => [word0 0x22 offset.toNat, BitVec.ofNat 32 x.toNat]

/-! ## Lengths (R82, R89) -/

/-- Length in words of a command (R89). -/
def Instr.words : Instr → Nat
  | .cfg _ _ _ _ => 2
  | .endSession => 1
  | .avr => 1
  | .avw => 1
  | .rdb _ => 1
  | .wrb payload => 1 + payloadWords payload.length
  | .rds => 1
  | .pks => 1
  | .wrs _ => 2
  | .fls => 1
  | .ontx _ => 1
  | .onrx _ => 1
  | .entx => 1
  | .enrx => 1
  | .distx => 1
  | .disrx => 1
  | .adv _ _ => 1
  | .idx _ => 1
  | .done _ => 1
  | .irq _ => 1
  | .rxw _ _ => 2

/-- Length in words of the command that starts with `w`, found from `O`, and from `N` for `WRB` (R82). -/
def lengthFrom (w : Word) : Nat :=
  match (fieldO w).toNat with
  | 0x01 => 2
  | 0x06 => 1 + payloadWords (fieldN w).toNat
  | 0x09 => 2
  | 0x22 => 2
  | _ => 1

/-! ## Match and mask (R93) -/

/-- One row of spec/opcode_table.json. -/
structure OpcodeRow where
  mnemonic : String
  pattern : Word
  mask : Word
  deriving DecidableEq, Repr

/-- The rows of spec/opcode_table.json, word 0 (R93). -/
def opcodeRows : List OpcodeRow :=
  [⟨"CFG", 0x00000001, 0xFE0000FF⟩, ⟨"END", 0x00000002, 0xFFFFFFFF⟩,
   ⟨"AVR", 0x00000003, 0xFFFFFFFF⟩, ⟨"AVW", 0x00000004, 0xFFFFFFFF⟩,
   ⟨"RDB", 0x00000005, 0x000000FF⟩, ⟨"WRB", 0x00000006, 0x000000FF⟩,
   ⟨"RDS", 0x00000007, 0xFFFFFFFF⟩, ⟨"PKS", 0x00000008, 0xFFFFFFFF⟩,
   ⟨"WRS", 0x00000009, 0xFFFFFFFF⟩, ⟨"FLS", 0x0000000A, 0xFFFFFFFF⟩,
   ⟨"ONTX", 0x0000000B, 0x0000FEFF⟩, ⟨"ONRX", 0x0000000C, 0x0000FEFF⟩] ++
  [⟨"ENTX", 0x00000010, 0xFFFFFFFF⟩, ⟨"ENRX", 0x00000011, 0xFFFFFFFF⟩,
   ⟨"DISTX", 0x00000012, 0xFFFFFFFF⟩, ⟨"DISRX", 0x00000013, 0xFFFFFFFF⟩,
   ⟨"ADV", 0x00000018, 0x000000FF⟩, ⟨"IDX", 0x00000019, 0x000000FF⟩,
   ⟨"DONE", 0x00000020, 0xFFFFFEFF⟩, ⟨"IRQ", 0x00000021, 0xFFFFFEFF⟩,
   ⟨"RXW", 0x00000022, 0x000000FF⟩]

/-- A word matches a row (R93). -/
def OpcodeRow.hits (r : OpcodeRow) (w : Word) : Bool := w &&& r.mask == r.pattern

/-- The mnemonic of a command (R85). -/
def Instr.mnemonic : Instr → String
  | .cfg _ _ _ _ => "CFG"
  | .endSession => "END"
  | .avr => "AVR"
  | .avw => "AVW"
  | .rdb _ => "RDB"
  | .wrb _ => "WRB"
  | .rds => "RDS"
  | .pks => "PKS"
  | .wrs _ => "WRS"
  | .fls => "FLS"
  | .ontx _ => "ONTX"
  | .onrx _ => "ONRX"
  | .entx => "ENTX"
  | .enrx => "ENRX"
  | .distx => "DISTX"
  | .disrx => "DISRX"
  | .adv _ _ => "ADV"
  | .idx _ => "IDX"
  | .done _ => "DONE"
  | .irq _ => "IRQ"
  | .rxw _ _ => "RXW"

/-! ## Classes and agents (R85, 00_scope R5) -/

/-- The class column of R85. -/
def Instr.cmdClass : Instr → CmdClass
  | .cfg _ _ _ _ => .host
  | .endSession => .host
  | .avr => .host
  | .avw => .host
  | .rdb _ => .host
  | .wrb _ => .host
  | .rds => .host
  | .pks => .host
  | .wrs _ => .host
  | .fls => .host
  | .ontx _ => .host
  | .onrx _ => .host
  | .entx => .internal
  | .enrx => .internal
  | .distx => .internal
  | .disrx => .internal
  | .adv _ _ => .internal
  | .idx _ => .internal
  | .done _ => .event
  | .irq _ => .event
  | .rxw _ _ => .event

/-- The agent whose step an item of the stream is (00_scope R5, 30_encoding R85). -/
def Instr.agent : Instr → Agent
  | .done _ => .dmaEngine
  | .rxw _ _ => .dmaEngine
  | .irq _ => .interruptHandler
  | .cfg _ _ _ _ => .foreground
  | .endSession => .foreground
  | .avr => .foreground
  | .avw => .foreground
  | .rdb _ => .foreground
  | .wrb _ => .foreground
  | .rds => .foreground
  | .pks => .foreground
  | .wrs _ => .foreground
  | .fls => .foreground
  | .ontx _ => .foreground
  | .onrx _ => .foreground
  | .entx => .foreground
  | .enrx => .foreground
  | .distx => .foreground
  | .disrx => .foreground
  | .adv _ _ => .foreground
  | .idx _ => .foreground

/-! ## An instruction given as one number (spec/opcode_table.json's numbering) -/

/-- `k` words of a number whose bit 0 is the least significant bit of the first word. -/
def numberWords : Nat → Nat → List Word
  | 0, _ => []
  | k + 1, w => BitVec.ofNat 32 w :: numberWords k (w / 2 ^ 32)

/-- The words of an instruction whose `nbits` low bits are `w` and whose later bits are 0, up to its
length (R82). -/
def tableWords (nbits w : Nat) : List Word :=
  match numberWords (max 1 ((nbits + 31) / 32)) w with
  | [] => []
  | w0 :: ws => w0 :: ws ++ List.replicate (lengthFrom w0 - (ws.length + 1)) 0

/-- The command the decoder reads from those words, laid out as bytes and read back (R80). -/
def decodeTableWord (nbits w : Nat) : Option Instr :=
  match (wordsOfBytes (bytesOfWords (tableWords nbits w))).map decode with
  | some (.ok i _) => some i
  | _ => none

end Sys2Proof
end

