-- ==== Sys2Proof/Config.lean ====
section
/-! DEFINITION. What an instance of the block fixes (00_scope R6) and the free values of the spec (its
draws). The parameters the spec leaves OPEN without a default are built in `Config.params` from opaque numbers:
nothing can be proved of them but that they are legal, and every legal value is the value of some choice of the
numbers. `LATE_COMPLETION` has a default in the spec, and `Config.params` leaves it there.
The free values are opaque functions without a body. -/

namespace Sys2Proof

/-- The parameters of 00_scope R6. `SEGMENTS` is 2 and `ADDR_W` is 32, both fixed. -/
structure Params where
  /-- `S`, the segment size in bytes. -/
  segSize : Nat
  /-- `BASE`, the address of byte 0 of the ring. -/
  base : Nat
  /-- `REF_MAX`, the largest value of the reference count. -/
  refMax : Nat
  /-- `LATE_COMPLETION`: a completion pending at a disable may still be handled (42_completion R180); default
  `false` (00_scope R6, 92_eei_decisions D20). -/
  lateCompletion : Bool := false
  /-- `CHANNEL`, the opaque DMA channel token passed to the driver. -/
  channel : Nat
  deriving DecidableEq, Repr

/-- `RING = 2*S` (00_scope R6). -/
def Params.ringSize (p : Params) : Nat := 2 * p.segSize

/-- The constraints of 00_scope R6. -/
abbrev Params.Legal (p : Params) : Prop :=
  p.segSize % 4 = 0 ∧ 4 ≤ p.segSize ∧ p.segSize ≤ 2 ^ 21 ∧
    p.base % 4 = 0 ∧ p.base + 2 * p.segSize ≤ 2 ^ 32 ∧ 1 ≤ p.refMax

/-- Fixes `S` (log 1). -/
opaque Config.segmentNumber : Nat
/-- Fixes `BASE` (log 1). -/
opaque Config.baseNumber : Nat
/-- Fixes `REF_MAX` (log 1). -/
opaque Config.refMaxNumber : Nat
/-- `CHANNEL` (log 1). -/
opaque Config.channel : Nat

/-- `S`: a multiple of 4 from 4 to 2^21 (00_scope R6); each such number is reached. -/
def Config.segSize : Nat := 4 * (Config.segmentNumber % 2 ^ 19 + 1)

/-- `BASE`: a multiple of 4 with `BASE + 2*S <= 2^32` (00_scope R6); each such number is reached. -/
def Config.base : Nat := 4 * (Config.baseNumber % (2 ^ 30 - Config.segSize / 2 + 1))

/-- The parameters of the instance, some legal ones, with `LATE_COMPLETION` at its default (00_scope R6; log
1). -/
def Config.params : Params where
  segSize := Config.segSize
  base := Config.base
  refMax := Config.refMaxNumber + 1
  channel := Config.channel

/-- The free values of the position queries: the answer to the `n`-th query the environment has listed no
answer for; any 32-bit address, under no law (42_completion R170; log 2). -/
opaque Config.hwPosDraw : Nat → BitVec 32

/-- The free values of the driver's success answers, likewise (60_exceptions R255; log 3). -/
opaque Config.drvOkDraw : Nat → Bool

/-- The free values of the ring at construction: the byte at each offset (70_reset R270; log 4). -/
opaque Config.ringDraw : Nat → BitVec 8

end Sys2Proof
end

