-- ==== Sys2Proof/Machine/State.lean ====
section
/-! DEFINITION. The state of the block (10_state R20), with the inputs and observations of a step beside it,
the reasons a step can stop, and the state at construction (10_state R40). -/

namespace Sys2Proof.Machine

/-- A value for each direction (`cur[d]`, `armed[d]`, `pend[d]`, `cb[d]` of 10_state R20). -/
structure Per (α : Type) where
  tx : α
  rx : α
  deriving DecidableEq, Repr

/-- The configuration record of 10_state R24. -/
structure SessionCfg where
  /-- Justification mode: 0 Philips, 1 RightJustified, 2 LeftJustified (41_lifecycle R140). -/
  mode : BitVec 8
  /-- Sample rate; stored and passed to the driver only. -/
  rate : Word
  /-- Bits per sample: 8, 16 or 32 (41_lifecycle R141). -/
  bps : BitVec 8
  /-- `isClockMaster`. -/
  master : Bool
  deriving DecidableEq, Repr

/-- The fatal reasons of 60_exceptions R234. -/
inductive FatalReason where
  | startTx
  | startRx
  | stopTx
  | stopRx
  | bringUp
  | release
  | hwPos
  deriving DecidableEq, Repr

/-- The refusal reasons of 60_exceptions R237 (the values of the field `refused`; a step that is refused for
one of them is a next state with the mark set, R236, log 5). -/
inductive RefReason where
  | encoding
  | afterFatal
  | notConfigured
  | refOverflow
  | unbalancedEnd
  | range
  | notArmed
  | event
  | callbackCommand
  deriving DecidableEq, Repr

/-- The driver calls of 60_exceptions R250 that are logged (10_state R33). The start calls carry
`(buffer, totalLen, wordLen, segmentCount)`. -/
inductive DrvCall where
  | initPinMux
  | init
  | configure (channel : Nat) (cfg : SessionCfg)
  | deconfigure (channel : Nat)
  | startStreaming (buffer totalLen wordLen segmentCount : Nat)
  | stopStreaming
  | startListening (buffer totalLen wordLen segmentCount : Nat)
  | stopListening
  deriving DecidableEq, Repr

/-- What a command hands to the host (60_exceptions R235). -/
inductive Result where
  /-- `OK`. -/
  | success
  /-- `CFG_FAIL`. -/
  | cfgFail
  /-- A byte count: `AVR`, `AVW`, `WRB`, `WRS`. -/
  | count (n : Nat)
  /-- `RDB`: the byte count and the bytes. -/
  | block (n : Nat) (bytes : List Byte)
  /-- `RDS`, `PKS`: an `s32` sample, in two's complement. -/
  | sample (v : BitVec 32)
  /-- `ADV`: an offset. -/
  | offset (o : Nat)
  /-- `IDX`: a segment index. -/
  | segment (k : Nat)
  /-- `FATAL` with a reason. -/
  | fatal (r : FatalReason)
  deriving DecidableEq, Repr

/-- The two execution contexts of 60_exceptions R247. -/
inductive Context where
  | foreground
  | interrupt
  deriving DecidableEq, Repr

/-- Ring memory: the bytes written since construction, by offset, offsets strictly rising. A byte at an
offset that is not listed still holds its construction draw (10_state R31, 70_reset R270; log 4). -/
abbrev Memory := List Host.Cell

/-- The state. The first thirteen fields are the record of 10_state R20 (each with the id of that rule's
table); then the host's side of the interface; then the model's own fields that carry the draws. -/
structure State where
  /-- `cur[TX]` (id 0x00), `cur[RX]` (id 0x01): the two cursors, offsets into the ring (R21, R22). -/
  cur : Per Nat
  /-- `armed` (id 0x02): bit 0 is TX, bit 1 is RX (R23). -/
  armed : Per Bool
  /-- `cfg` (id 0x03): the configuration of the current sessions (R24). -/
  cfg : Option SessionCfg
  /-- `ref` (id 0x04): the Begin Reference Count (R25). -/
  ref : Nat
  /-- `cb[TX]` (id 0x05), `cb[RX]` (id 0x06): the notification sinks (R27). -/
  cb : Per (Option (BitVec 16))
  /-- `pend[TX]` (id 0x07), `pend[RX]` (id 0x08): the pending completions (R28). -/
  pend : Per Bool
  /-- `fatal` (id 0x09): the sticky fatal reason (R29). -/
  fatal : Option FatalReason
  /-- `refused` (id 0x0A): the first refusal (R30). -/
  refused : Option RefReason
  /-- `ring` (id 0x0B): the Audio Ring Buffer memory (R31). -/
  ring : Memory
  /-- `notifyLog` (id 0x0C): the notifications delivered, in order (R32). -/
  notifyLog : List (Dir × BitVec 16)
  /-- `drvLog` (id 0x0D): the driver calls made, in order (R33). -/
  drvLog : List DrvCall
  /-- The host command index, in words (R35). -/
  pc : Nat
  /-- Input: the command stream (R35, 30_encoding R80). -/
  stream : List Word
  /-- Input: the context that issues the next item of the stream (60_exceptions R247; log 10). -/
  ctx : Context
  /-- Input: the parameters of 00_scope R6, which no step changes (log 1). -/
  params : Params
  /-- Observation: the results handed to the host, in order (60_exceptions R235, 70_reset R282; log 9). -/
  results : List Result
  /-- Model's own: the addresses the environment answers to the coming position queries (log 2). -/
  posAnswers : List (BitVec 32)
  /-- Model's own: the answers the driver gives to the coming calls (log 3). -/
  okAnswers : List Bool
  /-- Model's own: how many position queries had no listed answer (log 2). -/
  posDraws : Nat
  /-- Model's own: how many driver calls had no listed answer (log 3). -/
  okDraws : Nat
  deriving DecidableEq, Repr

/-- Why the machine stops with a fault. Both are stops of the model in states that no run reaches
(`State.Inv` of Sys2Proof/Safety.lean rules them out); both are safe: nothing is claimed of a next state. -/
inductive Fault where
  /-- Raised by `memRead` and `memWrite` (20_memory R53) on bytes outside the ring. Safe. -/
  | ringBounds
  /-- Raised by `arm` and `sampleWidth` where the sample width is needed and no configuration is present;
  after the prelude of 43_streaming R190 `cfg` is present. Safe. -/
  | cfgAbsent
  deriving DecidableEq, Repr

/-- Why a step has no meaning at all. The spec's own refusals (60_exceptions R236, R237) are not here: they
set the field `refused` of a next state. -/
inductive Refusal where
  /-- Raised by an arm of `exec` whose instruction has no meaning yet; no arm does so now. Safe. -/
  | notModelled (mnemonic : String)
  /-- Raised by `step` when the stream has no further word: the run has ended (70_reset R282), or no command
  has been issued yet (R271). Safe: nothing is claimed of a next state. -/
  | endOfStream
  deriving DecidableEq, Repr

/-- The state at construction (10_state R40, 70_reset R270): the ring lists nothing, so each byte is its
construction draw. Nothing has been issued, so the stream is empty (log 8). -/
def State.reset : State where
  cur := ⟨0, 0⟩
  armed := ⟨false, false⟩
  cfg := none
  ref := 0
  cb := ⟨none, none⟩
  pend := ⟨false, false⟩
  fatal := none
  refused := none
  ring := []
  notifyLog := []
  drvLog := []
  pc := 0
  stream := []
  ctx := .foreground
  params := Config.params
  results := []
  posAnswers := []
  okAnswers := []
  posDraws := 0
  okDraws := 0

end Sys2Proof.Machine
end

