-- ==== Sys2Proof/Machine/Operands.lean ====
section
/-! DEFINITION. The ring arithmetic of spec/40_ring.md on offsets (00_scope R8), the operand checks of
41_lifecycle R140 and R141, and samples as bytes and as values (20_memory R54, 43_streaming R202, R203). -/

namespace Sys2Proof.Machine

/-! ## Ring arithmetic (40_ring R110 to R118) -/

/-- `segStart(k)` (R110). -/
def segStart (p : Params) (k : Nat) : Nat := k * p.segSize

/-- `indexOf(o)`, the source's formula on an offset (R111). -/
def indexOf (p : Params) (o : Nat) : Nat := (o + p.segSize) / p.segSize - 1

/-- `dist(h, c)`: the bytes from cursor `c` forward to position `h` (R113). -/
def ringDist (p : Params) (h c : Nat) : Nat := if h < c then (h + p.ringSize) - c else h - c

/-- `advance(o, a)` (R115). -/
def advance (p : Params) (o a : Nat) : Nat :=
  if o + a ≥ p.ringSize then o + a - p.ringSize else o + a

/-- `l1` of the split copy of `n` bytes from `o`: the bytes before the ring end (R117). -/
def splitFirst (p : Params) (o n : Nat) : Nat := min n (p.ringSize - o)

/-- `alignDown(o, wb)` (R118). -/
def alignDown (o wb : Nat) : Nat := o - o % wb

/-- The segment after segment `k` (42_completion R174). -/
def nextSegment (k : Nat) : Nat := (k + 1) % 2

/-- The address at an offset (00_scope R8). -/
def addressOf (p : Params) (o : Nat) : Nat := p.base + o

/-- The offset of an address in the ring, none outside it (42_completion R170). -/
def offsetOf (p : Params) (a : BitVec 32) : Option Nat :=
  if p.base ≤ a.toNat ∧ a.toNat < p.base + p.ringSize then some (a.toNat - p.base) else none

/-! ## Operand checks (41_lifecycle R140, R141) -/

/-- `validMode(J)`: 0 Philips, 1 RightJustified, 2 LeftJustified (R140). -/
def validMode (j : BitVec 8) : Bool := j == 0 || j == 1 || j == 2

/-- `validBits(B)`: 8, 16 or 32 (R141). -/
def validBits (b : BitVec 8) : Bool := b == 8 || b == 16 || b == 32

/-- `wb = bps / 8`, the sample width in bytes (10_state R24). -/
def SessionCfg.wb (c : SessionCfg) : Nat := c.bps.toNat / 8

/-- The capacity of one segment in samples, `C = S / wb` (00_scope R6). -/
def segmentCapacity (p : Params) (wb : Nat) : Nat := p.segSize / wb

/-! ## Samples (20_memory R54, 43_streaming R202, R203) -/

/-- `sampleBytes(V, wb)`: the `wb` low bytes of `V`, least significant first (R203). -/
def sampleBytes (v : BitVec 32) : Nat → List Byte
  | 0 => []
  | wb + 1 => v.extractLsb' 0 8 :: sampleBytes (v >>> 8) wb

/-- `bs[0] + 256*bs[1] + ...` (R54, R202). -/
def assemble : List Byte → Nat
  | [] => 0
  | b :: bs => b.toNat + 256 * assemble bs

/-- `sext_{8*wb}` of the assembled bytes, as a 32-bit value in two's complement (R202). -/
def sampleValue (wb : Nat) (bs : List Byte) : BitVec 32 :=
  (BitVec.ofNat (8 * wb) (assemble bs)).signExtend 32

/-- The `n <= wb` bytes read, with the missing high bytes 0 (43_streaming R195). -/
def zeroFill (wb n : Nat) (bs : List Byte) : List Byte := bs ++ List.replicate (wb - n) 0

end Sys2Proof.Machine
end

