-- ==== Sys2Proof/Machine/Flags.lean ====
section
/-! DEFINITION. The block has no arithmetic flags (10_state R36); its status bits are the Stream State, the
pending completions and the presence bits. Here: access by direction, the names and bits of the Stream State
(10_state R23), when an event is enabled (42_completion R171, R172, R179), and the numeric codes of results,
fatal reasons and refusals (60_exceptions R234, R235, R237). -/

namespace Sys2Proof.Machine

/-! ## Per-direction access -/

/-- `x[d]`. -/
def Per.get {α : Type} (x : Per α) : Dir → α
  | .tx => x.tx
  | .rx => x.rx

/-- `x[d] <- v`. -/
def Per.set {α : Type} (x : Per α) (d : Dir) (v : α) : Per α :=
  match d with
  | .tx => { x with tx := v }
  | .rx => { x with rx := v }

/-! ## Stream State (10_state R23) -/

/-- The four Stream States. -/
inductive StreamState where
  | idle
  | transmitting
  | receiving
  | transceiving
  deriving DecidableEq, Repr

/-- The Stream State the two bits stand for (R23). -/
def streamState (armed : Per Bool) : StreamState :=
  match armed.rx, armed.tx with
  | false, false => .idle
  | false, true => .transmitting
  | true, false => .receiving
  | true, true => .transceiving

/-- `armed[1:0]`: bit 0 is TX, bit 1 is RX (R23). -/
def armedBits (armed : Per Bool) : BitVec 2 :=
  BitVec.ofNat 2 (armed.tx.toNat + 2 * armed.rx.toNat)

/-- `armed != 00`. -/
def anyArmed (armed : Per Bool) : Bool := armed.tx || armed.rx

/-! ## Presence and bring-up (10_state R26, R36) -/

/-- The presence bits of `cfg`, `fatal`, `refused`, `cb[TX]`, `cb[RX]` (R36). -/
def presenceBits (s : State) : List Bool :=
  [s.cfg.isSome, s.fatal.isSome, s.refused.isSome, s.cb.tx.isSome, s.cb.rx.isSome]

/-- The peripheral is brought up exactly when `ref > 0` (R26). -/
def broughtUp (s : State) : Bool := decide (0 < s.ref)

/-! ## Event enable conditions -/

/-- `DONE` for `d` is enabled: no fatal fault, and `d` armed (42_completion R171). -/
def doneEnabled (d : Dir) (s : State) : Bool := s.fatal.isNone && s.armed.get d

/-- The handler for `d` is enabled (42_completion R172): no fatal fault, a pending completion, and `d` armed
or late completions admitted. It never runs inside a handler (R176, 60_exceptions R245; log 10). -/
def irqEnabled (d : Dir) (s : State) : Bool :=
  s.fatal.isNone && s.pend.get d && (s.armed.get d || s.params.lateCompletion)
    && decide (s.ctx = .foreground)

/-- `RXW` at offset `n` is enabled: no fatal fault, RX armed, `n` in the ring (42_completion R179). -/
def rxwEnabled (n : Nat) (s : State) : Bool :=
  s.fatal.isNone && s.armed.rx && decide (n < s.params.ringSize)

/-! ## Interrupt status (60_exceptions R239) -/

/-- The completion source for `d` is enabled: its direction is armed. -/
def sourceEnabled (d : Dir) (s : State) : Bool := s.armed.get d

/-- The completion source for `d` is pending. -/
def sourcePending (d : Dir) (s : State) : Bool := s.pend.get d

/-! ## Codes -/

/-- The code column of 60_exceptions R234. -/
def FatalReason.code : FatalReason → Nat
  | .startTx => 0x10
  | .startRx => 0x11
  | .stopTx => 0x12
  | .stopRx => 0x13
  | .bringUp => 0x14
  | .release => 0x15
  | .hwPos => 0x16

/-- The code column of 60_exceptions R237. -/
def RefReason.code : RefReason → Nat
  | .encoding => 0x20
  | .afterFatal => 0x21
  | .notConfigured => 0x22
  | .refOverflow => 0x23
  | .unbalancedEnd => 0x24
  | .range => 0x25
  | .notArmed => 0x26
  | .event => 0x27
  | .callbackCommand => 0x28

/-- The number of a result (60_exceptions R235); a sample is signed. -/
def Result.code : Result → Int
  | .success => 0x00
  | .cfgFail => 0x01
  | .count n => n
  | .block n _ => n
  | .sample v => v.toInt
  | .offset o => o
  | .segment k => k
  | .fatal r => r.code

/-- The fatal reason of a failed start of `d` (60_exceptions R234). -/
def startReason : Dir → FatalReason
  | .tx => .startTx
  | .rx => .startRx

/-- The fatal reason of a failed stop of `d` (60_exceptions R234). -/
def stopReason : Dir → FatalReason
  | .tx => .stopTx
  | .rx => .stopRx

/-- The start call of `d` with the arguments of 60_exceptions R250: `(BASE, RING, wb, 2)`. -/
def startCall (p : Params) (wb : Nat) : Dir → DrvCall
  | .tx => .startStreaming p.base p.ringSize wb 2
  | .rx => .startListening p.base p.ringSize wb 2

/-- The stop call of `d` (60_exceptions R250). -/
def stopCall : Dir → DrvCall
  | .tx => .stopStreaming
  | .rx => .stopListening

end Sys2Proof.Machine
end

