-- ==== Sys2Proof/Machine/Ops.lean ====
section
/-! DEFINITION. The operations every meaning is written over: single writes of the state, ring memory
(20_memory R53), the environment's draws (00_scope R9), a sequence of operations that can end the step
(`Ret`), raising a fatal fault and refusing (60_exceptions R233, R236), the position query (42_completion
R170), arming and disarming a direction, bring-up and release (41_lifecycle), the prelude of a data command
(43_streaming R190), and the frame of a command and of an event. -/

namespace Sys2Proof.Machine

/-! ## Single writes -/

/-- `cur[d] <- v`. -/
def setCur (d : Dir) (v : Nat) (s : State) : State := { s with cur := s.cur.set d v }

/-- `armed[d] <- v`. -/
def setArmed (d : Dir) (v : Bool) (s : State) : State := { s with armed := s.armed.set d v }

/-- `pend[d] <- v`. -/
def setPend (d : Dir) (v : Bool) (s : State) : State := { s with pend := s.pend.set d v }

/-- `cb[d] <- v`. -/
def setCb (d : Dir) (v : Option (BitVec 16)) (s : State) : State := { s with cb := s.cb.set d v }

/-- `cfg <- v`. -/
def setCfg (v : Option SessionCfg) (s : State) : State := { s with cfg := v }

/-- `ref <- v`. -/
def setRef (v : Nat) (s : State) : State := { s with ref := v }

/-- `DrvCall(c)`: appends to the driver log (10_state R33). -/
def logCall (c : DrvCall) (s : State) : State := { s with drvLog := s.drvLog ++ [c] }

/-- One notification `(d, token)` (10_state R32). -/
def logNotify (d : Dir) (t : BitVec 16) (s : State) : State :=
  { s with notifyLog := s.notifyLog ++ [(d, t)] }

/-- Hands a result to the host (60_exceptions R235). -/
def giveResult (r : Result) (s : State) : State := { s with results := s.results ++ [r] }

/-- The field write of `raise Fatal(reason)` (60_exceptions R233). -/
def raiseFatal (r : FatalReason) (s : State) : State := { s with fatal := some r }

/-- The field write of `refuse Reason`: the mark is set if it is none, and never cleared (60_exceptions R236). -/
def markRefused (r : RefReason) (s : State) : State := { s with refused := s.refused.or (some r) }

/-- Moves the host command index past a command of `n` words (30_encoding R89). -/
def advancePc (n : Nat) (s : State) : State := { s with pc := s.pc + n }

/-! ## Ring memory (20_memory R52, R53) -/

/-- What the list holds for an offset: the byte last written there, none where nothing was written since
construction. -/
def Memory.lookup : Memory → Nat → Option Byte
  | [], _ => none
  | (k, b) :: m, a => if a = k then some b else Memory.lookup m a

/-- Writes one byte, keeping the offsets strictly rising. -/
def Memory.write : Memory → Nat → Byte → Memory
  | [], a, v => [(a, v)]
  | (k, b) :: m, a, v =>
    if a < k then (a, v) :: (k, b) :: m
    else if a = k then (a, v) :: m
    else (k, b) :: Memory.write m a v

/-- Every offset of the list is at least `lo`, and they rise strictly. -/
def Memory.risesFrom : Nat → Memory → Bool
  | _, [] => true
  | lo, (k, _) :: m => decide (lo ≤ k) && Memory.risesFrom (k + 1) m

/-- The canonical form: offsets strictly rising. An unlisted offset holds no written byte at all, so no entry
equals what an unlisted offset holds (log 4). -/
def Memory.wf (m : Memory) : Bool := Memory.risesFrom 0 m

/-- The byte of the ring at an offset: the one last written there, else its construction draw (70_reset R270). -/
def ringByte (s : State) (a : Nat) : Byte := (s.ring.lookup a).getD (Config.ringDraw a)

/-- The `n` bytes from offset `o`. -/
def readBytes (s : State) : Nat → Nat → List Byte
  | _, 0 => []
  | o, n + 1 => ringByte s o :: readBytes s (o + 1) n

/-- Writes the bytes from offset `o` on. -/
def writeBytes : Memory → Nat → List Byte → Memory
  | m, _, [] => m
  | m, o, b :: bs => writeBytes (m.write o b) (o + 1) bs

/-! ## Draws (00_scope R9) -/

/-- The environment's answer to the next position query: the next one listed, else a free value
(42_completion R170; log 2). -/
def nextPos (s : State) : BitVec 32 := s.posAnswers.head?.getD (Config.hwPosDraw s.posDraws)

/-- The state after a position query: its answer is used up. -/
def takePos (s : State) : State :=
  { s with
    posAnswers := s.posAnswers.tail
    posDraws := if s.posAnswers.isEmpty then s.posDraws + 1 else s.posDraws }

/-- The driver's answer to the next call: the next one listed, else a free value (60_exceptions R255; log 3). -/
def nextOk (s : State) : Bool := s.okAnswers.head?.getD (Config.drvOkDraw s.okDraws)

/-- The state after a driver call's answer is used up. -/
def takeOk (s : State) : State :=
  { s with
    okAnswers := s.okAnswers.tail
    okDraws := if s.okAnswers.isEmpty then s.okDraws + 1 else s.okDraws }

/-! ## Sequences of operations -/

/-- How a part of a command ends: it goes on with a value and a state, it raises a fatal fault in a state
that keeps what was written (60_exceptions R233), it refuses (R236), or the model stops by name. -/
inductive Ret (α : Type) where
  | ok (a : α) (s : State)
  | fatal (r : FatalReason) (s : State)
  | refuse (r : RefReason)
  | fault (f : Fault)
  deriving Repr

/-- Nothing after a raise or a refusal runs (60_exceptions R233, R236). -/
def Ret.bind {α β : Type} (x : Ret α) (f : α → State → Ret β) : Ret β :=
  match x with
  | .ok a s => f a s
  | .fatal r s => .fatal r s
  | .refuse r => .refuse r
  | .fault e => .fault e

/-- `MemRead(o, n)` (20_memory R53). -/
def memRead (o n : Nat) (s : State) : Ret (List Byte) :=
  if o + n ≤ s.params.ringSize then .ok (readBytes s o n) s else .fault .ringBounds

/-- `MemWrite(o, n, bs)` with `n` the length of `bs` (20_memory R53). -/
def memWrite (o : Nat) (bs : List Byte) (s : State) : Ret Unit :=
  if o + bs.length ≤ s.params.ringSize then .ok () { s with ring := writeBytes s.ring o bs }
  else .fault .ringBounds

/-- `ringRead(o, n)`: split at the ring end (40_ring R117). -/
def ringRead (o n : Nat) (s : State) : Ret (List Byte) :=
  let l1 := splitFirst s.params o n
  (memRead o l1 s).bind fun first s =>
    (memRead 0 (n - l1) s).bind fun second s => .ok (first ++ second) s

/-- `ringWrite(o, n, bs)` with `n` the length of `bs`: split at the ring end (40_ring R117). -/
def ringWrite (o : Nat) (bs : List Byte) (s : State) : Ret Unit :=
  let l1 := splitFirst s.params o bs.length
  (memWrite o (bs.take l1) s).bind fun _ s => memWrite 0 (bs.drop l1) s

/-- `HwPos(d)`: one query, converted to an offset; an answer outside the ring raises `FATAL_HWPOS`
(42_completion R170). -/
def queryPos (s : State) : Ret Nat :=
  match offsetOf s.params (nextPos s) with
  | some h => .ok h (takePos s)
  | none => .fatal .hwPos (takePos s)

/-- Logs a driver call, draws its success and raises the reason where it failed (60_exceptions R250, R255). -/
def callDriver (c : DrvCall) (onFailure : FatalReason) (s : State) : Ret Unit :=
  if nextOk s then .ok () (takeOk (logCall c s)) else .fatal onFailure (takeOk (logCall c s))

/-- The sample width `wb` of the present configuration (10_state R24). -/
def sampleWidth (s : State) : Ret Nat :=
  match s.cfg with
  | some c => .ok c.wb s
  | none => .fault .cfgAbsent

/-! ## Lifecycle parts (41_lifecycle) -/

/-- The body of `ENTX` (R146) or `ENRX` (R147) after their two checks, which is `lazyArm(d)` (R150). -/
def arm (d : Dir) (s : State) : Ret Unit :=
  if s.armed.get d then .ok () s
  else
    (sampleWidth s).bind fun wb s =>
      (callDriver (startCall s.params wb d) (startReason d) s).bind fun _ s =>
        .ok () (setCur d (segStart s.params 1) (setArmed d true s))

/-- The body of `DISTX` (R148) or `DISRX` (R149) after its first check. -/
def disarm (d : Dir) (s : State) : Ret Unit :=
  if s.armed.get d then
    (callDriver (stopCall d) (stopReason d) s).bind fun _ s =>
      let s := setCur d 0 (setArmed d false s)
      .ok () (if s.params.lateCompletion then s else setPend d false s)
  else .ok () s

/-- `bringUp` (R143). -/
def bringUp (c : SessionCfg) (s : State) : Ret Unit :=
  callDriver (.configure s.params.channel c) .bringUp (logCall .init (logCall .initPinMux s))

/-- `release()`: transmitter, then receiver, then the driver (R145). -/
def releaseAll (s : State) : Ret Unit :=
  (disarm .tx s).bind fun _ s =>
    (disarm .rx s).bind fun _ s =>
      (callDriver (.deconfigure s.params.channel) .release s).bind fun _ s => .ok () (setCfg none s)

/-- The prelude of a data command for `d` after the check of `fatal` (43_streaming R190). -/
def prelude (d : Dir) (s : State) : Ret Unit :=
  if s.ref = 0 then .refuse .notConfigured else arm d s

/-! ## The handler's entry and end (60_exceptions R243, R245) -/

/-- Entry to the handler for `d`: it clears the pending bit and saves no state of the block (R243). -/
def enterHandler (d : Dir) (s : State) : State := setPend d false s

/-- Reconciliation (42_completion R173, R174): a cursor in the segment of the position `h` snaps to the start
of the other segment. -/
def reconcile (d : Dir) (h : Nat) (s : State) : State :=
  let k := indexOf s.params h
  if indexOf s.params (s.cur.get d) = k then setCur d (segStart s.params (nextSegment k)) s else s

/-- Notification after reconciliation, if a sink is registered (42_completion R175). -/
def notify (d : Dir) (s : State) : State :=
  match s.cb.get d with
  | some t => logNotify d t s
  | none => s

/-! ## The frame of a command and of an event -/

/-- A refused step: the mark is set, every other field is as before the step (60_exceptions R236; log 5). -/
def refuseStep (r : RefReason) (s : State) : Host.Outcome State Fault Refusal :=
  .next (markRefused r s)

/-- Ends a command that began in `s₀`: its result or its fatal fault goes to the host (60_exceptions R233,
R235; log 7), a refusal leaves `s₀` but for the mark (R236). -/
def endCommand (s₀ : State) : Ret Result → Host.Outcome State Fault Refusal
  | .ok r s => .next (giveResult r s)
  | .fatal r s => .next (giveResult (.fatal r) (raiseFatal r s))
  | .refuse r => refuseStep r s₀
  | .fault f => .fault f

/-- A foreground command, one atomic step (70_reset R273), with the checks every command makes first, in the
order of 60_exceptions R238: issued from interrupt context, then after a fatal fault. -/
def command (body : State → Ret Result) (s : State) : Host.Outcome State Fault Refusal :=
  if s.ctx = .interrupt then refuseStep .callbackCommand s
  else if s.fatal.isSome then refuseStep .afterFatal s
  else endCommand s (body s)

/-- Ends an event that began in `s₀`: nothing is handed to the host (60_exceptions R235, R244; log 15). -/
def endEvent (s₀ : State) : Ret Unit → Host.Outcome State Fault Refusal
  | .ok _ s => .next s
  | .fatal r s => .next (raiseFatal r s)
  | .refuse r => refuseStep r s₀
  | .fault f => .fault f

/-- An event of a stream: refused with `REF_EVENT` where it is not enabled (60_exceptions R237). -/
def event (enabled : Bool) (body : State → Ret Unit) (s : State) : Host.Outcome State Fault Refusal :=
  if enabled then endEvent s (body s) else refuseStep .event s

/-! ## Fetching from the stream (10_state R35) -/

/-- The words of the stream from the host command index on. -/
def upcoming (s : State) : List Word := s.stream.drop s.pc

/-- The stream with `ws` standing at index `pc`: the words before and after stay. -/
def placeWords (ws : List Word) (pc : Nat) (stream : List Word) : List Word :=
  (stream ++ List.replicate (pc - stream.length) 0).take pc ++ ws ++ stream.drop (pc + ws.length)

end Sys2Proof.Machine
end

