-- ==== Sys2Proof/Machine/Completion.lean ====
section
/-! DEFINITION. The events of spec/42_completion.md: `DONE` (R171), the completion handler `IRQ` (R173) and
`RXW` (R179). -/

namespace Sys2Proof.Machine

/-- `DONE`: the DMA engine raises a completion; completions coalesce (R171, 10_state R28). -/
def execDone (d : Dir) (s : State) : Host.Outcome State Fault Refusal :=
  event (doneEnabled d s) (fun s => .ok () (setPend d true s)) s

/-- `IRQ`: the completion handler for `d`, one atomic step (R173, R176). -/
def execIrq (d : Dir) (s : State) : Host.Outcome State Fault Refusal :=
  event (irqEnabled d s)
    (fun s => (queryPos (enterHandler d s)).bind fun h s => .ok () (notify d (reconcile d h s))) s

/-- `RXW`: the DMA engine writes one received byte (R179). -/
def execRxw (offset : BitVec 24) (x : Byte) (s : State) : Host.Outcome State Fault Refusal :=
  event (rxwEnabled offset.toNat s) (memWrite offset.toNat [x]) s

end Sys2Proof.Machine
end

