-- ==== Sys2Proof/Machine/Lifecycle.lean ====
section
/-! DEFINITION. The lifecycle commands of spec/41_lifecycle.md: `CFG` (R142), `END` (R144), `ENTX` (R146),
`ENRX` (R147), `DISTX` (R148), `DISRX` (R149). -/

namespace Sys2Proof.Machine

/-- The body of `CFG` (R142): configuration errors, then the count, then bring-up on the 0 to 1 step. -/
def configure (c : SessionCfg) (s : State) : Ret Result :=
  if anyArmed s.armed || !validMode c.mode || !validBits c.bps then .ok .cfgFail s
  else if s.ref = s.params.refMax then .refuse .refOverflow
  else
    (if s.ref = 0 then bringUp c s else .ok () s).bind fun _ s =>
      .ok .success (setCfg (some c) (setRef (s.ref + 1) s))

/-- `CFG` (R142). -/
def execCfg (mode : BitVec 8) (rate : Word) (bits : BitVec 8) (master : Bool) (s : State) :
    Host.Outcome State Fault Refusal :=
  command (configure ⟨mode, rate, bits, master⟩) s

/-- `END` (R144). -/
def execEndSession (s : State) : Host.Outcome State Fault Refusal :=
  command (fun s =>
    if s.ref = 0 then .refuse .unbalancedEnd
    else
      let s := setRef (s.ref - 1) s
      (if s.ref = 0 then releaseAll s else .ok () s).bind fun _ s => .ok .success s) s

/-- The body of `ENTX` and `ENRX` (R146, R147). -/
def enable (d : Dir) (s : State) : Ret Result :=
  if s.ref = 0 then .refuse .notConfigured
  else (arm d s).bind fun _ s => .ok .success s

/-- `ENTX` (R146). -/
def execEntx (s : State) : Host.Outcome State Fault Refusal := command (enable .tx) s

/-- `ENRX` (R147). -/
def execEnrx (s : State) : Host.Outcome State Fault Refusal := command (enable .rx) s

/-- The body of `DISTX` and `DISRX` (R148, R149). -/
def disable (d : Dir) (s : State) : Ret Result := (disarm d s).bind fun _ s => .ok .success s

/-- `DISTX` (R148). -/
def execDistx (s : State) : Host.Outcome State Fault Refusal := command (disable .tx) s

/-- `DISRX` (R149). -/
def execDisrx (s : State) : Host.Outcome State Fault Refusal := command (disable .rx) s

end Sys2Proof.Machine
end

