-- ==== Sys2Proof/Machine/Ring.lean ====
section
/-! DEFINITION. The internal commands of spec/40_ring.md: `IDX` (R119) and `ADV` (R120). -/

namespace Sys2Proof.Machine

/-- `IDX`: the segment index of an offset (R119, R112). -/
def execIdx (offset : BitVec 24) (s : State) : Host.Outcome State Fault Refusal :=
  command (fun s =>
    if offset.toNat ≥ s.params.ringSize then .refuse .range
    else .ok (.segment (indexOf s.params offset.toNat)) s) s

/-- `ADV`: advances a cursor of an armed direction (R120). -/
def execAdv (d : Dir) (amount : BitVec 23) (s : State) : Host.Outcome State Fault Refusal :=
  command (fun s =>
    if s.armed.get d then
      if amount.toNat > s.params.ringSize then .refuse .range
      else
        let o := advance s.params (s.cur.get d) amount.toNat
        .ok (.offset o) (setCur d o s)
    else .refuse .notArmed) s

end Sys2Proof.Machine
end

