-- ==== Sys2Proof/Machine/Streaming.lean ====
section
/-! DEFINITION. The public streaming commands of spec/43_streaming.md: `AVR` (R191), `AVW` (R192), `RDB`
(R193), `WRB` (R194), `RDS` (R195), `PKS` (R196), `WRS` (R197), `FLS` (R198), `ONTX` (R199), `ONRX` (R200). -/

namespace Sys2Proof.Machine

/-- The body of `AVR` and `AVW`: the distance from the cursor to the position (R191, R192). -/
def available (d : Dir) (s : State) : Ret Result :=
  (prelude d s).bind fun _ s =>
    (queryPos s).bind fun h s => .ok (.count (ringDist s.params h (s.cur.get d))) s

/-- `AVR` (R191). -/
def execAvr (s : State) : Host.Outcome State Fault Refusal := command (available .rx) s

/-- `AVW` (R192). -/
def execAvw (s : State) : Host.Outcome State Fault Refusal := command (available .tx) s

/-- The truncated count of a request (R201). -/
def truncated (d : Dir) (request h : Nat) (s : State) : Nat :=
  min request (ringDist s.params h (s.cur.get d))

/-- `cur[d] <- advance(cur[d], n)` (40_ring R115). -/
def moveCur (d : Dir) (n : Nat) (s : State) : State :=
  setCur d (advance s.params (s.cur.get d) n) s

/-- `RDB` (R193). -/
def execRdb (count : BitVec 24) (s : State) : Host.Outcome State Fault Refusal :=
  command (fun s =>
    (prelude .rx s).bind fun _ s =>
      (queryPos s).bind fun h s =>
        let n := truncated .rx count.toNat h s
        (ringRead s.cur.rx n s).bind fun bs s => .ok (.block n bs) (moveCur .rx n s)) s

/-- The copy into the ring shared by `WRB` and `WRS`: query, truncate, write, advance (R194, R197). -/
def writeOut (bs : List Byte) (s : State) : Ret Result :=
  (queryPos s).bind fun h s =>
    let n := truncated .tx bs.length h s
    (ringWrite s.cur.tx (bs.take n) s).bind fun _ s => .ok (.count n) (moveCur .tx n s)

/-- `WRB` (R194). -/
def execWrb (payload : List Byte) (s : State) : Host.Outcome State Fault Refusal :=
  command (fun s => (prelude .tx s).bind fun _ s => writeOut payload s) s

/-- The sample at the receive cursor, shared by `RDS` and `PKS`: the count of bytes read and the value
(R195, R196, R202). -/
def sampleAtCur (s : State) : Ret (Nat × BitVec 32) :=
  (prelude .rx s).bind fun _ s =>
    (sampleWidth s).bind fun wb s =>
      (queryPos s).bind fun h s =>
        let n := truncated .rx wb h s
        (ringRead s.cur.rx n s).bind fun bs s => .ok (n, sampleValue wb (zeroFill wb n bs)) s

/-- `RDS` (R195). -/
def execRds (s : State) : Host.Outcome State Fault Refusal :=
  command (fun s => (sampleAtCur s).bind fun r s => .ok (.sample r.2) (moveCur .rx r.1 s)) s

/-- `PKS` (R196). -/
def execPks (s : State) : Host.Outcome State Fault Refusal :=
  command (fun s => (sampleAtCur s).bind fun r s => .ok (.sample r.2) s) s

/-- `WRS`: the cursor is aligned before the query, then the sample's bytes are written (R197, R203). -/
def execWrs (sample : Word) (s : State) : Host.Outcome State Fault Refusal :=
  command (fun s =>
    (prelude .tx s).bind fun _ s =>
      (sampleWidth s).bind fun wb s =>
        writeOut (sampleBytes sample wb) (setCur .tx (alignDown s.cur.tx wb) s)) s

/-- `FLS` (R198). -/
def execFls (s : State) : Host.Outcome State Fault Refusal := command (fun s => .ok .success s) s

/-- `ONTX` (R199). -/
def execOntx (token : Option (BitVec 16)) (s : State) : Host.Outcome State Fault Refusal :=
  command (fun s => .ok .success (setCb .tx token s)) s

/-- `ONRX` (R200). -/
def execOnrx (token : Option (BitVec 16)) (s : State) : Host.Outcome State Fault Refusal :=
  command (fun s => .ok .success (setCb .rx token s)) s

end Sys2Proof.Machine
end

