-- ==== Sys2Proof/Machine/Dispatch.lean ====
section
/-! DEFINITION. One arm per command and event of 30_encoding R85. -/

namespace Sys2Proof.Machine

def exec (i : Instr) (s : State) : Host.Outcome State Fault Refusal :=
  match i with
  | .cfg mode rate bits master => Sys2Proof.Machine.execCfg mode rate bits master s
  | .endSession => Sys2Proof.Machine.execEndSession s
  | .avr => Sys2Proof.Machine.execAvr s
  | .avw => Sys2Proof.Machine.execAvw s
  | .rdb count => Sys2Proof.Machine.execRdb count s
  | .wrb payload => Sys2Proof.Machine.execWrb payload s
  | .rds => Sys2Proof.Machine.execRds s
  | .pks => Sys2Proof.Machine.execPks s
  | .wrs sample => Sys2Proof.Machine.execWrs sample s
  | .fls => Sys2Proof.Machine.execFls s
  | .ontx token => Sys2Proof.Machine.execOntx token s
  | .onrx token => Sys2Proof.Machine.execOnrx token s
  | .entx => Sys2Proof.Machine.execEntx s
  | .enrx => Sys2Proof.Machine.execEnrx s
  | .distx => Sys2Proof.Machine.execDistx s
  | .disrx => Sys2Proof.Machine.execDisrx s
  | .adv d amount => Sys2Proof.Machine.execAdv d amount s
  | .idx offset => Sys2Proof.Machine.execIdx offset s
  | .done d => Sys2Proof.Machine.execDone d s
  | .irq d => Sys2Proof.Machine.execIrq d s
  | .rxw offset x => Sys2Proof.Machine.execRxw offset x s

end Sys2Proof.Machine
end

