-- ==== Sys2Proof/Machine/Step.lean ====
section
/-! DEFINITION. One step: the next item of the command stream is decoded and run, and the host command index
moves past it (10_state R35, 30_encoding R89). The stream names commands and events, so every interleaving of
the three agents is the run of some stream (20_memory R61, 60_exceptions R242; log 12). -/

namespace Sys2Proof.Machine

/-- One step of the machine. Words that spell no command are refused with `REF_ENCODING` and leave `pc`
(30_encoding R86, R87; log 6); at the end of the stream there is no step (70_reset R282; log 8). -/
def step (s : State) : Host.Outcome State Fault Refusal :=
  match upcoming s with
  | [] => .refused .endOfStream
  | w :: ws =>
    match decode (w :: ws) with
    | .reject _ => refuseStep .encoding s
    | .ok i _ =>
      match exec i s with
      | .next t => .next (advancePc i.words t)
      | .fault f => .fault f
      | .refused r => .refused r

/-- `s` with the words of one instruction, whose `nbits` low bits are `w`, standing where `step` fetches. -/
def State.withFetchWord (s : State) (nbits w : Nat) : State :=
  { s with stream := placeWords (tableWords nbits w) s.pc s.stream }

end Sys2Proof.Machine
end

