-- ==== Sys2Proof/Machine/Asm.lean ====
section
/-! DEFINITION. The assembler syntax and the pseudo-instructions of 30_encoding R91 and R92: one constructor
of `AsmLine` for each row of their tables, the command each line stands for, its text, the draws written after
a command, and the reading of a line and of a program from their characters. -/

namespace Sys2Proof.Machine

/-- A mode operand of R91. -/
inductive ModeOperand where
  | philips
  | right
  | left
  | number (n : Nat)
  deriving DecidableEq, Repr

/-- A clock operand of R91. -/
inductive ClockOperand where
  | master
  | slave
  deriving DecidableEq, Repr

/-- A line of R91 or a pseudo-instruction of R92. -/
inductive AsmLine where
  | cfg (mode : ModeOperand) (rate bits : Nat) (clock : ClockOperand)
  | endSession
  | avr
  | avw
  | rds
  | pks
  | fls
  | entx
  | enrx
  | distx
  | disrx
  | rdb (n : Nat)
  | wrb (n : Nat) (bytes : List Nat)
  | wrs (v : Int)
  | ontx (token : Option Nat)
  | onrx (token : Option Nat)
  | adv (d : Dir) (a : Nat)
  | idx (o : Nat)
  | done (d : Dir)
  | irq (d : Dir)
  | rxw (o x : Nat)
  /-- `BEGIN <mode>, <rate>, <bits>`: clock master (R92). -/
  | beginMaster (mode : ModeOperand) (rate bits : Nat)
  /-- `BEGIN <mode>, <bits>`: clock slave, rate 0 (R92). -/
  | beginSlave (mode : ModeOperand) (bits : Nat)
  /-- `UNTX` (R92). -/
  | untx
  /-- `UNRX` (R92). -/
  | unrx
  deriving DecidableEq, Repr

/-- An operand as a field of `w` bits; none where it does not fit. -/
def fit (w n : Nat) : Option (BitVec w) := if n < 2 ^ w then some (BitVec.ofNat w n) else none

/-- The number of a mode operand (R91). -/
def ModeOperand.value : ModeOperand → Nat
  | .philips => 0
  | .right => 1
  | .left => 2
  | .number n => n

/-- `M` of a clock operand (R91). -/
def ClockOperand.isMaster : ClockOperand → Bool
  | .master => true
  | .slave => false

/-- The `CFG` a line spells (R91, R92). -/
def asmCfg (mode : ModeOperand) (rate bits : Nat) (clock : ClockOperand) : Option Instr :=
  (fit 8 mode.value).bind fun j => (fit 32 rate).bind fun r => (fit 8 bits).map fun b =>
    .cfg j r b clock.isMaster

/-- The listed bytes of a `WRB` line; none where one does not fit in a byte. -/
def asmBytes : List Nat → Option (List Byte)
  | [] => some []
  | b :: bs => (fit 8 b).bind fun x => (asmBytes bs).map (x :: ·)

/-- The token operand of `ONTX` and `ONRX`: `-` is none. -/
def asmToken : Option Nat → Option (Option (BitVec 16))
  | none => some none
  | some t => (fit 16 t).map some

/-- The 32-bit value of a `WRS` operand; a negative one is its two's complement (R91). -/
def asmSample (v : Int) : Option Word :=
  if -(2 ^ 31) ≤ v ∧ v < 2 ^ 32 then some (BitVec.ofInt 32 v) else none

/-- The command a line spells (R91, R92); none where an operand does not fit its field. -/
def assembleLine : AsmLine → Option Instr
  | .cfg mode rate bits clock => asmCfg mode rate bits clock
  | .endSession => some .endSession
  | .avr => some .avr
  | .avw => some .avw
  | .rds => some .rds
  | .pks => some .pks
  | .fls => some .fls
  | .entx => some .entx
  | .enrx => some .enrx
  | .distx => some .distx
  | .disrx => some .disrx
  | .rdb n => (fit 24 n).map .rdb
  | .wrb n bytes =>
    if bytes.length = n ∧ n < 2 ^ 24 then (asmBytes bytes).map .wrb else none
  | .wrs v => (asmSample v).map .wrs
  | .ontx token => (asmToken token).map .ontx
  | .onrx token => (asmToken token).map .onrx
  | .adv d a => (fit 23 a).map (.adv d)
  | .idx o => (fit 24 o).map .idx
  | .done d => some (.done d)
  | .irq d => some (.irq d)
  | .rxw o x => (fit 24 o).bind fun n => (fit 8 x).map (.rxw n)
  | .beginMaster mode rate bits => asmCfg mode rate bits .master
  | .beginSlave mode bits => asmCfg mode 0 bits .slave
  | .untx => some (.ontx none)
  | .unrx => some (.onrx none)

/-- The words of a program; none where a line does not assemble. -/
def assemble32 : List AsmLine → Option (List Word)
  | [] => some []
  | l :: ls => (assembleLine l).bind fun i => (assemble32 ls).map (encode i ++ ·)

/-! ## Text (R91) -/

/-- The text of a direction operand. -/
def dirText : Dir → String
  | .tx => "tx"
  | .rx => "rx"

/-- The text of a mode operand. -/
def ModeOperand.text : ModeOperand → String
  | .philips => "philips"
  | .right => "right"
  | .left => "left"
  | .number n => n.repr

/-- The text of a clock operand. -/
def ClockOperand.text : ClockOperand → String
  | .master => "master"
  | .slave => "slave"

/-- The text of a token operand. -/
def tokenText : Option Nat → String
  | none => "-"
  | some t => t.repr

/-- The text of a line, numbers in decimal (R91, R92). -/
def AsmLine.text : AsmLine → String
  | .cfg mode rate bits clock =>
    "CFG " ++ mode.text ++ ", " ++ rate.repr ++ ", " ++ bits.repr ++ ", " ++ clock.text
  | .endSession => "END"
  | .avr => "AVR"
  | .avw => "AVW"
  | .rds => "RDS"
  | .pks => "PKS"
  | .fls => "FLS"
  | .entx => "ENTX"
  | .enrx => "ENRX"
  | .distx => "DISTX"
  | .disrx => "DISRX"
  | .rdb n => "RDB " ++ n.repr
  | .wrb n bytes => "WRB " ++ n.repr ++ ", [" ++ String.intercalate ", " (bytes.map Nat.repr) ++ "]"
  | .wrs v => "WRS " ++ v.repr
  | .ontx token => "ONTX " ++ tokenText token
  | .onrx token => "ONRX " ++ tokenText token
  | .adv d a => "ADV " ++ dirText d ++ ", " ++ a.repr
  | .idx o => "IDX " ++ o.repr
  | .done d => "DONE " ++ dirText d
  | .irq d => "IRQ " ++ dirText d
  | .rxw o x => "RXW " ++ o.repr ++ ", " ++ x.repr
  | .beginMaster mode rate bits => "BEGIN " ++ mode.text ++ ", " ++ rate.repr ++ ", " ++ bits.repr
  | .beginSlave mode bits => "BEGIN " ++ mode.text ++ ", " ++ bits.repr
  | .untx => "UNTX"
  | .unrx => "UNRX"

/-! ## Draws written after a command (R91) -/

/-- A draw the environment answers during a command: a position as an offset of 32 bits, or a driver answer
(R91; log 16). -/
inductive Draw where
  | hwPos (d : Dir) (o : Word)
  | drvOk (b : Bool)
  deriving DecidableEq, Repr

/-- The text of a draw (R91). -/
def Draw.text : Draw → String
  | .hwPos d o => "; HwPos(" ++ dirText d ++ ")=" ++ o.toNat.repr
  | .drvOk b => "; DrvOk=" ++ (if b then "1" else "0")

/-- Lists a draw as the last answer of the environment: the position `o` is the address `BASE + o`.
DESIGN CHOICE (log 16): the sum is taken modulo 2^32, so each 32-bit address is written by exactly one offset,
an address below `BASE` by an offset of at least `2^32 - BASE`; the direction is not compared with the query's (log 2). -/
def listDraw (s : State) : Draw → State
  | .hwPos _ o => { s with posAnswers := s.posAnswers ++ [BitVec.ofNat 32 (addressOf s.params o.toNat)] }
  | .drvOk b => { s with okAnswers := s.okAnswers ++ [b] }

/-- Lists draws in their order, positions and driver answers each in a list of their own. DESIGN CHOICE (log
16): a query or a call takes the next answer of its kind, whichever command that answer was written after. -/
def listDraws (s : State) (ds : List Draw) : State := ds.foldl listDraw s

/-! ## Reading text (R91) -/

/-- A piece of a line. -/
inductive Token where
  | word (w : List Char)
  | comma
  | openList
  | closeList
  deriving DecidableEq, Repr

/-- Puts a finished word, held backwards, before the pieces after it. -/
def endWord (cur : List Char) (ts : List Token) : List Token :=
  if cur = [] then ts else .word cur.reverse :: ts

/-- A blank: a space, a tab or a carriage return. DESIGN CHOICE (log 16). -/
def isBlank (c : Char) : Bool := c = ' ' || c = '\t' || c = '\r'

/-- The pieces of a line; a blank ends a word and otherwise counts for nothing. -/
def tokens : List Char → List Char → List Token
  | [], cur => endWord cur []
  | c :: cs, cur =>
    if c = ',' then endWord cur (.comma :: tokens cs [])
    else if c = '[' then endWord cur (.openList :: tokens cs [])
    else if c = ']' then endWord cur (.closeList :: tokens cs [])
    else if isBlank c then endWord cur (tokens cs [])
    else tokens cs (c :: cur)

/-- The value of a digit, up to 15. -/
def digitValue (c : Char) : Option Nat :=
  if 48 ≤ c.toNat ∧ c.toNat ≤ 57 then some (c.toNat - 48)
  else if 97 ≤ c.toNat ∧ c.toNat ≤ 102 then some (c.toNat - 87)
  else if 65 ≤ c.toNat ∧ c.toNat ≤ 70 then some (c.toNat - 55)
  else none

/-- The number of digits in a base, most significant first, after the number `acc`. -/
def readDigits (base : Nat) : List Char → Nat → Option Nat
  | [], acc => some acc
  | c :: cs, acc =>
    (digitValue c).bind fun d => if d < base then readDigits base cs (acc * base + d) else none

/-- A number in decimal, or in hexadecimal after `0x`. -/
def readNat : List Char → Option Nat
  | [] => none
  | ['0', 'x'] => none
  | '0' :: 'x' :: ds => readDigits 16 ds 0
  | ds => readDigits 10 ds 0

/-- A number that may be a negative decimal. -/
def readInt : List Char → Option Int
  | ['-'] => none
  | '-' :: ds => (readDigits 10 ds 0).map fun n => -(n : Int)
  | ds => (readNat ds).map fun n => (n : Int)

/-- A direction operand. -/
def readDir (w : List Char) : Option Dir :=
  if w = ['t', 'x'] then some .tx else if w = ['r', 'x'] then some .rx else none

/-- A mode operand. -/
def readMode (w : List Char) : Option ModeOperand :=
  if w = "philips".toList then some .philips
  else if w = "right".toList then some .right
  else if w = "left".toList then some .left
  else (readNat w).map .number

/-- A clock operand. -/
def readClock (w : List Char) : Option ClockOperand :=
  if w = "master".toList then some .master
  else if w = "slave".toList then some .slave
  else none

/-- A token operand; `-` is none. -/
def readToken (w : List Char) : Option (Option Nat) :=
  if w = ['-'] then some none else (readNat w).map some

/-- Operands set apart by commas. -/
def readOperands : List Token → Option (List (List Char))
  | [] => some []
  | [.word w] => some [w]
  | .word w :: .comma :: t :: ts => (readOperands (t :: ts)).map (w :: ·)
  | _ => none

/-- The bytes of a list after its opening bracket. -/
def readByteList : List Token → Option (List Nat)
  | [.closeList] => some []
  | [.word w, .closeList] => (readNat w).map ([·])
  | .word w :: .comma :: .word v :: ts =>
    (readNat w).bind fun b => (readByteList (.word v :: ts)).map (b :: ·)
  | _ => none

/-- A line without operands. -/
def readPlain (m : List Char) : Option AsmLine :=
  if m = "END".toList then some .endSession
  else if m = "AVR".toList then some .avr
  else if m = "AVW".toList then some .avw
  else if m = "RDS".toList then some .rds
  else if m = "PKS".toList then some .pks
  else if m = "FLS".toList then some .fls
  else if m = "ENTX".toList then some .entx
  else if m = "ENRX".toList then some .enrx
  else if m = "DISTX".toList then some .distx
  else if m = "DISRX".toList then some .disrx
  else if m = "UNTX".toList then some .untx
  else if m = "UNRX".toList then some .unrx
  else none

/-- A line with one operand. -/
def readOne (m a : List Char) : Option AsmLine :=
  if m = "RDB".toList then (readNat a).map .rdb
  else if m = "WRS".toList then (readInt a).map .wrs
  else if m = "ONTX".toList then (readToken a).map .ontx
  else if m = "ONRX".toList then (readToken a).map .onrx
  else if m = "IDX".toList then (readNat a).map .idx
  else if m = "DONE".toList then (readDir a).map .done
  else if m = "IRQ".toList then (readDir a).map .irq
  else none

/-- A line with two operands. -/
def readTwo (m a b : List Char) : Option AsmLine :=
  if m = "ADV".toList then (readDir a).bind fun d => (readNat b).map (.adv d)
  else if m = "RXW".toList then (readNat a).bind fun o => (readNat b).map (.rxw o)
  else if m = "BEGIN".toList then (readMode a).bind fun j => (readNat b).map (.beginSlave j)
  else none

/-- A line with the mode, the rate and the bits, and for `CFG` the clock. -/
def readConfig (m a b c : List Char) (rest : List (List Char)) : Option AsmLine :=
  (readMode a).bind fun j => (readNat b).bind fun r => (readNat c).bind fun w =>
    match rest with
    | [] => if m = "BEGIN".toList then some (.beginMaster j r w) else none
    | [d] => if m = "CFG".toList then (readClock d).map (.cfg j r w) else none
    | _ => none

/-- The line of a mnemonic and its operands. -/
def readCommand (m : List Char) (ts : List Token) : Option AsmLine :=
  match ts with
  | .word n :: .comma :: .openList :: bytes =>
    if m = "WRB".toList then (readNat n).bind fun k => (readByteList bytes).map (.wrb k) else none
  | _ =>
    (readOperands ts).bind fun ops =>
      match ops with
      | [] => readPlain m
      | [a] => readOne m a
      | [a, b] => readTwo m a b
      | a :: b :: c :: rest => readConfig m a b c rest

/-- The parts of a line set apart by `;`: the command, then the comments. -/
def splitComments : List Char → List Char → List (List Char)
  | [], cur => [cur.reverse]
  | c :: cs, cur => if c = ';' then cur.reverse :: splitComments cs [] else splitComments cs (c :: cur)

/-- The draw a comment writes, as a list of at most one: none of it for a comment of any other form, whatever
it says. No list at all where the offset of a position has more than 32 bits: the line then does not read.
DESIGN CHOICE (log 16): blanks anywhere in a draw count for nothing, and that offset is an operand that does
not fit. -/
def readDraw (comment : List Char) : Option (List Draw) :=
  match comment.filter (!isBlank ·) with
  | 'H' :: 'w' :: 'P' :: 'o' :: 's' :: '(' :: x :: y :: ')' :: '=' :: ds =>
    match readDir [x, y], readNat ds with
    | some d, some o => (fit 32 o).map fun w => [.hwPos d w]
    | _, _ => some []
  | ['D', 'r', 'v', 'O', 'k', '=', '0'] => some [.drvOk false]
  | ['D', 'r', 'v', 'O', 'k', '=', '1'] => some [.drvOk true]
  | _ => some []

/-- The draws the comments of a line write, in order. -/
def readDraws : List (List Char) → Option (List Draw)
  | [] => some []
  | c :: cs => (readDraw c).bind fun d => (readDraws cs).map (d ++ ·)

/-- A line of text: its command, none where it has only comments, and its draws; none where the text before
the first `;` is no line of R91 or R92, or a draw does not read. -/
def readLine (text : List Char) : Option (Option AsmLine × List Draw) :=
  match splitComments text [] with
  | [] => some (none, [])
  | command :: comments =>
    (readDraws comments).bind fun draws =>
      match tokens command [] with
      | [] => some (none, draws)
      | .word m :: ts => (readCommand m ts).map fun l => (some l, draws)
      | _ => none

/-- The lines of a text. -/
def splitLines : List Char → List Char → List (List Char)
  | [], cur => [cur.reverse]
  | c :: cs, cur => if c = '\n' then cur.reverse :: splitLines cs [] else splitLines cs (c :: cur)

/-- The lines and draws of a program, in order. DESIGN CHOICE (log 16): the draws of all lines are joined and
no longer tied to their lines, so a command whose draw is not written takes one written after a later line, and
a written draw that its command does not use goes to the next query or call of its kind. -/
def readLines : List (List Char) → Option (List AsmLine × List Draw)
  | [] => some ([], [])
  | t :: ts =>
    (readLine t).bind fun x => (readLines ts).map fun p => (x.1.toList ++ p.1, x.2 ++ p.2)

/-- A program from its text: its words and the draws written in it; none where a line does not read or does
not assemble. -/
def assembleText (text : String) : Option (List Word × List Draw) :=
  (readLines (splitLines text.toList [])).bind fun p => (assemble32 p.1).map fun ws => (ws, p.2)

end Sys2Proof.Machine
end

