-- ==== Sys2Proof/Safety.lean ====
section
/-! DEFINITION. What counts as a good state and a good run (10_state R22 to R28, 70_reset R282), and the words
the statements are written in: when a command can be issued, the state after lazy arming, the bytes of the
ring in ring order. -/

namespace Sys2Proof.Machine

/-! ## Good states -/

/-- The cursor of `d` lies in the ring, and is 0 while `d` is not armed unless late completions are admitted
(10_state R22). -/
abbrev CursorGood (d : Dir) (s : State) : Prop :=
  s.cur.get d < s.params.ringSize ∧
    (s.armed.get d = false → s.params.lateCompletion = false → s.cur.get d = 0)

/-- A completion is pending only for an armed direction, unless late completions are admitted (10_state R28). -/
abbrev PendGood (d : Dir) (s : State) : Prop :=
  s.pend.get d = true → s.armed.get d = true ∨ s.params.lateCompletion = true

/-- A present configuration is one `CFG` accepts (10_state R24). -/
abbrev CfgLegal (s : State) : Prop := ∀ c ∈ s.cfg, validMode c.mode = true ∧ validBits c.bps = true

/-- The configuration, the count and the armed bits agree (10_state R24, R25): the count is in range; no
configuration means no session and nothing armed; with no fatal fault, no session means no configuration. -/
abbrev SessionGood (s : State) : Prop :=
  s.ref ≤ s.params.refMax ∧
    (s.cfg = none → s.ref = 0 ∧ s.armed = ⟨false, false⟩) ∧
    (s.fatal = none → s.ref = 0 → s.cfg = none)

/-- Every listed byte of the ring lies in the ring, and the list is canonical (10_state R31). -/
abbrev RingGood (s : State) : Prop :=
  s.ring.wf = true ∧ ∀ c ∈ s.ring, c.1 < s.params.ringSize

/-- The invariant of the block. -/
structure State.Inv (s : State) : Prop where
  params : s.params.Legal
  curTx : CursorGood .tx s
  curRx : CursorGood .rx s
  pendTx : PendGood .tx s
  pendRx : PendGood .rx s
  cfg : CfgLegal s
  session : SessionGood s
  ring : RingGood s

/-- A call of the driver log is `configure` (60_exceptions R250). -/
def DrvCall.isConfigure : DrvCall → Bool
  | .configure _ _ => true
  | _ => false

/-- A call of the driver log is `deconfigure`. -/
def DrvCall.isDeconfigure : DrvCall → Bool
  | .deconfigure _ => true
  | _ => false

/-- A call of the driver log starts the stream of `d`. -/
def DrvCall.isStart : Dir → DrvCall → Bool
  | .tx, .startStreaming _ _ _ _ => true
  | .rx, .startListening _ _ _ _ => true
  | _, _ => false

/-- A call of the driver log stops the stream of `d`. -/
def DrvCall.isStop : Dir → DrvCall → Bool
  | .tx, .stopStreaming => true
  | .rx, .stopListening => true
  | _, _ => false

/-- How many calls of the log are of a kind. -/
def countCalls (kind : DrvCall → Bool) (s : State) : Nat := (s.drvLog.filter kind).length

/-- The bring-up law of 41_lifecycle R152 and 10_state R26: while no fatal fault is recorded, bring-ups exceed
releases by one exactly when there is a session. -/
abbrev BringUpBalanced (s : State) : Prop :=
  s.fatal = none →
    countCalls DrvCall.isConfigure s =
      countCalls DrvCall.isDeconfigure s + (if s.ref = 0 then 0 else 1)

/-- No double arming (41_lifecycle R153): while no fatal fault is recorded, starts of `d` exceed its stops by
one exactly when `d` is armed. -/
abbrev ArmingBalanced (d : Dir) (s : State) : Prop :=
  s.fatal = none →
    countCalls (DrvCall.isStart d) s =
      countCalls (DrvCall.isStop d) s + (if s.armed.get d then 1 else 0)

/-- A run ends well only when neither a fatal fault nor a refusal is recorded (70_reset R282). -/
def endsWell (s : State) : Bool := s.fatal.isNone && s.refused.isNone

/-! ## When a command can be issued -/

/-- A command issued here reaches its own checks (60_exceptions R238). -/
abbrev Issuable (s : State) : Prop := s.ctx = .foreground ∧ s.fatal = none

/-- A data command for `d` passes its prelude: there is a session with configuration `c`, and `d` is armed or
the driver's next answer is success (43_streaming R190, 41_lifecycle R150). -/
abbrev DataReady (d : Dir) (c : SessionCfg) (s : State) : Prop :=
  Issuable s ∧ s.ref ≠ 0 ∧ s.cfg = some c ∧ (s.armed.get d = true ∨ nextOk s = true)

/-- The state after the prelude of a data command for `d` that passes: unchanged where `d` is armed, else armed
with the cursor at the start of segment 1 and one start call logged (41_lifecycle R146, R147, R150). -/
def afterArm (d : Dir) (c : SessionCfg) (s : State) : State :=
  if s.armed.get d then s
  else setCur d s.params.segSize (setArmed d true (takeOk (logCall (startCall s.params c.wb d) s)))

/-- The environment's answer to the next position query is the address of offset `h` of the ring
(42_completion R170). -/
abbrev NextPosAt (h : Nat) (s : State) : Prop :=
  h < s.params.ringSize ∧ (nextPos s).toNat = s.params.base + h

/-- The environment's answer to the next position query is an address outside the ring. -/
abbrev NextPosOutside (s : State) : Prop :=
  (nextPos s).toNat < s.params.base ∨ s.params.base + s.params.ringSize ≤ (nextPos s).toNat

/-! ## The ring in ring order -/

/-- The offset `i` bytes after `o` in ring order (40_ring R115, R117). -/
def ringOffset (p : Params) (o i : Nat) : Nat := (o + i) % p.ringSize

/-- The `n` bytes from offset `o` in ring order. -/
def ringBytes (s : State) (o n : Nat) : List Byte :=
  (List.range n).map fun i => ringByte s (ringOffset s.params o i)

/-- How far offset `a` lies after `o` in ring order. -/
def ringAfter (p : Params) (o a : Nat) : Nat := (a + p.ringSize - o) % p.ringSize

/-- The ring of `t` is that of `s` with `bs` stored from offset `o` in ring order, and nothing else changed. -/
abbrev StoredAt (o : Nat) (bs : List Byte) (s t : State) : Prop :=
  ∀ a, ringByte t a =
    if a < s.params.ringSize then (bs[ringAfter s.params o a]?).getD (ringByte s a) else ringByte s a

/-! ## Words that spell no command -/

/-- The words spell no command: the decoder rejects them, and a step that finds them is refused with
`REF_ENCODING` (30_encoding R86, R87; 60_exceptions R236, R237). -/
abbrev RefusedWords (ws : List Word) : Prop :=
  (∃ e, decode ws = .reject e) ∧ ∀ s, upcoming s = ws → step s = .next (markRefused .encoding s)

/-- The cursor a data command for `d` starts from: the cursor, or the start of segment 1 where it arms `d`. -/
def startCursor (d : Dir) (s : State) : Nat := if s.armed.get d then s.cur.get d else s.params.segSize

/-- A command of the foreground, not an event (30_encoding R85). -/
abbrev IsCommand (i : Instr) : Prop := i.cmdClass ≠ .event

end Sys2Proof.Machine
end

