-- ==== Sys2Proof/Certificates/Slice0/Obligations.lean ====
section
/-! DEFINITION. The statements for the provers. Each docstring names the rules of spec/ it formalises; where a
next state of a refused or faulting step is stated, that it is a NEXT state is the model's reading (log 5, log
7). -/

open Sys2Proof Sys2Proof.Machine

/-! ## Construction and whole-machine rules -/

/-- 10_state R40, 70_reset R270, R271: what construction leaves; each ring byte is its construction draw; and
`LATE_COMPLETION` at its default (00_scope R6).
The model's own part in it: the draws at construction (log 4), the issuing context (log 10), that the
parameters stand in the state (log 1). -/
def Obligations.ConstructionState : Prop :=
  State.reset.cur = ⟨0, 0⟩ ∧ armedBits State.reset.armed = 0 ∧ streamState State.reset.armed = .idle ∧
    State.reset.cfg = none ∧ State.reset.ref = 0 ∧ State.reset.cb = ⟨none, none⟩ ∧
    State.reset.pend = ⟨false, false⟩ ∧ State.reset.fatal = none ∧ State.reset.refused = none ∧
    State.reset.notifyLog = [] ∧ State.reset.drvLog = [] ∧ State.reset.ctx = .foreground ∧
    State.reset.params.lateCompletion = false ∧
    ∀ a, ringByte State.reset a = Config.ringDraw a

/-- The invariants hold at construction (10_state R22, R24, R28; 41_lifecycle R152, R153).
The model's own part in it: the parameters (log 1). -/
def Obligations.ConstructionIsGood : Prop :=
  State.reset.Inv ∧ BringUpBalanced State.reset ∧ ArmingBalanced .tx State.reset ∧
    ArmingBalanced .rx State.reset

/-- Every step keeps the invariant of the block (10_state R22, R24, R25, R28, R31), from every good state. -/
def Obligations.StepKeepsInvariant : Prop :=
  ∀ s t, s.Inv → step s = .next t → t.Inv

/-- Every step keeps the driver-log laws (41_lifecycle R152, R153; 10_state R26): with no fatal fault recorded,
the log holds one `configure` more than `deconfigure` exactly while there is a session, however many sessions
are open, and one start of a direction more than its stops exactly while it is armed. -/
def Obligations.StepKeepsDriverLogLaws : Prop :=
  ∀ s t, BringUpBalanced s ∧ ArmingBalanced .tx s ∧ ArmingBalanced .rx s → step s = .next t →
    BringUpBalanced t ∧ ArmingBalanced .tx t ∧ ArmingBalanced .rx t

/-- 20_memory R65: no command waits. In a good state with a word left in the stream the step answers a next
state, of which nothing more is said here; with none left it stops as the end of the stream.
The model's own part in it: the end of the stream (log 8). -/
def Obligations.NoStepGetsStuck : Prop :=
  ∀ s, s.Inv →
    (upcoming s ≠ [] → ∃ t, step s = .next t) ∧ (upcoming s = [] → step s = .refused .endOfStream)

/-- The parameters, the stream, the issuing context and the command index are inputs no command or event
writes (00_scope R6, 10_state R20, R35).
The model's own part in it: the issuing context (log 10). -/
def Obligations.InputsAreNeverWritten : Prop :=
  ∀ i s t, exec i s = .next t →
    t.params = s.params ∧ t.stream = s.stream ∧ t.ctx = s.ctx ∧ t.pc = s.pc

/-- 10_state R32, R33, 60_exceptions R235: the logs and the results are appended to only; a notification comes
only from the handler, with the registered token; an event hands nothing to the host.
The model's own part in it: the list of results (log 9). -/
def Obligations.LogsAreAppendedOnly : Prop :=
  ∀ i s t, exec i s = .next t →
    (t.notifyLog = s.notifyLog ∨
      ∃ d k, i = .irq d ∧ s.cb.get d = some k ∧ t.notifyLog = s.notifyLog ++ [(d, k)]) ∧
    (∃ l, t.drvLog = s.drvLog ++ l) ∧
    (t.results = s.results ∨ (IsCommand i ∧ ∃ r, t.results = s.results ++ [r]))

/-- 41_lifecycle R151: only the enabling and lazily arming commands set a bit of `armed`; only the disables,
and `END` with the count reaching 0, clear one. -/
def Obligations.ArmedBitWriters : Prop :=
  ∀ i s t, exec i s = .next t →
    (t.armed.tx = s.armed.tx ∨
      (t.armed.tx = true ∧
        (i = .entx ∨ i = .avw ∨ (∃ p, i = .wrb p) ∨ ∃ v, i = .wrs v)) ∨
      (t.armed.tx = false ∧ (i = .distx ∨ (i = .endSession ∧ t.ref = 0)))) ∧
    (t.armed.rx = s.armed.rx ∨
      (t.armed.rx = true ∧ (i = .enrx ∨ i = .avr ∨ (∃ n, i = .rdb n) ∨ i = .rds ∨ i = .pks)) ∨
      (t.armed.rx = false ∧ (i = .disrx ∨ (i = .endSession ∧ t.ref = 0))))

/-- 10_state R21: the writers of the two cursors. Lazy arming runs the body of an enable and `END` that of the
disables (41_lifecycle R145, R150), so those commands are listed too. -/
def Obligations.CursorWriters : Prop :=
  ∀ i s t, exec i s = .next t →
    (t.cur.rx = s.cur.rx ∨ (∃ n, i = .rdb n) ∨ i = .rds ∨ i = .irq .rx ∨ i = .enrx ∨ i = .disrx ∨
      (∃ a, i = .adv .rx a) ∨
      ((i = .avr ∨ i = .pks) ∧ s.armed.rx = false ∧ t.cur.rx = s.params.segSize) ∨
      (i = .endSession ∧ t.ref = 0 ∧ t.cur.rx = 0)) ∧
    (t.cur.tx = s.cur.tx ∨ (∃ p, i = .wrb p) ∨ (∃ v, i = .wrs v) ∨ i = .irq .tx ∨ i = .entx ∨
      i = .distx ∨ (∃ a, i = .adv .tx a) ∨
      (i = .avw ∧ s.armed.tx = false ∧ t.cur.tx = s.params.segSize) ∨
      (i = .endSession ∧ t.ref = 0 ∧ t.cur.tx = 0))

/-- 10_state R24, R25: only `CFG` (count up by one) and `END` (count down by one) write the count, and only
they write the configuration. -/
def Obligations.SessionWriters : Prop :=
  ∀ i s t, exec i s = .next t →
    (t.ref = s.ref ∧ t.cfg = s.cfg) ∨
    (∃ j r b m, i = .cfg j r b m ∧ t.ref = s.ref + 1 ∧ t.cfg = some ⟨j, r, b, m⟩) ∨
    (i = .endSession ∧ t.ref + 1 = s.ref ∧ (t.cfg = s.cfg ∨ (t.ref = 0 ∧ t.cfg = none)))

/-- 10_state R27, R28: the writers of the notification sinks and of the pending bits. -/
def Obligations.SinkAndPendingWriters : Prop :=
  ∀ i s t, exec i s = .next t →
    (t.cb.tx = s.cb.tx ∨ i = .ontx t.cb.tx) ∧ (t.cb.rx = s.cb.rx ∨ i = .onrx t.cb.rx) ∧
    (t.pend.tx = s.pend.tx ∨ (i = .done .tx ∧ t.pend.tx = true) ∨
      (t.pend.tx = false ∧ (i = .irq .tx ∨ (s.params.lateCompletion = false ∧
        (i = .distx ∨ (i = .endSession ∧ t.ref = 0)))))) ∧
    (t.pend.rx = s.pend.rx ∨ (i = .done .rx ∧ t.pend.rx = true) ∨
      (t.pend.rx = false ∧ (i = .irq .rx ∨ (s.params.lateCompletion = false ∧
        (i = .disrx ∨ (i = .endSession ∧ t.ref = 0))))))

/-- The frame of memory for every command and event but `WRB`, `WRS` and `RXW`: every offset reads as before
(20_memory R50, R62). -/
def Obligations.OtherCommandsLeaveTheRing : Prop :=
  ∀ i s t, exec i s = .next t → (∀ p, i ≠ .wrb p) → (∀ v, i ≠ .wrs v) → (∀ n x, i ≠ .rxw n x) →
    ∀ a, ringByte t a = ringByte s a

/-- The frame of memory for `WRB`, `WRS` and `RXW`: every offset outside the bytes stored reads as before. The
stored bytes are the truncated count from the cursor in ring order (43_streaming R194, R197, R201); `RXW`
stores one byte at its offset (42_completion R179).
The model's own part in it: the answers to position queries (log 2). -/
def Obligations.StoresLeaveOtherBytes : Prop :=
  (∀ p s t, exec (.wrb p) s = .next t →
    ∀ a, ¬(a < s.params.ringSize ∧ ringAfter s.params (startCursor .tx s) a <
        min p.length (ringDist s.params ((nextPos s).toNat - s.params.base) (startCursor .tx s))) →
      ringByte t a = ringByte s a) ∧
  (∀ v s t c, exec (.wrs v) s = .next t → s.cfg = some c →
    ∀ a, ¬(a < s.params.ringSize ∧
        ringAfter s.params (alignDown (startCursor .tx s) c.wb) a <
          min c.wb (ringDist s.params ((nextPos s).toNat - s.params.base)
            (alignDown (startCursor .tx s) c.wb))) →
      ringByte t a = ringByte s a) ∧
  (∀ v s t, exec (.wrs v) s = .next t → s.cfg = none → ∀ a, ringByte t a = ringByte s a) ∧
  (∀ n x s t, exec (.rxw n x) s = .next t → ∀ a, a ≠ n.toNat → ringByte t a = ringByte s a)

/-- 60_exceptions R234: `fatal` is written only where it was none, with a reason its command can raise.
The model's own part in it: a fatal fault as a next state (log 7). -/
def Obligations.FatalReasonRaisers : Prop :=
  ∀ i s t, exec i s = .next t →
    t.fatal = s.fatal ∨
    (s.fatal = none ∧
      ((t.fatal = some .startTx ∧
          (i = .entx ∨ i = .avw ∨ (∃ p, i = .wrb p) ∨ ∃ v, i = .wrs v)) ∨
       (t.fatal = some .startRx ∧
          (i = .enrx ∨ i = .avr ∨ (∃ n, i = .rdb n) ∨ i = .rds ∨ i = .pks)) ∨
       (t.fatal = some .stopTx ∧ (i = .distx ∨ i = .endSession)) ∨
       (t.fatal = some .stopRx ∧ (i = .disrx ∨ i = .endSession)) ∨
       (t.fatal = some .bringUp ∧ s.ref = 0 ∧ ∃ j r b m, i = .cfg j r b m) ∨
       (t.fatal = some .release ∧ i = .endSession ∧ t.ref = 0) ∨
       (t.fatal = some .hwPos ∧
          (i = .avr ∨ i = .avw ∨ (∃ n, i = .rdb n) ∨ (∃ p, i = .wrb p) ∨ i = .rds ∨ i = .pks ∨
            (∃ v, i = .wrs v) ∨ ∃ d, i = .irq d))))

/-- 60_exceptions R233, 10_state R29: a fatal fault is never cleared, and from then on a step changes nothing
but the refusal mark and the host command index.
The model's own part in it: a refusal as a next state (log 5), the stream index on a refusal (log 6), a
fatal fault as a next state (log 7). -/
def Obligations.FatalIsSticky : Prop :=
  ∀ s t r, s.fatal = some r → step s = .next t → t = { s with refused := t.refused, pc := t.pc }

/-- 60_exceptions R233, R237, R238: after a fatal fault every command from the foreground is refused with
`REF_AFTER_FATAL`, whatever else is wrong with it, and no event is enabled.
The model's own part in it: a refusal as a next state (log 5). -/
def Obligations.AfterFatalEverythingIsRefused : Prop :=
  ∀ i s r, s.fatal = some r →
    (IsCommand i → s.ctx = .foreground → exec i s = .next (markRefused .afterFatal s)) ∧
    (¬IsCommand i → exec i s = .next (markRefused .event s))

/-- 60_exceptions R236, 10_state R30: a refusal writes the mark alone, and the mark is never cleared.
The model's own part in it: a refusal as a next state (log 5). -/
def Obligations.RefusalWritesOnlyTheMark : Prop :=
  ∀ i s t, exec i s = .next t →
    (t.refused ≠ s.refused → s.refused = none ∧ t = { s with refused := t.refused }) ∧
    (∀ r, s.refused = some r → t.refused = some r)

/-- 42_completion R178, 60_exceptions R237, R238: a command issued from interrupt context is refused with
`REF_CALLBACK_COMMAND` before any other check; a handler does not run inside a handler (42_completion R176).
The model's own part in it: a refusal as a next state (log 5), the issuing context (log 10). -/
def Obligations.InterruptContextIssuesNothing : Prop :=
  ∀ i s, s.ctx = .interrupt →
    (IsCommand i → exec i s = .next (markRefused .callbackCommand s)) ∧
    (∀ d, exec (.irq d) s = .next (markRefused .event s))

/-- 43_streaming R201, 70_reset R285: in a good state no command reports `RING` bytes or more.
The model's own part in it: the list of results (log 9). -/
def Obligations.CountsStayBelowRing : Prop :=
  ∀ i s t n, s.Inv → exec i s = .next t →
    (t.results = s.results ++ [.count n] ∨ ∃ bs, t.results = s.results ++ [.block n bs]) →
    n ≤ s.params.ringSize - 1

/-! ## Encoding -/

/-- Decoding the words of a well-formed command gives it back, with every operand at every value its field
holds (30_encoding R81, R83, R85, R88). -/
def Obligations.DecodeOfEncode : Prop :=
  ∀ i rest, i.wellFormed = true → decode (encode i ++ rest) = .ok i rest

/-- Words that decode are the words of the command they decode to: each command has one spelling (30_encoding
R81, R87, R88). -/
def Obligations.EncodeOfDecode : Prop :=
  ∀ ws i rest, decode ws = .ok i rest → i.wellFormed = true ∧ encode i ++ rest = ws

/-- Words of 95_test_vectors section 2.5 and of its programs, one or more of each family, decode to the
commands the spec says they are. -/
def Obligations.SpecWordsDecode : Prop :=
  decode [0x01100001, 0x00003E80] = .ok (.cfg 0 16000 16 true) [] ∧
  decode [0x00100201, 0x00000000] = .ok (.cfg 2 0 16 false) [] ∧
  decode [0x00000002] = .ok .endSession [] ∧
  decode [0xFFFFFF05] = .ok (.rdb 16777215) [] ∧
  decode [0x00000506, 0x04030201, 0x00000005] = .ok (.wrb [1, 2, 3, 4, 5]) [] ∧
  decode [0x00000009, 0xFFFFFFFE] = .ok (.wrs 0xFFFFFFFE) [] ∧
  decode [0x0007010B] = .ok (.ontx (some 7)) [] ∧
  decode [0x0000000B] = .ok (.ontx none) [] ∧
  decode [0x00000010] = .ok .entx [] ∧
  decode [0x00002018] = .ok (.adv .tx 16) [] ∧
  decode [0x00000518] = .ok (.adv .rx 2) [] ∧
  decode [0x0005DC19] = .ok (.idx 1500) [] ∧
  decode [0x00000120] = .ok (.done .rx) [] ∧
  decode [0x00000021] = .ok (.irq .tx) [] ∧
  decode [0x00000F22, 0x000000AB] = .ok (.rxw 15 0xAB) []

/-- 30_encoding R93: at most one row of the table matches any word; a word that decodes matches the row of its
command, and a word that no row matches is refused.
The model's own part in it: a refusal as a next state (log 5), the stream index on a refusal (log 6). -/
def Obligations.MatchAndMask : Prop :=
  ∀ w ws,
    (opcodeRows.filter (·.hits w)).length ≤ 1 ∧
    (∀ i rest, decode (w :: ws) = .ok i rest →
      (opcodeRows.filter (·.hits w)).map (·.mnemonic) = [i.mnemonic]) ∧
    (opcodeRows.filter (·.hits w) = [] → RefusedWords (w :: ws))

/-- 30_encoding R86: every opcode outside the map spells no command.
The model's own part in it: a refusal as a next state (log 5), the stream index on a refusal (log 6). -/
def Obligations.ReservedOpcodesAreRefused : Prop :=
  ∀ w ws,
    (w.extractLsb' 0 8).toNat ∉
      [0x01, 0x02, 0x03, 0x04, 0x05, 0x06, 0x07, 0x08, 0x09, 0x0A, 0x0B, 0x0C, 0x10, 0x11, 0x12, 0x13,
        0x18, 0x19, 0x20, 0x21, 0x22] →
    RefusedWords (w :: ws)

/-- 30_encoding R87, R88: must-be-zero bits that are set, a token without its present bit, and nonzero padding
of `WRB` spell no command.
The model's own part in it: a refusal as a next state (log 5), the stream index on a refusal (log 6). -/
def Obligations.MustBeZeroBitsAreRefused : Prop :=
  ∀ w ws,
    ((w.extractLsb' 0 8).toNat ∈ [0x02, 0x03, 0x04, 0x07, 0x08, 0x09, 0x0A, 0x10, 0x11, 0x12, 0x13] →
      w.extractLsb' 8 24 ≠ 0 → RefusedWords (w :: ws)) ∧
    ((w.extractLsb' 0 8).toNat = 0x01 → w.extractLsb' 25 7 ≠ 0 → RefusedWords (w :: ws)) ∧
    ((w.extractLsb' 0 8).toNat ∈ [0x0B, 0x0C] →
      w.extractLsb' 9 7 ≠ 0 ∨ (w.getLsbD 8 = false ∧ w.extractLsb' 16 16 ≠ 0) →
      RefusedWords (w :: ws)) ∧
    ((w.extractLsb' 0 8).toNat ∈ [0x20, 0x21] → w.extractLsb' 9 23 ≠ 0 → RefusedWords (w :: ws)) ∧
    ((w.extractLsb' 0 8).toNat = 0x22 → ∀ w1 rest, ws = w1 :: rest → w1.extractLsb' 8 24 ≠ 0 →
      RefusedWords (w :: ws)) ∧
    ((w.extractLsb' 0 8).toNat = 0x06 →
      (∃ j b, (w.extractLsb' 8 24).toNat ≤ j ∧ j < 4 * payloadWords (w.extractLsb' 8 24).toNat ∧
        (bytesOfWords ws)[j]? = some b ∧ b ≠ 0) →
      RefusedWords (w :: ws))

/-- 30_encoding R82, R89: the length is found from the first word; a command takes exactly that many words and
reports it as its length, and a stream that ends before them is refused.
The model's own part in it: a refusal as a next state (log 5), the stream index on a refusal (log 6). -/
def Obligations.LengthsAreFoundFromTheFirstWord : Prop :=
  ∀ w ws,
    (∀ i rest, decode (w :: ws) = .ok i rest →
      i.words = lengthFrom w ∧ (w :: ws).drop (lengthFrom w) = rest ∧
        lengthFrom w ≤ (w :: ws).length) ∧
    ((w :: ws).length < lengthFrom w → RefusedWords (w :: ws))

/-- 10_state R35, 30_encoding R89: when the words at the command index decode to a well-formed command, the
step is that command, and the index moves past its words.
The model's own part in it: the stream index on a refusal (log 6), the schedule as a stream (log 12). -/
def Obligations.StepRunsTheDecodedCommand : Prop :=
  ∀ s i rest, i.wellFormed = true → decode (s.stream.drop s.pc) = .ok i rest →
    step s =
      match exec i s with
      | .next t => .next { t with pc := t.pc + i.words }
      | .fault f => .fault f
      | .refused r => .refused r

/-! ## Ring arithmetic -/

/-- 40_ring R111, R112: the segment index of an offset in the ring; 2 or more outside it. -/
def Obligations.SegmentIndexOfOffset : Prop :=
  ∀ p o, p.Legal →
    (o < p.segSize → indexOf p o = 0) ∧
    (p.segSize ≤ o → o < p.ringSize → indexOf p o = 1) ∧ (p.ringSize ≤ o → 2 ≤ indexOf p o)

/-- 40_ring R114: bounds of the distance, and the distance modulo the ring. -/
def Obligations.DistanceIsModular : Prop :=
  ∀ p h c, h < p.ringSize → c < p.ringSize →
    ringDist p h c ≤ p.ringSize - 1 ∧ (ringDist p h c : Int) = ((h : Int) - c) % p.ringSize

/-- 40_ring R115: the result of an advance lies in the ring and is the sum modulo the ring. -/
def Obligations.AdvanceIsModular : Prop :=
  ∀ p o a, o < p.ringSize → a ≤ p.ringSize →
    advance p o a < p.ringSize ∧ advance p o a = (o + a) % p.ringSize

/-- 40_ring R121: advances that add up to the ring bring a cursor back. -/
def Obligations.FullRevolutionReturns : Prop :=
  ∀ p o (l : List Nat), o < p.ringSize → (∀ a ∈ l, a ≤ p.ringSize) → l.sum = p.ringSize →
    l.foldl (advance p) o = o

/-- 40_ring R117: a split read returns the bytes in ring order, first those up to the ring end and then those
from offset 0; a split write stores them in ring order and changes nothing else. -/
def Obligations.SplitCopyFollowsTheRing : Prop :=
  (∀ o n s, o < s.params.ringSize → n ≤ s.params.ringSize - 1 →
    let l1 : Nat := min n (s.params.ringSize - o)
    ringRead o n s = .ok (ringBytes s o n) s ∧
      ringBytes s o n = readBytes s o l1 ++ readBytes s 0 (n - l1)) ∧
  (∀ o bs s, o < s.params.ringSize → bs.length ≤ s.params.ringSize - 1 →
    ∃ t, ringWrite o bs s = .ok () t ∧ StoredAt o bs s t ∧ { t with ring := s.ring } = s)

/-- 40_ring R118: rounding down to a sample width stays in the ring, is aligned as an offset and as an
address, and moves by less than one sample. -/
def Obligations.AlignDownStaysInTheRing : Prop :=
  ∀ (p : Params) (o wb : Nat), p.Legal → wb ∈ [1, 2, 4] → o < p.ringSize →
    alignDown o wb % wb = 0 ∧ alignDown o wb ≤ o ∧ o < alignDown o wb + wb ∧
      alignDown o wb + wb ≤ p.ringSize ∧ addressOf p (alignDown o wb) % wb = 0

/-- 43_streaming R202, R203, 20_memory R54: the bytes of a sample least significant first, and the signed value
of `wb` bytes. -/
def Obligations.SampleBytesAndValue : Prop :=
  ∀ wb : Nat, wb ∈ [1, 2, 4] →
    (∀ v, sampleBytes v wb = (List.range wb).map fun i => v.extractLsb' (8 * i) 8) ∧
    (∀ bs : List Byte, bs.length = wb →
      let w : Nat := ((List.range wb).map fun i => ((bs[i]?).getD 0).toNat * 2 ^ (8 * i)).sum
      (sampleValue wb bs).toInt = if w < 2 ^ (8 * wb - 1) then (w : Int) else (w : Int) - 2 ^ (8 * wb))

/-! ## Lifecycle -/

/-- 41_lifecycle R142, R143: `CFG` succeeds while Idle with a valid mode and width and room in the count; the
first session brings the hardware up, in the order pin multiplex, init, configure; a later one calls no driver.
The model's own part in it: the driver's answers (log 3), the list of results (log 9). -/
def Obligations.CfgOpensASession : Prop :=
  ∀ mode rate bits master s, Issuable s → s.armed = ⟨false, false⟩ →
    mode.toNat ∈ [0, 1, 2] → bits.toNat ∈ [8, 16, 32] → s.ref ≠ s.params.refMax →
    let c : SessionCfg := ⟨mode, rate, bits, master⟩
    (s.ref = 0 → nextOk s = true →
      exec (.cfg mode rate bits master) s =
        .next { takeOk s with
          ref := 1
          cfg := some c
          drvLog := s.drvLog ++ [.initPinMux, .init, .configure s.params.channel c]
          results := s.results ++ [.success] }) ∧
    (s.ref ≠ 0 →
      exec (.cfg mode rate bits master) s =
        .next { s with
          ref := s.ref + 1
          cfg := some c
          results := s.results ++ [.success] })

/-- 60_exceptions R231: a configuration error gives `CFG_FAIL`, changes no field and calls no driver; no other
command gives `CFG_FAIL`.
The model's own part in it: the list of results (log 9). -/
def Obligations.ConfigurationErrorChangesNothing : Prop :=
  (∀ mode rate bits master s, Issuable s →
    armedBits s.armed ≠ 0 ∨ mode.toNat ∉ [0, 1, 2] ∨ bits.toNat ∉ [8, 16, 32] →
    exec (.cfg mode rate bits master) s = .next { s with results := s.results ++ [.cfgFail] }) ∧
  (∀ i s t, exec i s = .next t → t.results = s.results ++ [.cfgFail] →
    ∃ mode rate bits master, i = .cfg mode rate bits master)

/-- 41_lifecycle R143: a failed configure at bring-up is fatal; the three calls stay logged, the count and the
configuration are not written.
The model's own part in it: the driver's answers (log 3), a fatal fault as a next state (log 7), the
list of results (log 9). -/
def Obligations.FailedBringUpIsFatal : Prop :=
  ∀ mode rate bits master s, Issuable s → s.armed = ⟨false, false⟩ →
    mode.toNat ∈ [0, 1, 2] → bits.toNat ∈ [8, 16, 32] → s.ref = 0 → s.params.refMax ≠ 0 →
    nextOk s = false →
    exec (.cfg mode rate bits master) s =
      .next { takeOk s with
        fatal := some .bringUp
        drvLog := s.drvLog ++
          [.initPinMux, .init, .configure s.params.channel ⟨mode, rate, bits, master⟩]
        results := s.results ++ [.fatal .bringUp] }

/-- 41_lifecycle R144: `END` with more than one session only decrements the count.
The model's own part in it: the list of results (log 9). -/
def Obligations.EndOfOneOfSeveralSessions : Prop :=
  ∀ s, Issuable s → 2 ≤ s.ref →
    exec .endSession s = .next { s with ref := s.ref - 1, results := s.results ++ [.success] }

/-- 41_lifecycle R145, R148, R149: `END` of the last session, with every driver call answered by success,
disables the armed directions, transmitter first, then releases the driver and forgets the configuration.
The model's own part in it: the driver's answers (log 3), the list of results (log 9). -/
def Obligations.EndOfTheLastSessionReleases : Prop :=
  ∀ s, Issuable s → s.ref = 1 →
    (∀ k, k ≤ s.armed.tx.toNat + s.armed.rx.toNat → nextOk (takeOk^[k] s) = true) →
    exec .endSession s =
      .next { takeOk^[s.armed.tx.toNat + s.armed.rx.toNat + 1] s with
        ref := 0
        cfg := none
        armed := ⟨false, false⟩
        cur := ⟨if s.armed.tx then 0 else s.cur.tx, if s.armed.rx then 0 else s.cur.rx⟩
        pend := ⟨s.pend.tx && (!s.armed.tx || s.params.lateCompletion),
          s.pend.rx && (!s.armed.rx || s.params.lateCompletion)⟩
        drvLog := s.drvLog ++ (if s.armed.tx then [.stopStreaming] else []) ++
          (if s.armed.rx then [.stopListening] else []) ++ [.deconfigure s.params.channel]
        results := s.results ++ [.success] }

/-- 41_lifecycle R145, 60_exceptions R233: the first call of a release that fails is fatal; the count stays
decremented, the configuration stays present, and a direction already disabled stays disabled. The cases: the
stop of the transmitter, the stop of the receiver (alone, or after the transmitter's succeeded), and
`deconfigure` (with nothing armed, after one stop succeeded, after both did).
The model's own part in it: the driver's answers (log 3), a fatal fault as a next state (log 7), the
list of results (log 9). -/
def Obligations.FailedReleaseIsFatal : Prop :=
  ∀ s, Issuable s → s.ref = 1 →
    (s.armed.tx = true → nextOk s = false →
      exec .endSession s =
        .next { takeOk s with
          ref := 0
          fatal := some .stopTx
          drvLog := s.drvLog ++ [.stopStreaming]
          results := s.results ++ [.fatal .stopTx] }) ∧
    (s.armed = ⟨false, true⟩ → nextOk s = false →
      exec .endSession s =
        .next { takeOk s with
          ref := 0
          fatal := some .stopRx
          drvLog := s.drvLog ++ [.stopListening]
          results := s.results ++ [.fatal .stopRx] }) ∧
    (s.armed = ⟨true, true⟩ → nextOk s = true → nextOk (takeOk s) = false →
      exec .endSession s =
        .next { takeOk (takeOk s) with
          ref := 0
          fatal := some .stopRx
          armed := ⟨false, true⟩
          cur := ⟨0, s.cur.rx⟩
          pend := ⟨s.pend.tx && s.params.lateCompletion, s.pend.rx⟩
          drvLog := s.drvLog ++ [.stopStreaming, .stopListening]
          results := s.results ++ [.fatal .stopRx] }) ∧
    (s.armed = ⟨false, false⟩ → nextOk s = false →
      exec .endSession s =
        .next { takeOk s with
          ref := 0
          fatal := some .release
          drvLog := s.drvLog ++ [.deconfigure s.params.channel]
          results := s.results ++ [.fatal .release] }) ∧
    (s.armed = ⟨true, false⟩ → nextOk s = true → nextOk (takeOk s) = false →
      exec .endSession s =
        .next { takeOk (takeOk s) with
          ref := 0
          fatal := some .release
          armed := ⟨false, false⟩
          cur := ⟨0, s.cur.rx⟩
          pend := ⟨s.pend.tx && s.params.lateCompletion, s.pend.rx⟩
          drvLog := s.drvLog ++ [.stopStreaming, .deconfigure s.params.channel]
          results := s.results ++ [.fatal .release] }) ∧
    (s.armed = ⟨false, true⟩ → nextOk s = true → nextOk (takeOk s) = false →
      exec .endSession s =
        .next { takeOk (takeOk s) with
          ref := 0
          fatal := some .release
          armed := ⟨false, false⟩
          cur := ⟨s.cur.tx, 0⟩
          pend := ⟨s.pend.tx, s.pend.rx && s.params.lateCompletion⟩
          drvLog := s.drvLog ++ [.stopListening, .deconfigure s.params.channel]
          results := s.results ++ [.fatal .release] }) ∧
    (s.armed = ⟨true, true⟩ → nextOk s = true → nextOk (takeOk s) = true →
      nextOk (takeOk (takeOk s)) = false →
      exec .endSession s =
        .next { takeOk (takeOk (takeOk s)) with
          ref := 0
          fatal := some .release
          armed := ⟨false, false⟩
          cur := ⟨0, 0⟩
          pend := ⟨s.pend.tx && s.params.lateCompletion, s.pend.rx && s.params.lateCompletion⟩
          drvLog := s.drvLog ++ [.stopStreaming, .stopListening, .deconfigure s.params.channel]
          results := s.results ++ [.fatal .release] })

/-- 41_lifecycle R146, R147: an enable of a disarmed direction logs one start call with `(BASE, RING, wb, 2)`,
sets the bit and puts the cursor at the start of segment 1; of an armed one it changes nothing.
The model's own part in it: the driver's answers (log 3), the list of results (log 9). -/
def Obligations.EnableArmsADirection : Prop :=
  ∀ s c, Issuable s → s.ref ≠ 0 → s.cfg = some c →
    (s.armed.tx = true → exec .entx s = .next { s with results := s.results ++ [.success] }) ∧
    (s.armed.rx = true → exec .enrx s = .next { s with results := s.results ++ [.success] }) ∧
    (s.armed.tx = false → nextOk s = true →
      exec .entx s =
        .next { takeOk s with
          armed := ⟨true, s.armed.rx⟩
          cur := ⟨s.params.segSize, s.cur.rx⟩
          drvLog := s.drvLog ++ [.startStreaming s.params.base (2 * s.params.segSize) (c.bps.toNat / 8) 2]
          results := s.results ++ [.success] }) ∧
    (s.armed.rx = false → nextOk s = true →
      exec .enrx s =
        .next { takeOk s with
          armed := ⟨s.armed.tx, true⟩
          cur := ⟨s.cur.tx, s.params.segSize⟩
          drvLog := s.drvLog ++ [.startListening s.params.base (2 * s.params.segSize) (c.bps.toNat / 8) 2]
          results := s.results ++ [.success] })

/-- 41_lifecycle R148, R149: a disable of an armed direction logs one stop call, clears the bit, puts the cursor
at the buffer base and clears the pending bit unless `LATE_COMPLETION`; of a disarmed one it changes nothing.
The model's own part in it: the driver's answers (log 3), the list of results (log 9). -/
def Obligations.DisableDisarmsADirection : Prop :=
  ∀ s, Issuable s →
    (s.armed.tx = false → exec .distx s = .next { s with results := s.results ++ [.success] }) ∧
    (s.armed.rx = false → exec .disrx s = .next { s with results := s.results ++ [.success] }) ∧
    (s.armed.tx = true → nextOk s = true →
      exec .distx s =
        .next { takeOk s with
          armed := ⟨false, s.armed.rx⟩
          cur := ⟨0, s.cur.rx⟩
          pend := ⟨s.pend.tx && s.params.lateCompletion, s.pend.rx⟩
          drvLog := s.drvLog ++ [.stopStreaming]
          results := s.results ++ [.success] }) ∧
    (s.armed.rx = true → nextOk s = true →
      exec .disrx s =
        .next { takeOk s with
          armed := ⟨s.armed.tx, false⟩
          cur := ⟨s.cur.tx, 0⟩
          pend := ⟨s.pend.tx, s.pend.rx && s.params.lateCompletion⟩
          drvLog := s.drvLog ++ [.stopListening]
          results := s.results ++ [.success] })

/-- 41_lifecycle R146 to R149: a start or a stop that the driver refuses is fatal, with the call logged; the bit
of the direction and its cursor are not written.
The model's own part in it: the driver's answers (log 3), a fatal fault as a next state (log 7), the
list of results (log 9). -/
def Obligations.RefusedStartOrStopIsFatal : Prop :=
  ∀ s, Issuable s → nextOk s = false →
    (∀ c, s.ref ≠ 0 → s.cfg = some c → s.armed.tx = false →
      exec .entx s =
        .next { takeOk s with
          fatal := some .startTx
          drvLog := s.drvLog ++ [.startStreaming s.params.base s.params.ringSize c.wb 2]
          results := s.results ++ [.fatal .startTx] }) ∧
    (∀ c, s.ref ≠ 0 → s.cfg = some c → s.armed.rx = false →
      exec .enrx s =
        .next { takeOk s with
          fatal := some .startRx
          drvLog := s.drvLog ++ [.startListening s.params.base s.params.ringSize c.wb 2]
          results := s.results ++ [.fatal .startRx] }) ∧
    (s.armed.tx = true →
      exec .distx s =
        .next { takeOk s with
          fatal := some .stopTx
          drvLog := s.drvLog ++ [.stopStreaming]
          results := s.results ++ [.fatal .stopTx] }) ∧
    (s.armed.rx = true →
      exec .disrx s =
        .next { takeOk s with
          fatal := some .stopRx
          drvLog := s.drvLog ++ [.stopListening]
          results := s.results ++ [.fatal .stopRx] })

/-- 41_lifecycle R153: an enable or a disable that returned `OK`, issued again at once, returns `OK` and changes
nothing: no second driver call.
The model's own part in it: the list of results (log 9). -/
def Obligations.EnableAndDisableAreIdempotent : Prop :=
  ∀ i ∈ [Instr.entx, .enrx, .distx, .disrx], ∀ s t, exec i s = .next t →
    t.results = s.results ++ [.success] →
    exec i t = .next { t with results := t.results ++ [.success] }

/-- 42_completion R180: with `LATE_COMPLETION` a disable keeps the pending completion, and the handler is then
enabled for the disarmed direction.
The model's own part in it: the driver's answers (log 3). -/
def Obligations.LateCompletionSurvivesDisable : Prop :=
  ∀ s, Issuable s → s.params.lateCompletion = true → nextOk s = true →
    (s.armed.tx = true → s.pend.tx = true → ∃ t, exec .distx s = .next t ∧ t.armed.tx = false ∧
      t.pend.tx = true ∧ irqEnabled .tx t = true) ∧
    (s.armed.rx = true → s.pend.rx = true → ∃ t, exec .disrx s = .next t ∧ t.armed.rx = false ∧
      t.pend.rx = true ∧ irqEnabled .rx t = true)

/-! ## Commands turned away -/

/-- 43_streaming R190, 41_lifecycle R142, R144, R146, R147, 40_ring R119, R120: the refusals of the commands'
own checks.
The model's own part in it: a refusal as a next state (log 5). -/
def Obligations.CommandsTurnedAway : Prop :=
  ∀ s, Issuable s →
    (s.ref = 0 →
      exec .avr s = .next (markRefused .notConfigured s) ∧
      exec .avw s = .next (markRefused .notConfigured s) ∧
      (∀ n, exec (.rdb n) s = .next (markRefused .notConfigured s)) ∧
      (∀ p, exec (.wrb p) s = .next (markRefused .notConfigured s)) ∧
      exec .rds s = .next (markRefused .notConfigured s) ∧
      exec .pks s = .next (markRefused .notConfigured s) ∧
      (∀ v, exec (.wrs v) s = .next (markRefused .notConfigured s)) ∧
      exec .entx s = .next (markRefused .notConfigured s) ∧
      exec .enrx s = .next (markRefused .notConfigured s) ∧
      exec .endSession s = .next (markRefused .unbalancedEnd s)) ∧
    (∀ mode rate bits master, s.armed = ⟨false, false⟩ → mode.toNat ∈ [0, 1, 2] →
      bits.toNat ∈ [8, 16, 32] → s.ref = s.params.refMax →
      exec (.cfg mode rate bits master) s = .next (markRefused .refOverflow s)) ∧
    (∀ o, s.params.ringSize ≤ o.toNat → exec (.idx o) s = .next (markRefused .range s)) ∧
    (∀ d a, s.armed.get d = false → exec (.adv d a) s = .next (markRefused .notArmed s)) ∧
    (∀ d a, s.armed.get d = true → s.params.ringSize < a.toNat →
      exec (.adv d a) s = .next (markRefused .range s))

/-- 42_completion R171, R172, R179: an event that is not enabled is refused with `REF_EVENT`.
The model's own part in it: a refusal as a next state (log 5). -/
def Obligations.EventsNotEnabledAreRefused : Prop :=
  ∀ s,
    (∀ d, s.fatal ≠ none ∨ s.armed.get d = false → exec (.done d) s = .next (markRefused .event s)) ∧
    (∀ d, s.fatal ≠ none ∨ s.pend.get d = false ∨
        (s.armed.get d = false ∧ s.params.lateCompletion = false) →
      exec (.irq d) s = .next (markRefused .event s)) ∧
    (∀ n x, s.fatal ≠ none ∨ s.armed.rx = false ∨ s.params.ringSize ≤ n.toNat →
      exec (.rxw n x) s = .next (markRefused .event s))

/-! ## Ring commands -/

/-- 40_ring R120: `ADV` on an armed direction.
The model's own part in it: the list of results (log 9). -/
def Obligations.AdvMovesACursor : Prop :=
  ∀ d a s, Issuable s → s.armed.get d = true → a.toNat ≤ s.params.ringSize →
    exec (.adv d a) s =
      .next { s with
        cur := s.cur.set d (advance s.params (s.cur.get d) a.toNat)
        results := s.results ++ [.offset (advance s.params (s.cur.get d) a.toNat)] }

/-- 40_ring R119: `IDX` of an offset in the ring, with nothing else written.
The model's own part in it: the list of results (log 9). -/
def Obligations.IdxGivesTheSegment : Prop :=
  ∀ o s, Issuable s → o.toNat < s.params.ringSize →
    exec (.idx o) s =
      .next { s with results := s.results ++ [.segment (if o.toNat < s.params.segSize then 0 else 1)] }

/-! ## Events -/

/-- 42_completion R171, 10_state R28: `DONE` sets the pending bit; a second one changes nothing. -/
def Obligations.DoneSetsThePendingBit : Prop :=
  ∀ d s, s.fatal = none → s.armed.get d = true →
    exec (.done d) s = .next { s with pend := s.pend.set d true } ∧
    (s.pend.get d = true → exec (.done d) s = .next s)

/-- 42_completion R173, R174, R175, 60_exceptions R243: the handler clears the pending bit, snaps a cursor that
sits in the segment of the position to the start of the other one, and notifies the registered sink.
The model's own part in it: the answers to position queries (log 2), the issuing context (log 10). -/
def Obligations.HandlerReconcilesAndNotifies : Prop :=
  ∀ d s h, s.params.Legal → s.fatal = none → s.ctx = .foreground → s.pend.get d = true →
    s.armed.get d = true ∨ s.params.lateCompletion = true →
    s.cur.get d < s.params.ringSize → NextPosAt h s →
    exec (.irq d) s =
      .next { takePos s with
        pend := s.pend.set d false
        cur := s.cur.set d
          (if s.cur.get d < s.params.segSize ∧ h < s.params.segSize then s.params.segSize
           else if s.params.segSize ≤ s.cur.get d ∧ s.params.segSize ≤ h then 0
           else s.cur.get d)
        notifyLog := s.notifyLog ++ (s.cb.get d).toList.map fun k => (d, k) }

/-- 42_completion R179: `RXW` stores one byte at its offset and writes nothing else. -/
def Obligations.RxwStoresOneByte : Prop :=
  ∀ n x s, s.fatal = none → s.armed.rx = true → n.toNat < s.params.ringSize →
    ∃ t, exec (.rxw n x) s = .next t ∧ { t with ring := s.ring } = s ∧
      ∀ a, ringByte t a = if a = n.toNat then x else ringByte s a

/-! ## Streaming -/

/-- 43_streaming R191, R192: `AVR` and `AVW` return the distance from the cursor to the position drawn, after
lazy arming, and write nothing else.
The model's own part in it: the answers to position queries (log 2), the driver's answers (log 3), the
list of results (log 9). -/
def Obligations.AvailableCountsReturnTheDistance : Prop :=
  ∀ s c h, NextPosAt h s →
    (DataReady .rx c s →
      exec .avr s = .next (giveResult (.count (ringDist s.params h (startCursor .rx s))) (takePos (afterArm .rx c s)))) ∧
    (DataReady .tx c s →
      exec .avw s = .next (giveResult (.count (ringDist s.params h (startCursor .tx s))) (takePos (afterArm .tx c s))))

/-- 43_streaming R193, R201: `RDB` returns the truncated count and that many bytes from the receive cursor in
ring order, and advances the cursor by it.
The model's own part in it: the answers to position queries (log 2), the driver's answers (log 3), the
list of results (log 9). -/
def Obligations.RdbReadsABlock : Prop :=
  ∀ count s c h, s.params.Legal → s.cur.rx < s.params.ringSize → DataReady .rx c s → NextPosAt h s →
    let o := startCursor .rx s
    let n := min count.toNat (ringDist s.params h o)
    exec (.rdb count) s =
      .next (giveResult (.block n (ringBytes s o n))
        (setCur .rx (ringOffset s.params o n) (takePos (afterArm .rx c s))))

/-- 43_streaming R194, R201: `WRB` stores the truncated payload from the transmit cursor in ring order, advances
the cursor by the count, returns it, and writes nothing else.
The model's own part in it: the answers to position queries (log 2), the driver's answers (log 3), the
list of results (log 9). -/
def Obligations.WrbWritesABlock : Prop :=
  ∀ payload s c h, s.params.Legal → s.cur.tx < s.params.ringSize → DataReady .tx c s → NextPosAt h s →
    let o := startCursor .tx s
    let n := min payload.length (ringDist s.params h o)
    ∃ t, exec (.wrb payload) s = .next t ∧ StoredAt o (payload.take n) s t ∧
      { t with ring := s.ring } =
        giveResult (.count n) (setCur .tx (ringOffset s.params o n) (takePos (afterArm .tx c s)))

/-- 43_streaming R195, R196, R202, R201: `RDS` and `PKS` return the sign-extended sample at the receive cursor,
missing high bytes 0; `RDS` advances the cursor by the bytes read, `PKS` does not.
The model's own part in it: the answers to position queries (log 2), the driver's answers (log 3), the
list of results (log 9). -/
def Obligations.RdsAndPksReadASample : Prop :=
  ∀ s c h, s.params.Legal → s.cur.rx < s.params.ringSize → DataReady .rx c s → NextPosAt h s →
    let o := startCursor .rx s
    let n := min c.wb (ringDist s.params h o)
    let w : Nat := ((List.range n).map fun i =>
      (ringByte s (ringOffset s.params o i)).toNat * 2 ^ (8 * i)).sum
    let v := (BitVec.ofNat (8 * c.wb) w).signExtend 32
    exec .rds s =
        .next (giveResult (.sample v)
          (setCur .rx (ringOffset s.params o n) (takePos (afterArm .rx c s)))) ∧
      exec .pks s = .next (giveResult (.sample v) (takePos (afterArm .rx c s)))

/-- 43_streaming R197, R203, R201: `WRS` aligns the transmit cursor down to the sample width, stores the low
bytes of the sample that fit, advances the cursor by their count, returns it, and writes nothing else.
The model's own part in it: the answers to position queries (log 2), the driver's answers (log 3), the
list of results (log 9). -/
def Obligations.WrsWritesASample : Prop :=
  ∀ v s c h, s.params.Legal → s.cur.tx < s.params.ringSize → DataReady .tx c s → NextPosAt h s →
    let o := alignDown (startCursor .tx s) c.wb
    let n := min c.wb (ringDist s.params h o)
    ∃ t, exec (.wrs v) s = .next t ∧
      StoredAt o ((List.range n).map fun i => v.extractLsb' (8 * i) 8) s t ∧
      { t with ring := s.ring } =
        giveResult (.count n) (setCur .tx (ringOffset s.params o n) (takePos (afterArm .tx c s)))

/-- 43_streaming R198, R199, R200: `FLS` changes nothing; `ONTX` and `ONRX` register or clear a sink; all three
return `OK`, before `CFG` too.
The model's own part in it: the list of results (log 9). -/
def Obligations.FlushAndRegistration : Prop :=
  ∀ s, Issuable s →
    exec .fls s = .next { s with results := s.results ++ [.success] } ∧
    (∀ k, exec (.ontx k) s =
      .next { s with cb := ⟨k, s.cb.rx⟩, results := s.results ++ [.success] }) ∧
    (∀ k, exec (.onrx k) s =
      .next { s with cb := ⟨s.cb.tx, k⟩, results := s.results ++ [.success] })

/-- 42_completion R170, 60_exceptions R233: a position outside the ring is fatal. What the step wrote before
stays: a lazy arming, the alignment of `WRS`, the cleared pending bit of the handler.
The model's own part in it: the answers to position queries (log 2), the driver's answers (log 3), a
fatal fault as a next state (log 7), the list of results (log 9), no result from a handler's fault (log
15). -/
def Obligations.PositionOutsideTheRingIsFatal : Prop :=
  ∀ s c, NextPosOutside s →
    (DataReady .rx c s → ∀ i, (i = .avr ∨ (∃ n, i = .rdb n) ∨ i = .rds ∨ i = .pks) →
      exec i s = .next (giveResult (.fatal .hwPos) (raiseFatal .hwPos (takePos (afterArm .rx c s))))) ∧
    (DataReady .tx c s → ∀ i, (i = .avw ∨ ∃ p, i = .wrb p) →
      exec i s = .next (giveResult (.fatal .hwPos) (raiseFatal .hwPos (takePos (afterArm .tx c s))))) ∧
    (DataReady .tx c s → ∀ v,
      exec (.wrs v) s =
        .next (giveResult (.fatal .hwPos) (raiseFatal .hwPos
          (takePos (setCur .tx (alignDown (startCursor .tx s) c.wb) (afterArm .tx c s)))))) ∧
    (∀ d, irqEnabled d s = true →
      exec (.irq d) s = .next (raiseFatal .hwPos (takePos (setPend d false s))))

/-- 43_streaming R190, 41_lifecycle R150, 60_exceptions R233: a data command whose lazy arming the driver
refuses is fatal, with the start call logged and nothing armed.
The model's own part in it: the driver's answers (log 3), a fatal fault as a next state (log 7), the
list of results (log 9). -/
def Obligations.FailedLazyArmingIsFatal : Prop :=
  ∀ s c, Issuable s → s.ref ≠ 0 → s.cfg = some c → nextOk s = false →
    (s.armed.rx = false → ∀ i, (i = .avr ∨ (∃ n, i = .rdb n) ∨ i = .rds ∨ i = .pks) →
      exec i s =
        .next { takeOk s with
          fatal := some .startRx
          drvLog := s.drvLog ++ [.startListening s.params.base s.params.ringSize c.wb 2]
          results := s.results ++ [.fatal .startRx] }) ∧
    (s.armed.tx = false → ∀ i, (i = .avw ∨ (∃ p, i = .wrb p) ∨ ∃ v, i = .wrs v) →
      exec i s =
        .next { takeOk s with
          fatal := some .startTx
          drvLog := s.drvLog ++ [.startStreaming s.params.base s.params.ringSize c.wb 2]
          results := s.results ++ [.fatal .startTx] })
end

