-- ==== Sys2Proof/Laws/Config.lean ====
section
/-! SUPPORT. The parameters of the instance are legal (00_scope R6), whatever the opaque numbers are, and the
checks of 41_lifecycle R140 and R141 as statements about numbers. -/

namespace Sys2Proof

theorem Config.params_legal : Config.params.Legal := by
  have hS : Config.params.segSize = 4 * (Config.segmentNumber % 2 ^ 19 + 1) := rfl
  have hB : Config.params.base = 4 * (Config.baseNumber % (2 ^ 30 - Config.params.segSize / 2 + 1)) := rfl
  have hR : Config.params.refMax = Config.refMaxNumber + 1 := rfl
  have h1 := Nat.mod_lt Config.segmentNumber (show 2 ^ 19 > 0 by decide)
  have h2 := Nat.mod_lt Config.baseNumber (show 2 ^ 30 - Config.params.segSize / 2 + 1 > 0 by omega)
  exact ⟨by omega, by omega, by omega, by omega, by omega, by omega⟩

/-- `LATE_COMPLETION` is `false` where nothing sets it (00_scope R6). -/
@[simp] theorem Config.params_lateCompletion : Config.params.lateCompletion = false := rfl

namespace Machine

/-- A legal ring holds at least 8 bytes and a whole number of 4-byte words. -/
theorem Legal.ring {p : Params} (h : p.Legal) : 8 ≤ p.ringSize ∧ p.ringSize % 4 = 0 := by
  unfold Params.ringSize
  omega

/-- Segment 1 starts inside the ring. -/
theorem Legal.segSize_lt {p : Params} (h : p.Legal) : p.segSize < p.ringSize := by
  unfold Params.ringSize
  omega

theorem validMode_iff (j : BitVec 8) : validMode j = true ↔ j.toNat ∈ [0, 1, 2] := by
  simp [validMode, ← BitVec.toNat_inj, or_assoc]

theorem validBits_iff (b : BitVec 8) : validBits b = true ↔ b.toNat ∈ [8, 16, 32] := by
  simp [validBits, ← BitVec.toNat_inj, or_assoc]

/-- A width that `CFG` accepts is 1, 2 or 4 bytes (10_state R24). -/
theorem wb_of_validBits {c : SessionCfg} (h : validBits c.bps = true) : c.wb ∈ [1, 2, 4] := by
  rw [validBits_iff] at h
  simp only [List.mem_cons, List.not_mem_nil, or_false] at h ⊢
  unfold SessionCfg.wb
  omega

end Machine

end Sys2Proof
end

