-- ==== Sys2Proof/Laws/Decode.lean ====
section
/-! SUPPORT. The fields of a word as numbers, bytes and words, and the decoder format by format: what each
accepts and what it rejects. -/

namespace Sys2Proof

/-! ## Fields as numbers -/

section Fields

variable (w : Word)

theorem fieldO_toNat : (fieldO w).toNat = w.toNat % 2 ^ 8 := by simp [fieldO]
theorem fieldN_toNat : (fieldN w).toNat = w.toNat / 2 ^ 8 % 2 ^ 24 := by
  simp [fieldN, Nat.shiftRight_eq_div_pow]
theorem fieldJ_toNat : (fieldJ w).toNat = w.toNat / 2 ^ 8 % 2 ^ 8 := by
  simp [fieldJ, Nat.shiftRight_eq_div_pow]
theorem fieldB_toNat : (fieldB w).toNat = w.toNat / 2 ^ 16 % 2 ^ 8 := by
  simp [fieldB, Nat.shiftRight_eq_div_pow]
theorem fieldT_toNat : (fieldT w).toNat = w.toNat / 2 ^ 16 % 2 ^ 16 := by
  simp [fieldT, Nat.shiftRight_eq_div_pow]
theorem fieldA_toNat : (fieldA w).toNat = w.toNat / 2 ^ 9 % 2 ^ 23 := by
  simp [fieldA, Nat.shiftRight_eq_div_pow]
theorem fieldX_toNat : (fieldX w).toNat = w.toNat % 2 ^ 8 := by simp [fieldX]
theorem zeroFC_toNat : (zeroFC w).toNat = w.toNat / 2 ^ 25 % 2 ^ 7 := by
  simp [zeroFC, Nat.shiftRight_eq_div_pow]
theorem zeroFR_toNat : (zeroFR w).toNat = w.toNat / 2 ^ 9 % 2 ^ 7 := by
  simp [zeroFR, Nat.shiftRight_eq_div_pow]
theorem fieldBit8_toNat : (fieldBit8 w).toNat = w.toNat / 2 ^ 8 % 2 := by
  simp [fieldBit8, BitVec.getLsbD, Nat.testBit_eq_decide_div_mod_eq]
  rcases Nat.mod_two_eq_zero_or_one (w.toNat / 256) with h | h <;> simp [h]
theorem fieldM_toNat : (fieldM w).toNat = w.toNat / 2 ^ 24 % 2 := by
  simp [fieldM, BitVec.getLsbD, Nat.testBit_eq_decide_div_mod_eq]
  rcases Nat.mod_two_eq_zero_or_one (w.toNat / 16777216) with h | h <;> simp [h]

theorem word0_toNat {o r : Nat} (ho : o < 2 ^ 8) (hr : r < 2 ^ 24) :
    (word0 o r).toNat = o + 2 ^ 8 * r := by
  simp only [word0, BitVec.toNat_ofNat]
  omega

/-- A word is its opcode and the 24 bits above it. -/
theorem word0_of_fields : word0 (fieldO w).toNat (fieldN w).toNat = w := by
  apply BitVec.eq_of_toNat_eq
  have hw := w.isLt
  rw [word0_toNat (fieldO w).isLt (fieldN w).isLt, fieldO_toNat, fieldN_toNat]
  omega

end Fields

/-- The `D` bit and its direction (30_encoding R84). -/
@[simp] theorem bitOfDir_dirOfBit (b : Bool) : bitOfDir (dirOfBit b) = b.toNat := by cases b <;> rfl

theorem dirOfBit_of_bit {b : Bool} {d : Dir} (h : b.toNat = bitOfDir d) : dirOfBit b = d := by
  cases b <;> cases d <;> first | rfl | cases h

theorem bitOfDir_lt (d : Dir) : bitOfDir d < 2 := by cases d <;> decide

/-- Bits `[31:8]` of a registration fit their field. -/
theorem bitsFR_lt (k : Option (BitVec 16)) : bitsFR k < 2 ^ 24 := by
  cases k with
  | none => decide
  | some t =>
    have := t.isLt
    simp only [bitsFR]
    omega

/-- A field is zero exactly when its number is. -/
theorem field_zero_iff {n : Nat} (x : BitVec n) : x = 0 ↔ x.toNat = 0 := by
  simp [← BitVec.toNat_inj]

/-! ## The masks of the opcode table (30_encoding R93) -/

theorem and_maskF0 (w : Word) : w &&& 0xFFFFFFFF = w := by
  ext i hi
  simp only [BitVec.getElem_and]
  interval_cases i <;> simp

theorem and_maskO (w : Word) : w &&& 0x000000FF = (fieldO w).setWidth 32 := by
  ext i hi
  simp only [fieldO, BitVec.getElem_and, BitVec.getElem_setWidth]
  interval_cases i <;> simp [BitVec.getLsbD_eq_getElem]

theorem and_maskFC (w : Word) :
    w &&& 0xFE0000FF = (fieldO w).setWidth 32 ||| ((zeroFC w).setWidth 32 <<< 25) := by
  ext i hi
  simp only [fieldO, zeroFC, BitVec.getElem_and, BitVec.getElem_or, BitVec.getElem_shiftLeft,
    BitVec.getElem_setWidth]
  interval_cases i <;> simp [BitVec.getLsbD_eq_getElem]

theorem and_maskFR (w : Word) :
    w &&& 0x0000FEFF = (fieldO w).setWidth 32 ||| ((zeroFR w).setWidth 32 <<< 9) := by
  ext i hi
  simp only [fieldO, zeroFR, BitVec.getElem_and, BitVec.getElem_or, BitVec.getElem_shiftLeft,
    BitVec.getElem_setWidth]
  interval_cases i <;> simp [BitVec.getLsbD_eq_getElem]

theorem and_maskFD (w : Word) :
    w &&& 0xFFFFFEFF = (fieldO w).setWidth 32 ||| ((fieldA w).setWidth 32 <<< 9) := by
  ext i hi
  simp only [fieldO, fieldA, BitVec.getElem_and, BitVec.getElem_or, BitVec.getElem_shiftLeft,
    BitVec.getElem_setWidth]
  interval_cases i <;> simp [BitVec.getLsbD_eq_getElem]

/-! ## Bytes and words -/

theorem bytesOfWord_wordOfBytes (a b c d : Byte) : bytesOfWord (wordOfBytes a b c d) = [a, b, c, d] := by
  have ha := a.isLt
  have hb := b.isLt
  have hc := c.isLt
  have hd := d.isLt
  simp only [bytesOfWord, List.cons.injEq, and_true]
  refine ⟨?_, ?_, ?_, ?_⟩ <;> apply BitVec.eq_of_toNat_eq <;>
    simp [wordOfBytes, Nat.shiftRight_eq_div_pow] <;> omega

theorem wordOfBytes_bytesOfWord (w : Word) :
    wordOfBytes (w.extractLsb' 0 8) (w.extractLsb' 8 8) (w.extractLsb' 16 8) (w.extractLsb' 24 8) = w := by
  apply BitVec.eq_of_toNat_eq
  have hw := w.isLt
  simp [wordOfBytes, Nat.shiftRight_eq_div_pow]
  omega

@[simp] theorem bytesOfWords_length (ws : List Word) : (bytesOfWords ws).length = 4 * ws.length := by
  induction ws with
  | nil => rfl
  | cons w ws ih => simp [bytesOfWords, bytesOfWord, ih]; omega

/-- A stream laid out as bytes reads back as its words (30_encoding R80). -/
theorem wordsOfBytes_bytesOfWords (ws : List Word) : wordsOfBytes (bytesOfWords ws) = some ws := by
  induction ws with
  | nil => rfl
  | cons w ws ih =>
    simp only [bytesOfWords, bytesOfWord, List.cons_append, List.nil_append, wordsOfBytes, ih,
      Option.map_some, wordOfBytes_bytesOfWord]

theorem takeWords_eq (n : Nat) (ws : List Word) :
    takeWords n ws = if n ≤ ws.length then some (ws.take n, ws.drop n) else none := by
  induction n generalizing ws with
  | zero => simp [takeWords]
  | succ n ih =>
    cases ws with
    | nil => simp [takeWords]
    | cons w ws =>
      simp only [takeWords, ih, List.length_cons, Nat.add_le_add_iff_right, List.take_succ_cons,
        List.drop_succ_cons]
      split <;> rfl

/-! ## The payload of `WRB` (30_encoding R88) -/

theorem packPayload_length (bs : List Byte) : (packPayload bs).length = payloadWords bs.length := by
  fun_induction packPayload bs with
  | case1 => rfl
  | case2 => simp [payloadWords]
  | case3 => simp [payloadWords]
  | case4 => simp [payloadWords]
  | case5 a b c d rest ih => simp only [List.length_cons, ih, payloadWords]; omega

/-- The payload words hold the payload and then zero bytes. -/
theorem bytesOfWords_packPayload (bs : List Byte) :
    ∃ k, bytesOfWords (packPayload bs) = bs ++ List.replicate k 0 := by
  fun_induction packPayload bs with
  | case1 => exact ⟨0, rfl⟩
  | case2 a => exact ⟨3, by simp [bytesOfWords, bytesOfWord_wordOfBytes, List.replicate]⟩
  | case3 a b => exact ⟨2, by simp [bytesOfWords, bytesOfWord_wordOfBytes, List.replicate]⟩
  | case4 a b c => exact ⟨1, by simp [bytesOfWords, bytesOfWord_wordOfBytes, List.replicate]⟩
  | case5 a b c d rest ih =>
    obtain ⟨k, hk⟩ := ih
    exact ⟨k, by simp [bytesOfWords, bytesOfWord_wordOfBytes, hk]⟩

end Sys2Proof
end

