-- ==== Sys2Proof/Laws/State.lean ====
section
/-! SUPPORT. The small lemmas of the state's single writes (Machine/Ops.lean): one per field per write, and the
access by direction. -/

namespace Sys2Proof.Machine

section PerDirection

variable {α : Type} (x : Per α) (v : α)

@[simp] theorem Per.get_tx : x.get .tx = x.tx := rfl
@[simp] theorem Per.get_rx : x.get .rx = x.rx := rfl
@[simp] theorem Per.set_tx_tx : (x.set .tx v).tx = v := rfl
@[simp] theorem Per.set_tx_rx : (x.set .tx v).rx = x.rx := rfl
@[simp] theorem Per.set_rx_tx : (x.set .rx v).tx = x.tx := rfl
@[simp] theorem Per.set_rx_rx : (x.set .rx v).rx = v := rfl

@[simp] theorem Per.get_set_same (d : Dir) : (x.set d v).get d = v := by cases d <;> rfl

theorem Per.get_set_ne {d e : Dir} (h : e ≠ d) : (x.set d v).get e = x.get e := by
  cases d <;> cases e <;> first | rfl | exact absurd rfl h

theorem Per.get_set (d e : Dir) : (x.set d v).get e = if e = d then v else x.get e := by
  cases d <;> cases e <;> rfl

end PerDirection

section Calls

@[simp] theorem startReason_tx : startReason .tx = .startTx := rfl
@[simp] theorem startReason_rx : startReason .rx = .startRx := rfl
@[simp] theorem stopReason_tx : stopReason .tx = .stopTx := rfl
@[simp] theorem stopReason_rx : stopReason .rx = .stopRx := rfl
@[simp] theorem stopCall_tx : stopCall .tx = .stopStreaming := rfl
@[simp] theorem stopCall_rx : stopCall .rx = .stopListening := rfl

variable (p : Params) (wb : Nat)

@[simp] theorem startCall_tx : startCall p wb .tx = .startStreaming p.base p.ringSize wb 2 := rfl
@[simp] theorem startCall_rx : startCall p wb .rx = .startListening p.base p.ringSize wb 2 := rfl

end Calls

section SingleWrites

variable (s : State)

@[simp] theorem setCur_cur (d : Dir) (v : Nat) : (setCur d v s).cur = s.cur.set d v := rfl
@[simp] theorem setCur_armed (d : Dir) (v : Nat) : (setCur d v s).armed = s.armed := rfl
@[simp] theorem setCur_cfg (d : Dir) (v : Nat) : (setCur d v s).cfg = s.cfg := rfl
@[simp] theorem setCur_ref (d : Dir) (v : Nat) : (setCur d v s).ref = s.ref := rfl
@[simp] theorem setCur_cb (d : Dir) (v : Nat) : (setCur d v s).cb = s.cb := rfl
@[simp] theorem setCur_pend (d : Dir) (v : Nat) : (setCur d v s).pend = s.pend := rfl
@[simp] theorem setCur_fatal (d : Dir) (v : Nat) : (setCur d v s).fatal = s.fatal := rfl
@[simp] theorem setCur_refused (d : Dir) (v : Nat) : (setCur d v s).refused = s.refused := rfl
@[simp] theorem setCur_ring (d : Dir) (v : Nat) : (setCur d v s).ring = s.ring := rfl
@[simp] theorem setCur_notifyLog (d : Dir) (v : Nat) : (setCur d v s).notifyLog = s.notifyLog := rfl
@[simp] theorem setCur_drvLog (d : Dir) (v : Nat) : (setCur d v s).drvLog = s.drvLog := rfl
@[simp] theorem setCur_pc (d : Dir) (v : Nat) : (setCur d v s).pc = s.pc := rfl
@[simp] theorem setCur_stream (d : Dir) (v : Nat) : (setCur d v s).stream = s.stream := rfl
@[simp] theorem setCur_ctx (d : Dir) (v : Nat) : (setCur d v s).ctx = s.ctx := rfl
@[simp] theorem setCur_params (d : Dir) (v : Nat) : (setCur d v s).params = s.params := rfl
@[simp] theorem setCur_results (d : Dir) (v : Nat) : (setCur d v s).results = s.results := rfl
@[simp] theorem setCur_posAnswers (d : Dir) (v : Nat) : (setCur d v s).posAnswers = s.posAnswers := rfl
@[simp] theorem setCur_okAnswers (d : Dir) (v : Nat) : (setCur d v s).okAnswers = s.okAnswers := rfl
@[simp] theorem setCur_posDraws (d : Dir) (v : Nat) : (setCur d v s).posDraws = s.posDraws := rfl
@[simp] theorem setCur_okDraws (d : Dir) (v : Nat) : (setCur d v s).okDraws = s.okDraws := rfl
@[simp] theorem ringByte_setCur (d : Dir) (v : Nat) (a : Nat) : ringByte (setCur d v s) a = ringByte s a := rfl
@[simp] theorem nextPos_setCur (d : Dir) (v : Nat) : nextPos (setCur d v s) = nextPos s := rfl
@[simp] theorem nextOk_setCur (d : Dir) (v : Nat) : nextOk (setCur d v s) = nextOk s := rfl

@[simp] theorem setArmed_cur (d : Dir) (v : Bool) : (setArmed d v s).cur = s.cur := rfl
@[simp] theorem setArmed_armed (d : Dir) (v : Bool) : (setArmed d v s).armed = s.armed.set d v := rfl
@[simp] theorem setArmed_cfg (d : Dir) (v : Bool) : (setArmed d v s).cfg = s.cfg := rfl
@[simp] theorem setArmed_ref (d : Dir) (v : Bool) : (setArmed d v s).ref = s.ref := rfl
@[simp] theorem setArmed_cb (d : Dir) (v : Bool) : (setArmed d v s).cb = s.cb := rfl
@[simp] theorem setArmed_pend (d : Dir) (v : Bool) : (setArmed d v s).pend = s.pend := rfl
@[simp] theorem setArmed_fatal (d : Dir) (v : Bool) : (setArmed d v s).fatal = s.fatal := rfl
@[simp] theorem setArmed_refused (d : Dir) (v : Bool) : (setArmed d v s).refused = s.refused := rfl
@[simp] theorem setArmed_ring (d : Dir) (v : Bool) : (setArmed d v s).ring = s.ring := rfl
@[simp] theorem setArmed_notifyLog (d : Dir) (v : Bool) : (setArmed d v s).notifyLog = s.notifyLog := rfl
@[simp] theorem setArmed_drvLog (d : Dir) (v : Bool) : (setArmed d v s).drvLog = s.drvLog := rfl
@[simp] theorem setArmed_pc (d : Dir) (v : Bool) : (setArmed d v s).pc = s.pc := rfl
@[simp] theorem setArmed_stream (d : Dir) (v : Bool) : (setArmed d v s).stream = s.stream := rfl
@[simp] theorem setArmed_ctx (d : Dir) (v : Bool) : (setArmed d v s).ctx = s.ctx := rfl
@[simp] theorem setArmed_params (d : Dir) (v : Bool) : (setArmed d v s).params = s.params := rfl
@[simp] theorem setArmed_results (d : Dir) (v : Bool) : (setArmed d v s).results = s.results := rfl
@[simp] theorem setArmed_posAnswers (d : Dir) (v : Bool) : (setArmed d v s).posAnswers = s.posAnswers := rfl
@[simp] theorem setArmed_okAnswers (d : Dir) (v : Bool) : (setArmed d v s).okAnswers = s.okAnswers := rfl
@[simp] theorem setArmed_posDraws (d : Dir) (v : Bool) : (setArmed d v s).posDraws = s.posDraws := rfl
@[simp] theorem setArmed_okDraws (d : Dir) (v : Bool) : (setArmed d v s).okDraws = s.okDraws := rfl
@[simp] theorem ringByte_setArmed (d : Dir) (v : Bool) (a : Nat) : ringByte (setArmed d v s) a = ringByte s a := rfl
@[simp] theorem nextPos_setArmed (d : Dir) (v : Bool) : nextPos (setArmed d v s) = nextPos s := rfl
@[simp] theorem nextOk_setArmed (d : Dir) (v : Bool) : nextOk (setArmed d v s) = nextOk s := rfl

@[simp] theorem setPend_cur (d : Dir) (v : Bool) : (setPend d v s).cur = s.cur := rfl
@[simp] theorem setPend_armed (d : Dir) (v : Bool) : (setPend d v s).armed = s.armed := rfl
@[simp] theorem setPend_cfg (d : Dir) (v : Bool) : (setPend d v s).cfg = s.cfg := rfl
@[simp] theorem setPend_ref (d : Dir) (v : Bool) : (setPend d v s).ref = s.ref := rfl
@[simp] theorem setPend_cb (d : Dir) (v : Bool) : (setPend d v s).cb = s.cb := rfl
@[simp] theorem setPend_pend (d : Dir) (v : Bool) : (setPend d v s).pend = s.pend.set d v := rfl
@[simp] theorem setPend_fatal (d : Dir) (v : Bool) : (setPend d v s).fatal = s.fatal := rfl
@[simp] theorem setPend_refused (d : Dir) (v : Bool) : (setPend d v s).refused = s.refused := rfl
@[simp] theorem setPend_ring (d : Dir) (v : Bool) : (setPend d v s).ring = s.ring := rfl
@[simp] theorem setPend_notifyLog (d : Dir) (v : Bool) : (setPend d v s).notifyLog = s.notifyLog := rfl
@[simp] theorem setPend_drvLog (d : Dir) (v : Bool) : (setPend d v s).drvLog = s.drvLog := rfl
@[simp] theorem setPend_pc (d : Dir) (v : Bool) : (setPend d v s).pc = s.pc := rfl
@[simp] theorem setPend_stream (d : Dir) (v : Bool) : (setPend d v s).stream = s.stream := rfl
@[simp] theorem setPend_ctx (d : Dir) (v : Bool) : (setPend d v s).ctx = s.ctx := rfl
@[simp] theorem setPend_params (d : Dir) (v : Bool) : (setPend d v s).params = s.params := rfl
@[simp] theorem setPend_results (d : Dir) (v : Bool) : (setPend d v s).results = s.results := rfl
@[simp] theorem setPend_posAnswers (d : Dir) (v : Bool) : (setPend d v s).posAnswers = s.posAnswers := rfl
@[simp] theorem setPend_okAnswers (d : Dir) (v : Bool) : (setPend d v s).okAnswers = s.okAnswers := rfl
@[simp] theorem setPend_posDraws (d : Dir) (v : Bool) : (setPend d v s).posDraws = s.posDraws := rfl
@[simp] theorem setPend_okDraws (d : Dir) (v : Bool) : (setPend d v s).okDraws = s.okDraws := rfl
@[simp] theorem ringByte_setPend (d : Dir) (v : Bool) (a : Nat) : ringByte (setPend d v s) a = ringByte s a := rfl
@[simp] theorem nextPos_setPend (d : Dir) (v : Bool) : nextPos (setPend d v s) = nextPos s := rfl
@[simp] theorem nextOk_setPend (d : Dir) (v : Bool) : nextOk (setPend d v s) = nextOk s := rfl

@[simp] theorem setCb_cur (d : Dir) (v : Option (BitVec 16)) : (setCb d v s).cur = s.cur := rfl
@[simp] theorem setCb_armed (d : Dir) (v : Option (BitVec 16)) : (setCb d v s).armed = s.armed := rfl
@[simp] theorem setCb_cfg (d : Dir) (v : Option (BitVec 16)) : (setCb d v s).cfg = s.cfg := rfl
@[simp] theorem setCb_ref (d : Dir) (v : Option (BitVec 16)) : (setCb d v s).ref = s.ref := rfl
@[simp] theorem setCb_cb (d : Dir) (v : Option (BitVec 16)) : (setCb d v s).cb = s.cb.set d v := rfl
@[simp] theorem setCb_pend (d : Dir) (v : Option (BitVec 16)) : (setCb d v s).pend = s.pend := rfl
@[simp] theorem setCb_fatal (d : Dir) (v : Option (BitVec 16)) : (setCb d v s).fatal = s.fatal := rfl
@[simp] theorem setCb_refused (d : Dir) (v : Option (BitVec 16)) : (setCb d v s).refused = s.refused := rfl
@[simp] theorem setCb_ring (d : Dir) (v : Option (BitVec 16)) : (setCb d v s).ring = s.ring := rfl
@[simp] theorem setCb_notifyLog (d : Dir) (v : Option (BitVec 16)) : (setCb d v s).notifyLog = s.notifyLog := rfl
@[simp] theorem setCb_drvLog (d : Dir) (v : Option (BitVec 16)) : (setCb d v s).drvLog = s.drvLog := rfl
@[simp] theorem setCb_pc (d : Dir) (v : Option (BitVec 16)) : (setCb d v s).pc = s.pc := rfl
@[simp] theorem setCb_stream (d : Dir) (v : Option (BitVec 16)) : (setCb d v s).stream = s.stream := rfl
@[simp] theorem setCb_ctx (d : Dir) (v : Option (BitVec 16)) : (setCb d v s).ctx = s.ctx := rfl
@[simp] theorem setCb_params (d : Dir) (v : Option (BitVec 16)) : (setCb d v s).params = s.params := rfl
@[simp] theorem setCb_results (d : Dir) (v : Option (BitVec 16)) : (setCb d v s).results = s.results := rfl
@[simp] theorem setCb_posAnswers (d : Dir) (v : Option (BitVec 16)) : (setCb d v s).posAnswers = s.posAnswers := rfl
@[simp] theorem setCb_okAnswers (d : Dir) (v : Option (BitVec 16)) : (setCb d v s).okAnswers = s.okAnswers := rfl
@[simp] theorem setCb_posDraws (d : Dir) (v : Option (BitVec 16)) : (setCb d v s).posDraws = s.posDraws := rfl
@[simp] theorem setCb_okDraws (d : Dir) (v : Option (BitVec 16)) : (setCb d v s).okDraws = s.okDraws := rfl
@[simp] theorem ringByte_setCb (d : Dir) (v : Option (BitVec 16)) (a : Nat) : ringByte (setCb d v s) a = ringByte s a := rfl
@[simp] theorem nextPos_setCb (d : Dir) (v : Option (BitVec 16)) : nextPos (setCb d v s) = nextPos s := rfl
@[simp] theorem nextOk_setCb (d : Dir) (v : Option (BitVec 16)) : nextOk (setCb d v s) = nextOk s := rfl

@[simp] theorem setCfg_cur (v : Option SessionCfg) : (setCfg v s).cur = s.cur := rfl
@[simp] theorem setCfg_armed (v : Option SessionCfg) : (setCfg v s).armed = s.armed := rfl
@[simp] theorem setCfg_cfg (v : Option SessionCfg) : (setCfg v s).cfg = v := rfl
@[simp] theorem setCfg_ref (v : Option SessionCfg) : (setCfg v s).ref = s.ref := rfl
@[simp] theorem setCfg_cb (v : Option SessionCfg) : (setCfg v s).cb = s.cb := rfl
@[simp] theorem setCfg_pend (v : Option SessionCfg) : (setCfg v s).pend = s.pend := rfl
@[simp] theorem setCfg_fatal (v : Option SessionCfg) : (setCfg v s).fatal = s.fatal := rfl
@[simp] theorem setCfg_refused (v : Option SessionCfg) : (setCfg v s).refused = s.refused := rfl
@[simp] theorem setCfg_ring (v : Option SessionCfg) : (setCfg v s).ring = s.ring := rfl
@[simp] theorem setCfg_notifyLog (v : Option SessionCfg) : (setCfg v s).notifyLog = s.notifyLog := rfl
@[simp] theorem setCfg_drvLog (v : Option SessionCfg) : (setCfg v s).drvLog = s.drvLog := rfl
@[simp] theorem setCfg_pc (v : Option SessionCfg) : (setCfg v s).pc = s.pc := rfl
@[simp] theorem setCfg_stream (v : Option SessionCfg) : (setCfg v s).stream = s.stream := rfl
@[simp] theorem setCfg_ctx (v : Option SessionCfg) : (setCfg v s).ctx = s.ctx := rfl
@[simp] theorem setCfg_params (v : Option SessionCfg) : (setCfg v s).params = s.params := rfl
@[simp] theorem setCfg_results (v : Option SessionCfg) : (setCfg v s).results = s.results := rfl
@[simp] theorem setCfg_posAnswers (v : Option SessionCfg) : (setCfg v s).posAnswers = s.posAnswers := rfl
@[simp] theorem setCfg_okAnswers (v : Option SessionCfg) : (setCfg v s).okAnswers = s.okAnswers := rfl
@[simp] theorem setCfg_posDraws (v : Option SessionCfg) : (setCfg v s).posDraws = s.posDraws := rfl
@[simp] theorem setCfg_okDraws (v : Option SessionCfg) : (setCfg v s).okDraws = s.okDraws := rfl
@[simp] theorem ringByte_setCfg (v : Option SessionCfg) (a : Nat) : ringByte (setCfg v s) a = ringByte s a := rfl
@[simp] theorem nextPos_setCfg (v : Option SessionCfg) : nextPos (setCfg v s) = nextPos s := rfl
@[simp] theorem nextOk_setCfg (v : Option SessionCfg) : nextOk (setCfg v s) = nextOk s := rfl

@[simp] theorem setRef_cur (v : Nat) : (setRef v s).cur = s.cur := rfl
@[simp] theorem setRef_armed (v : Nat) : (setRef v s).armed = s.armed := rfl
@[simp] theorem setRef_cfg (v : Nat) : (setRef v s).cfg = s.cfg := rfl
@[simp] theorem setRef_ref (v : Nat) : (setRef v s).ref = v := rfl
@[simp] theorem setRef_cb (v : Nat) : (setRef v s).cb = s.cb := rfl
@[simp] theorem setRef_pend (v : Nat) : (setRef v s).pend = s.pend := rfl
@[simp] theorem setRef_fatal (v : Nat) : (setRef v s).fatal = s.fatal := rfl
@[simp] theorem setRef_refused (v : Nat) : (setRef v s).refused = s.refused := rfl
@[simp] theorem setRef_ring (v : Nat) : (setRef v s).ring = s.ring := rfl
@[simp] theorem setRef_notifyLog (v : Nat) : (setRef v s).notifyLog = s.notifyLog := rfl
@[simp] theorem setRef_drvLog (v : Nat) : (setRef v s).drvLog = s.drvLog := rfl
@[simp] theorem setRef_pc (v : Nat) : (setRef v s).pc = s.pc := rfl
@[simp] theorem setRef_stream (v : Nat) : (setRef v s).stream = s.stream := rfl
@[simp] theorem setRef_ctx (v : Nat) : (setRef v s).ctx = s.ctx := rfl
@[simp] theorem setRef_params (v : Nat) : (setRef v s).params = s.params := rfl
@[simp] theorem setRef_results (v : Nat) : (setRef v s).results = s.results := rfl
@[simp] theorem setRef_posAnswers (v : Nat) : (setRef v s).posAnswers = s.posAnswers := rfl
@[simp] theorem setRef_okAnswers (v : Nat) : (setRef v s).okAnswers = s.okAnswers := rfl
@[simp] theorem setRef_posDraws (v : Nat) : (setRef v s).posDraws = s.posDraws := rfl
@[simp] theorem setRef_okDraws (v : Nat) : (setRef v s).okDraws = s.okDraws := rfl
@[simp] theorem ringByte_setRef (v : Nat) (a : Nat) : ringByte (setRef v s) a = ringByte s a := rfl
@[simp] theorem nextPos_setRef (v : Nat) : nextPos (setRef v s) = nextPos s := rfl
@[simp] theorem nextOk_setRef (v : Nat) : nextOk (setRef v s) = nextOk s := rfl

@[simp] theorem logCall_cur (c : DrvCall) : (logCall c s).cur = s.cur := rfl
@[simp] theorem logCall_armed (c : DrvCall) : (logCall c s).armed = s.armed := rfl
@[simp] theorem logCall_cfg (c : DrvCall) : (logCall c s).cfg = s.cfg := rfl
@[simp] theorem logCall_ref (c : DrvCall) : (logCall c s).ref = s.ref := rfl
@[simp] theorem logCall_cb (c : DrvCall) : (logCall c s).cb = s.cb := rfl
@[simp] theorem logCall_pend (c : DrvCall) : (logCall c s).pend = s.pend := rfl
@[simp] theorem logCall_fatal (c : DrvCall) : (logCall c s).fatal = s.fatal := rfl
@[simp] theorem logCall_refused (c : DrvCall) : (logCall c s).refused = s.refused := rfl
@[simp] theorem logCall_ring (c : DrvCall) : (logCall c s).ring = s.ring := rfl
@[simp] theorem logCall_notifyLog (c : DrvCall) : (logCall c s).notifyLog = s.notifyLog := rfl
@[simp] theorem logCall_drvLog (c : DrvCall) : (logCall c s).drvLog = s.drvLog ++ [c] := rfl
@[simp] theorem logCall_pc (c : DrvCall) : (logCall c s).pc = s.pc := rfl
@[simp] theorem logCall_stream (c : DrvCall) : (logCall c s).stream = s.stream := rfl
@[simp] theorem logCall_ctx (c : DrvCall) : (logCall c s).ctx = s.ctx := rfl
@[simp] theorem logCall_params (c : DrvCall) : (logCall c s).params = s.params := rfl
@[simp] theorem logCall_results (c : DrvCall) : (logCall c s).results = s.results := rfl
@[simp] theorem logCall_posAnswers (c : DrvCall) : (logCall c s).posAnswers = s.posAnswers := rfl
@[simp] theorem logCall_okAnswers (c : DrvCall) : (logCall c s).okAnswers = s.okAnswers := rfl
@[simp] theorem logCall_posDraws (c : DrvCall) : (logCall c s).posDraws = s.posDraws := rfl
@[simp] theorem logCall_okDraws (c : DrvCall) : (logCall c s).okDraws = s.okDraws := rfl
@[simp] theorem ringByte_logCall (c : DrvCall) (a : Nat) : ringByte (logCall c s) a = ringByte s a := rfl
@[simp] theorem nextPos_logCall (c : DrvCall) : nextPos (logCall c s) = nextPos s := rfl
@[simp] theorem nextOk_logCall (c : DrvCall) : nextOk (logCall c s) = nextOk s := rfl

@[simp] theorem logNotify_cur (d : Dir) (t : BitVec 16) : (logNotify d t s).cur = s.cur := rfl
@[simp] theorem logNotify_armed (d : Dir) (t : BitVec 16) : (logNotify d t s).armed = s.armed := rfl
@[simp] theorem logNotify_cfg (d : Dir) (t : BitVec 16) : (logNotify d t s).cfg = s.cfg := rfl
@[simp] theorem logNotify_ref (d : Dir) (t : BitVec 16) : (logNotify d t s).ref = s.ref := rfl
@[simp] theorem logNotify_cb (d : Dir) (t : BitVec 16) : (logNotify d t s).cb = s.cb := rfl
@[simp] theorem logNotify_pend (d : Dir) (t : BitVec 16) : (logNotify d t s).pend = s.pend := rfl
@[simp] theorem logNotify_fatal (d : Dir) (t : BitVec 16) : (logNotify d t s).fatal = s.fatal := rfl
@[simp] theorem logNotify_refused (d : Dir) (t : BitVec 16) : (logNotify d t s).refused = s.refused := rfl
@[simp] theorem logNotify_ring (d : Dir) (t : BitVec 16) : (logNotify d t s).ring = s.ring := rfl
@[simp] theorem logNotify_notifyLog (d : Dir) (t : BitVec 16) : (logNotify d t s).notifyLog = s.notifyLog ++ [(d, t)] := rfl
@[simp] theorem logNotify_drvLog (d : Dir) (t : BitVec 16) : (logNotify d t s).drvLog = s.drvLog := rfl
@[simp] theorem logNotify_pc (d : Dir) (t : BitVec 16) : (logNotify d t s).pc = s.pc := rfl
@[simp] theorem logNotify_stream (d : Dir) (t : BitVec 16) : (logNotify d t s).stream = s.stream := rfl
@[simp] theorem logNotify_ctx (d : Dir) (t : BitVec 16) : (logNotify d t s).ctx = s.ctx := rfl
@[simp] theorem logNotify_params (d : Dir) (t : BitVec 16) : (logNotify d t s).params = s.params := rfl
@[simp] theorem logNotify_results (d : Dir) (t : BitVec 16) : (logNotify d t s).results = s.results := rfl
@[simp] theorem logNotify_posAnswers (d : Dir) (t : BitVec 16) : (logNotify d t s).posAnswers = s.posAnswers := rfl
@[simp] theorem logNotify_okAnswers (d : Dir) (t : BitVec 16) : (logNotify d t s).okAnswers = s.okAnswers := rfl
@[simp] theorem logNotify_posDraws (d : Dir) (t : BitVec 16) : (logNotify d t s).posDraws = s.posDraws := rfl
@[simp] theorem logNotify_okDraws (d : Dir) (t : BitVec 16) : (logNotify d t s).okDraws = s.okDraws := rfl
@[simp] theorem ringByte_logNotify (d : Dir) (t : BitVec 16) (a : Nat) : ringByte (logNotify d t s) a = ringByte s a := rfl
@[simp] theorem nextPos_logNotify (d : Dir) (t : BitVec 16) : nextPos (logNotify d t s) = nextPos s := rfl
@[simp] theorem nextOk_logNotify (d : Dir) (t : BitVec 16) : nextOk (logNotify d t s) = nextOk s := rfl

@[simp] theorem giveResult_cur (r : Result) : (giveResult r s).cur = s.cur := rfl
@[simp] theorem giveResult_armed (r : Result) : (giveResult r s).armed = s.armed := rfl
@[simp] theorem giveResult_cfg (r : Result) : (giveResult r s).cfg = s.cfg := rfl
@[simp] theorem giveResult_ref (r : Result) : (giveResult r s).ref = s.ref := rfl
@[simp] theorem giveResult_cb (r : Result) : (giveResult r s).cb = s.cb := rfl
@[simp] theorem giveResult_pend (r : Result) : (giveResult r s).pend = s.pend := rfl
@[simp] theorem giveResult_fatal (r : Result) : (giveResult r s).fatal = s.fatal := rfl
@[simp] theorem giveResult_refused (r : Result) : (giveResult r s).refused = s.refused := rfl
@[simp] theorem giveResult_ring (r : Result) : (giveResult r s).ring = s.ring := rfl
@[simp] theorem giveResult_notifyLog (r : Result) : (giveResult r s).notifyLog = s.notifyLog := rfl
@[simp] theorem giveResult_drvLog (r : Result) : (giveResult r s).drvLog = s.drvLog := rfl
@[simp] theorem giveResult_pc (r : Result) : (giveResult r s).pc = s.pc := rfl
@[simp] theorem giveResult_stream (r : Result) : (giveResult r s).stream = s.stream := rfl
@[simp] theorem giveResult_ctx (r : Result) : (giveResult r s).ctx = s.ctx := rfl
@[simp] theorem giveResult_params (r : Result) : (giveResult r s).params = s.params := rfl
@[simp] theorem giveResult_results (r : Result) : (giveResult r s).results = s.results ++ [r] := rfl
@[simp] theorem giveResult_posAnswers (r : Result) : (giveResult r s).posAnswers = s.posAnswers := rfl
@[simp] theorem giveResult_okAnswers (r : Result) : (giveResult r s).okAnswers = s.okAnswers := rfl
@[simp] theorem giveResult_posDraws (r : Result) : (giveResult r s).posDraws = s.posDraws := rfl
@[simp] theorem giveResult_okDraws (r : Result) : (giveResult r s).okDraws = s.okDraws := rfl
@[simp] theorem ringByte_giveResult (r : Result) (a : Nat) : ringByte (giveResult r s) a = ringByte s a := rfl
@[simp] theorem nextPos_giveResult (r : Result) : nextPos (giveResult r s) = nextPos s := rfl
@[simp] theorem nextOk_giveResult (r : Result) : nextOk (giveResult r s) = nextOk s := rfl

@[simp] theorem raiseFatal_cur (r : FatalReason) : (raiseFatal r s).cur = s.cur := rfl
@[simp] theorem raiseFatal_armed (r : FatalReason) : (raiseFatal r s).armed = s.armed := rfl
@[simp] theorem raiseFatal_cfg (r : FatalReason) : (raiseFatal r s).cfg = s.cfg := rfl
@[simp] theorem raiseFatal_ref (r : FatalReason) : (raiseFatal r s).ref = s.ref := rfl
@[simp] theorem raiseFatal_cb (r : FatalReason) : (raiseFatal r s).cb = s.cb := rfl
@[simp] theorem raiseFatal_pend (r : FatalReason) : (raiseFatal r s).pend = s.pend := rfl
@[simp] theorem raiseFatal_fatal (r : FatalReason) : (raiseFatal r s).fatal = some r := rfl
@[simp] theorem raiseFatal_refused (r : FatalReason) : (raiseFatal r s).refused = s.refused := rfl
@[simp] theorem raiseFatal_ring (r : FatalReason) : (raiseFatal r s).ring = s.ring := rfl
@[simp] theorem raiseFatal_notifyLog (r : FatalReason) : (raiseFatal r s).notifyLog = s.notifyLog := rfl
@[simp] theorem raiseFatal_drvLog (r : FatalReason) : (raiseFatal r s).drvLog = s.drvLog := rfl
@[simp] theorem raiseFatal_pc (r : FatalReason) : (raiseFatal r s).pc = s.pc := rfl
@[simp] theorem raiseFatal_stream (r : FatalReason) : (raiseFatal r s).stream = s.stream := rfl
@[simp] theorem raiseFatal_ctx (r : FatalReason) : (raiseFatal r s).ctx = s.ctx := rfl
@[simp] theorem raiseFatal_params (r : FatalReason) : (raiseFatal r s).params = s.params := rfl
@[simp] theorem raiseFatal_results (r : FatalReason) : (raiseFatal r s).results = s.results := rfl
@[simp] theorem raiseFatal_posAnswers (r : FatalReason) : (raiseFatal r s).posAnswers = s.posAnswers := rfl
@[simp] theorem raiseFatal_okAnswers (r : FatalReason) : (raiseFatal r s).okAnswers = s.okAnswers := rfl
@[simp] theorem raiseFatal_posDraws (r : FatalReason) : (raiseFatal r s).posDraws = s.posDraws := rfl
@[simp] theorem raiseFatal_okDraws (r : FatalReason) : (raiseFatal r s).okDraws = s.okDraws := rfl
@[simp] theorem ringByte_raiseFatal (r : FatalReason) (a : Nat) : ringByte (raiseFatal r s) a = ringByte s a := rfl
@[simp] theorem nextPos_raiseFatal (r : FatalReason) : nextPos (raiseFatal r s) = nextPos s := rfl
@[simp] theorem nextOk_raiseFatal (r : FatalReason) : nextOk (raiseFatal r s) = nextOk s := rfl

@[simp] theorem markRefused_cur (r : RefReason) : (markRefused r s).cur = s.cur := rfl
@[simp] theorem markRefused_armed (r : RefReason) : (markRefused r s).armed = s.armed := rfl
@[simp] theorem markRefused_cfg (r : RefReason) : (markRefused r s).cfg = s.cfg := rfl
@[simp] theorem markRefused_ref (r : RefReason) : (markRefused r s).ref = s.ref := rfl
@[simp] theorem markRefused_cb (r : RefReason) : (markRefused r s).cb = s.cb := rfl
@[simp] theorem markRefused_pend (r : RefReason) : (markRefused r s).pend = s.pend := rfl
@[simp] theorem markRefused_fatal (r : RefReason) : (markRefused r s).fatal = s.fatal := rfl
@[simp] theorem markRefused_refused (r : RefReason) : (markRefused r s).refused = s.refused.or (some r) := rfl
@[simp] theorem markRefused_ring (r : RefReason) : (markRefused r s).ring = s.ring := rfl
@[simp] theorem markRefused_notifyLog (r : RefReason) : (markRefused r s).notifyLog = s.notifyLog := rfl
@[simp] theorem markRefused_drvLog (r : RefReason) : (markRefused r s).drvLog = s.drvLog := rfl
@[simp] theorem markRefused_pc (r : RefReason) : (markRefused r s).pc = s.pc := rfl
@[simp] theorem markRefused_stream (r : RefReason) : (markRefused r s).stream = s.stream := rfl
@[simp] theorem markRefused_ctx (r : RefReason) : (markRefused r s).ctx = s.ctx := rfl
@[simp] theorem markRefused_params (r : RefReason) : (markRefused r s).params = s.params := rfl
@[simp] theorem markRefused_results (r : RefReason) : (markRefused r s).results = s.results := rfl
@[simp] theorem markRefused_posAnswers (r : RefReason) : (markRefused r s).posAnswers = s.posAnswers := rfl
@[simp] theorem markRefused_okAnswers (r : RefReason) : (markRefused r s).okAnswers = s.okAnswers := rfl
@[simp] theorem markRefused_posDraws (r : RefReason) : (markRefused r s).posDraws = s.posDraws := rfl
@[simp] theorem markRefused_okDraws (r : RefReason) : (markRefused r s).okDraws = s.okDraws := rfl
@[simp] theorem ringByte_markRefused (r : RefReason) (a : Nat) : ringByte (markRefused r s) a = ringByte s a := rfl
@[simp] theorem nextPos_markRefused (r : RefReason) : nextPos (markRefused r s) = nextPos s := rfl
@[simp] theorem nextOk_markRefused (r : RefReason) : nextOk (markRefused r s) = nextOk s := rfl

@[simp] theorem advancePc_cur (n : Nat) : (advancePc n s).cur = s.cur := rfl
@[simp] theorem advancePc_armed (n : Nat) : (advancePc n s).armed = s.armed := rfl
@[simp] theorem advancePc_cfg (n : Nat) : (advancePc n s).cfg = s.cfg := rfl
@[simp] theorem advancePc_ref (n : Nat) : (advancePc n s).ref = s.ref := rfl
@[simp] theorem advancePc_cb (n : Nat) : (advancePc n s).cb = s.cb := rfl
@[simp] theorem advancePc_pend (n : Nat) : (advancePc n s).pend = s.pend := rfl
@[simp] theorem advancePc_fatal (n : Nat) : (advancePc n s).fatal = s.fatal := rfl
@[simp] theorem advancePc_refused (n : Nat) : (advancePc n s).refused = s.refused := rfl
@[simp] theorem advancePc_ring (n : Nat) : (advancePc n s).ring = s.ring := rfl
@[simp] theorem advancePc_notifyLog (n : Nat) : (advancePc n s).notifyLog = s.notifyLog := rfl
@[simp] theorem advancePc_drvLog (n : Nat) : (advancePc n s).drvLog = s.drvLog := rfl
@[simp] theorem advancePc_pc (n : Nat) : (advancePc n s).pc = s.pc + n := rfl
@[simp] theorem advancePc_stream (n : Nat) : (advancePc n s).stream = s.stream := rfl
@[simp] theorem advancePc_ctx (n : Nat) : (advancePc n s).ctx = s.ctx := rfl
@[simp] theorem advancePc_params (n : Nat) : (advancePc n s).params = s.params := rfl
@[simp] theorem advancePc_results (n : Nat) : (advancePc n s).results = s.results := rfl
@[simp] theorem advancePc_posAnswers (n : Nat) : (advancePc n s).posAnswers = s.posAnswers := rfl
@[simp] theorem advancePc_okAnswers (n : Nat) : (advancePc n s).okAnswers = s.okAnswers := rfl
@[simp] theorem advancePc_posDraws (n : Nat) : (advancePc n s).posDraws = s.posDraws := rfl
@[simp] theorem advancePc_okDraws (n : Nat) : (advancePc n s).okDraws = s.okDraws := rfl
@[simp] theorem ringByte_advancePc (n : Nat) (a : Nat) : ringByte (advancePc n s) a = ringByte s a := rfl
@[simp] theorem nextPos_advancePc (n : Nat) : nextPos (advancePc n s) = nextPos s := rfl
@[simp] theorem nextOk_advancePc (n : Nat) : nextOk (advancePc n s) = nextOk s := rfl

@[simp] theorem takePos_cur : (takePos s).cur = s.cur := rfl
@[simp] theorem takePos_armed : (takePos s).armed = s.armed := rfl
@[simp] theorem takePos_cfg : (takePos s).cfg = s.cfg := rfl
@[simp] theorem takePos_ref : (takePos s).ref = s.ref := rfl
@[simp] theorem takePos_cb : (takePos s).cb = s.cb := rfl
@[simp] theorem takePos_pend : (takePos s).pend = s.pend := rfl
@[simp] theorem takePos_fatal : (takePos s).fatal = s.fatal := rfl
@[simp] theorem takePos_refused : (takePos s).refused = s.refused := rfl
@[simp] theorem takePos_ring : (takePos s).ring = s.ring := rfl
@[simp] theorem takePos_notifyLog : (takePos s).notifyLog = s.notifyLog := rfl
@[simp] theorem takePos_drvLog : (takePos s).drvLog = s.drvLog := rfl
@[simp] theorem takePos_pc : (takePos s).pc = s.pc := rfl
@[simp] theorem takePos_stream : (takePos s).stream = s.stream := rfl
@[simp] theorem takePos_ctx : (takePos s).ctx = s.ctx := rfl
@[simp] theorem takePos_params : (takePos s).params = s.params := rfl
@[simp] theorem takePos_results : (takePos s).results = s.results := rfl
@[simp] theorem takePos_posAnswers : (takePos s).posAnswers = s.posAnswers.tail := rfl
@[simp] theorem takePos_okAnswers : (takePos s).okAnswers = s.okAnswers := rfl
@[simp] theorem takePos_posDraws : (takePos s).posDraws = if s.posAnswers.isEmpty then s.posDraws + 1 else s.posDraws := rfl
@[simp] theorem takePos_okDraws : (takePos s).okDraws = s.okDraws := rfl
@[simp] theorem ringByte_takePos (a : Nat) : ringByte (takePos s) a = ringByte s a := rfl
@[simp] theorem nextOk_takePos : nextOk (takePos s) = nextOk s := rfl

@[simp] theorem takeOk_cur : (takeOk s).cur = s.cur := rfl
@[simp] theorem takeOk_armed : (takeOk s).armed = s.armed := rfl
@[simp] theorem takeOk_cfg : (takeOk s).cfg = s.cfg := rfl
@[simp] theorem takeOk_ref : (takeOk s).ref = s.ref := rfl
@[simp] theorem takeOk_cb : (takeOk s).cb = s.cb := rfl
@[simp] theorem takeOk_pend : (takeOk s).pend = s.pend := rfl
@[simp] theorem takeOk_fatal : (takeOk s).fatal = s.fatal := rfl
@[simp] theorem takeOk_refused : (takeOk s).refused = s.refused := rfl
@[simp] theorem takeOk_ring : (takeOk s).ring = s.ring := rfl
@[simp] theorem takeOk_notifyLog : (takeOk s).notifyLog = s.notifyLog := rfl
@[simp] theorem takeOk_drvLog : (takeOk s).drvLog = s.drvLog := rfl
@[simp] theorem takeOk_pc : (takeOk s).pc = s.pc := rfl
@[simp] theorem takeOk_stream : (takeOk s).stream = s.stream := rfl
@[simp] theorem takeOk_ctx : (takeOk s).ctx = s.ctx := rfl
@[simp] theorem takeOk_params : (takeOk s).params = s.params := rfl
@[simp] theorem takeOk_results : (takeOk s).results = s.results := rfl
@[simp] theorem takeOk_posAnswers : (takeOk s).posAnswers = s.posAnswers := rfl
@[simp] theorem takeOk_okAnswers : (takeOk s).okAnswers = s.okAnswers.tail := rfl
@[simp] theorem takeOk_posDraws : (takeOk s).posDraws = s.posDraws := rfl
@[simp] theorem takeOk_okDraws : (takeOk s).okDraws = if s.okAnswers.isEmpty then s.okDraws + 1 else s.okDraws := rfl
@[simp] theorem ringByte_takeOk (a : Nat) : ringByte (takeOk s) a = ringByte s a := rfl
@[simp] theorem nextPos_takeOk : nextPos (takeOk s) = nextPos s := rfl

end SingleWrites

/-- The bytes of the ring depend on the field `ring` alone. -/
theorem ringByte_congr {s t : State} (h : t.ring = s.ring) (a : Nat) : ringByte t a = ringByte s a := by
  simp only [ringByte, h]

end Sys2Proof.Machine
end

