-- ==== Sys2Proof/Laws/Memory.lean ====
section
/-! SUPPORT. Ring memory: a read after a write, every write keeps the canonical form and the bound on the
offsets, and what the block forms of the two read and write (20_memory R53). -/

namespace Sys2Proof.Machine

/-! ## One byte -/

@[simp] theorem Memory.lookup_write_same (m : Memory) (a : Nat) (v : Byte) :
    (m.write a v).lookup a = some v := by
  induction m with
  | nil => simp [Memory.write, Memory.lookup]
  | cons c m ih =>
    obtain ⟨k, b⟩ := c
    simp only [Memory.write]
    split
    · simp [Memory.lookup]
    · split
      · simp [Memory.lookup]
      · simp [Memory.lookup, *]

theorem Memory.lookup_write_ne (m : Memory) {a b : Nat} (v : Byte) (h : b ≠ a) :
    (m.write a v).lookup b = m.lookup b := by
  induction m with
  | nil => simp [Memory.write, Memory.lookup, h]
  | cons c m ih =>
    obtain ⟨k, w⟩ := c
    simp only [Memory.write]
    split
    · simp [Memory.lookup, h]
    · split
      · rename_i hk
        subst hk
        simp [Memory.lookup, h]
      · simp only [Memory.lookup, ih]

/-! ## The canonical form -/

theorem Memory.risesFrom_write {lo a : Nat} (m : Memory) (v : Byte) (h : m.risesFrom lo = true)
    (ha : lo ≤ a) : (m.write a v).risesFrom lo = true := by
  induction m generalizing lo with
  | nil => simp [Memory.write, Memory.risesFrom, ha]
  | cons c m ih =>
    obtain ⟨k, w⟩ := c
    simp only [Memory.risesFrom, Bool.and_eq_true, decide_eq_true_eq] at h
    simp only [Memory.write]
    split
    · simp only [Memory.risesFrom, Bool.and_eq_true, decide_eq_true_eq]
      exact ⟨ha, by omega, h.2⟩
    · split
      · rename_i hk
        subst hk
        simpa only [Memory.risesFrom, Bool.and_eq_true, decide_eq_true_eq] using h
      · simp only [Memory.risesFrom, Bool.and_eq_true, decide_eq_true_eq]
        exact ⟨h.1, ih h.2 (by omega)⟩

theorem Memory.wf_write (m : Memory) (a : Nat) (v : Byte) (h : m.wf = true) : (m.write a v).wf = true :=
  Memory.risesFrom_write m v h (Nat.zero_le a)

theorem Memory.wf_writeBytes (bs : List Byte) (m : Memory) (o : Nat) (h : m.wf = true) :
    (writeBytes m o bs).wf = true := by
  induction bs generalizing m o with
  | nil => exact h
  | cons b bs ih => exact ih _ _ (m.wf_write o b h)

/-- Construction lists nothing, so its memory is canonical. -/
theorem reset_ring_wf : State.reset.ring.wf = true := rfl

/-! ## The offsets a write lists -/

theorem Memory.mem_write {m : Memory} {a : Nat} {v : Byte} {c : Host.Cell} (h : c ∈ m.write a v) :
    c = (a, v) ∨ c ∈ m := by
  induction m with
  | nil => simpa [Memory.write] using h
  | cons d m ih =>
    obtain ⟨k, w⟩ := d
    simp only [Memory.write] at h
    split at h
    · simpa using h
    · split at h
      · simp only [List.mem_cons] at h ⊢
        tauto
      · simp only [List.mem_cons] at h ⊢
        rcases h with h | h
        · exact .inr (.inl h)
        · rcases ih h with h | h
          · exact .inl h
          · exact .inr (.inr h)

/-- Writing inside a bound keeps every listed offset inside it. -/
theorem writeBytes_below {n : Nat} (bs : List Byte) (m : Memory) (o : Nat) (h : ∀ c ∈ m, c.1 < n)
    (ho : o + bs.length ≤ n) : ∀ c ∈ writeBytes m o bs, c.1 < n := by
  induction bs generalizing m o with
  | nil => exact h
  | cons b bs ih =>
    simp only [List.length_cons] at ho
    refine ih _ _ ?_ (by omega)
    intro c hc
    rcases Memory.mem_write hc with rfl | hc
    · simp only
      omega
    · exact h c hc

/-! ## Blocks -/

/-- A block write changes exactly the offsets `o .. o + length - 1`. -/
theorem lookup_writeBytes (bs : List Byte) (m : Memory) (o a : Nat) :
    (writeBytes m o bs).lookup a =
      if o ≤ a ∧ a < o + bs.length then bs[a - o]? else m.lookup a := by
  induction bs generalizing m o with
  | nil => simp [writeBytes, show ¬(o ≤ a ∧ a < o) by omega]
  | cons b bs ih =>
    simp only [writeBytes, ih, List.length_cons]
    by_cases h1 : o + 1 ≤ a ∧ a < o + 1 + bs.length
    · rw [if_pos h1, if_pos (by omega), show a - o = a - (o + 1) + 1 by omega,
        List.getElem?_cons_succ]
    · rw [if_neg h1]
      by_cases h2 : a = o
      · subst h2
        simp
      · rw [Memory.lookup_write_ne _ _ h2, if_neg (by omega)]

/-- The bytes a block read returns, one by one. -/
theorem readBytes_eq (s : State) (o n : Nat) :
    readBytes s o n = (List.range n).map fun i => ringByte s (o + i) := by
  induction n generalizing o with
  | zero => rfl
  | succ n ih =>
    rw [readBytes, ih, List.range_succ_eq_map, List.map_cons, List.map_map]
    simp [Function.comp_def, Nat.add_assoc, Nat.add_comm 1]

@[simp] theorem readBytes_length (s : State) (o n : Nat) : (readBytes s o n).length = n := by
  simp [readBytes_eq]

/-- The ring after a block write. -/
theorem ringByte_writeBytes (s : State) (o a : Nat) (bs : List Byte) :
    ringByte { s with ring := writeBytes s.ring o bs } a =
      if o ≤ a ∧ a < o + bs.length then (bs[a - o]?).getD (ringByte s a) else ringByte s a := by
  simp only [ringByte, lookup_writeBytes]
  by_cases h : o ≤ a ∧ a < o + bs.length
  · have hlt : a - o < bs.length := by omega
    simp [h, hlt]
  · simp [h]

end Sys2Proof.Machine
end

