-- ==== Sys2Proof/Laws/Ops.lean ====
section
/-! SUPPORT. What each shared operation of Machine/Ops.lean can do, said once: later proofs cite these and do
not unfold the operations. -/

namespace Sys2Proof.Machine

/-! ## The cursor a command starts from -/

/-- A command starts inside the ring: at the cursor, or at the start of segment 1 where it arms. -/
theorem startCursor_lt {d : Dir} {s : State} (h : s.cur.get d < s.params.ringSize)
    (hs : s.params.segSize < s.params.ringSize) : startCursor d s < s.params.ringSize := by
  unfold startCursor
  split <;> assumption

/-! ## Sequences -/

section Sequences

variable {α β γ : Type} (f : α → State → Ret β)

@[simp] theorem Ret.bind_ok (a : α) (s : State) : (Ret.ok a s).bind f = f a s := rfl
@[simp] theorem Ret.bind_fatal (r : FatalReason) (s : State) : (Ret.fatal r s).bind f = .fatal r s := rfl
@[simp] theorem Ret.bind_refuse (r : RefReason) : (Ret.refuse r).bind f = .refuse r := rfl
@[simp] theorem Ret.bind_fault (e : Fault) : (Ret.fault e).bind f = .fault e := rfl

theorem Ret.bind_assoc (x : Ret α) (g : β → State → Ret γ) :
    (x.bind f).bind g = x.bind fun a s => (f a s).bind g := by
  cases x <;> rfl

/-- A sequence ends with a value only through its first part. -/
theorem Ret.bind_eq_ok {x : Ret α} {f : α → State → Ret β} {b : β} {t : State}
    (h : x.bind f = .ok b t) : ∃ a u, x = .ok a u ∧ f a u = .ok b t := by
  cases x <;> first | exact ⟨_, _, rfl, h⟩ | cases h

/-- A sequence raises in its first part or after it. -/
theorem Ret.bind_eq_fatal {x : Ret α} {f : α → State → Ret β} {r : FatalReason} {t : State}
    (h : x.bind f = .fatal r t) :
    x = .fatal r t ∨ ∃ a u, x = .ok a u ∧ f a u = .fatal r t := by
  cases x with
  | ok a u => exact .inr ⟨a, u, rfl, h⟩
  | fatal q u =>
    injection h with h1 h2
    exact .inl (by rw [h1, h2])
  | refuse q => cases h
  | fault e => cases h

end Sequences

/-! ## Draws and the driver -/

/-- A position query either finds an offset of the ring or raises `FATAL_HWPOS` (42_completion R170). -/
theorem queryPos_eq (s : State) :
    queryPos s =
      if s.params.base ≤ (nextPos s).toNat ∧ (nextPos s).toNat < s.params.base + s.params.ringSize then
        .ok ((nextPos s).toNat - s.params.base) (takePos s)
      else .fatal .hwPos (takePos s) := by
  unfold queryPos offsetOf
  split <;> split at * <;> simp_all

theorem queryPos_inside {s : State} {h : Nat} (hp : NextPosAt h s) : queryPos s = .ok h (takePos s) := by
  rw [queryPos_eq, if_pos (by omega), hp.2, Nat.add_sub_cancel_left]

theorem queryPos_outside {s : State} (hp : NextPosOutside s) : queryPos s = .fatal .hwPos (takePos s) := by
  rw [queryPos_eq, if_neg (by omega)]

/-- A position that a query finds lies in the ring. -/
theorem queryPos_ok {s t : State} {h : Nat} (hq : queryPos s = .ok h t) :
    NextPosAt h s ∧ t = takePos s := by
  rw [queryPos_eq] at hq
  split at hq
  · injection hq with h1 h2
    exact ⟨⟨by omega, by omega⟩, h2.symm⟩
  · cases hq

theorem queryPos_fatal {s t : State} {r : FatalReason} (hq : queryPos s = .fatal r t) :
    NextPosOutside s ∧ r = .hwPos ∧ t = takePos s := by
  rw [queryPos_eq] at hq
  split at hq
  · cases hq
  · injection hq with h1 h2
    exact ⟨by omega, h1.symm, h2.symm⟩

/-- A driver call is logged, its answer used up, and it raises exactly where the answer is failure
(60_exceptions R250, R255). -/
theorem callDriver_eq (c : DrvCall) (r : FatalReason) (s : State) :
    callDriver c r s =
      if nextOk s = true then .ok () (takeOk (logCall c s)) else .fatal r (takeOk (logCall c s)) := by
  unfold callDriver
  cases nextOk s <;> rfl

/-! ## Arming, disarming, bring-up, prelude -/

/-- Everything arming can do while a configuration is present (41_lifecycle R146, R147, R150). -/
theorem arm_eq {d : Dir} {s : State} {c : SessionCfg} (hc : s.cfg = some c) :
    arm d s =
      if s.armed.get d = true then .ok () s
      else if nextOk s = true then
        .ok () (setCur d s.params.segSize (setArmed d true (takeOk (logCall (startCall s.params c.wb d) s))))
      else .fatal (startReason d) (takeOk (logCall (startCall s.params c.wb d) s)) := by
  unfold arm
  split
  · rfl
  · simp only [sampleWidth, hc, Ret.bind_ok, callDriver_eq]
    split
    · simp only [Ret.bind_ok, segStart, Nat.one_mul, takeOk_params, logCall_params]
    · rfl

/-- With no configuration, arming does nothing where `d` is armed and stops the model elsewhere. -/
theorem arm_eq_none {d : Dir} {s : State} (hc : s.cfg = none) :
    arm d s = if s.armed.get d = true then .ok () s else .fault .cfgAbsent := by
  unfold arm
  split
  · rfl
  · simp only [sampleWidth, hc, Ret.bind_fault]

/-- Everything disarming can do (41_lifecycle R148, R149). -/
theorem disarm_eq (d : Dir) (s : State) :
    disarm d s =
      if s.armed.get d = true then
        if nextOk s = true then
          let t := setCur d 0 (setArmed d false (takeOk (logCall (stopCall d) s)))
          .ok () (if s.params.lateCompletion = true then t else setPend d false t)
        else .fatal (stopReason d) (takeOk (logCall (stopCall d) s))
      else .ok () s := by
  unfold disarm
  split
  · simp only [callDriver_eq]
    split <;> rfl
  · rfl

/-- Everything bring-up can do (41_lifecycle R143). -/
theorem bringUp_eq (c : SessionCfg) (s : State) :
    bringUp c s =
      let t := takeOk (logCall (.configure s.params.channel c) (logCall .init (logCall .initPinMux s)))
      if nextOk s = true then .ok () t else .fatal .bringUp t := by
  simp only [bringUp, callDriver_eq, nextOk_logCall]
  rfl

/-- The prelude passes to `afterArm` when the command is ready (43_streaming R190). -/
theorem prelude_ready {d : Dir} {s : State} {c : SessionCfg} (h : DataReady d c s) :
    prelude d s = .ok () (afterArm d c s) := by
  obtain ⟨-, hr, hc, ha⟩ := h
  rw [prelude, if_neg hr, arm_eq hc, afterArm]
  rcases ha with ha | ha
  · simp [ha]
  · split <;> simp [*]

theorem prelude_unconfigured {d : Dir} {s : State} (h : s.ref = 0) :
    prelude d s = .refuse .notConfigured := if_pos h

/-! ## The ring -/

theorem memRead_inside {o n : Nat} {s : State} (h : o + n ≤ s.params.ringSize) :
    memRead o n s = .ok (readBytes s o n) s := if_pos h

theorem memWrite_inside {o : Nat} {bs : List Byte} {s : State} (h : o + bs.length ≤ s.params.ringSize) :
    memWrite o bs s = .ok () { s with ring := writeBytes s.ring o bs } := if_pos h

/-- A write of the ring changes the field `ring` alone, keeps its canonical form and lists no offset outside
the ring; or it stops. -/
theorem memWrite_cases (o : Nat) (bs : List Byte) (s : State) :
    memWrite o bs s = .fault .ringBounds ∨
      ∃ m, memWrite o bs s = .ok () { s with ring := m } ∧
        (s.ring.wf = true → m.wf = true) ∧
        ((∀ c ∈ s.ring, c.1 < s.params.ringSize) → ∀ c ∈ m, c.1 < s.params.ringSize) := by
  unfold memWrite
  split
  · exact .inr ⟨_, rfl, Memory.wf_writeBytes bs _ o, fun h => writeBytes_below bs _ o h ‹_›⟩
  · exact .inl rfl

/-- The two parts of a split copy lie in the ring (40_ring R117). -/
theorem splitFirst_bounds {p : Params} {o n : Nat} (ho : o < p.ringSize) (hn : n ≤ p.ringSize) :
    o + splitFirst p o n ≤ p.ringSize ∧ splitFirst p o n ≤ n ∧ n - splitFirst p o n ≤ o := by
  unfold splitFirst
  omega

theorem ringRead_inside {o n : Nat} {s : State} (ho : o < s.params.ringSize) (hn : n ≤ s.params.ringSize) :
    ringRead o n s =
      .ok (readBytes s o (splitFirst s.params o n) ++ readBytes s 0 (n - splitFirst s.params o n)) s := by
  have h := splitFirst_bounds ho hn
  simp only [ringRead]
  rw [memRead_inside h.1, Ret.bind_ok, memRead_inside (by omega), Ret.bind_ok]

/-- A read of the ring changes nothing; or it stops. -/
theorem ringRead_cases (o n : Nat) (s : State) :
    ringRead o n s = .fault .ringBounds ∨ ∃ bs, ringRead o n s = .ok bs s := by
  simp only [ringRead, memRead]
  split
  · simp only [Ret.bind_ok]
    split
    · exact .inr ⟨_, rfl⟩
    · exact .inl rfl
  · exact .inl rfl

theorem ringWrite_inside {o : Nat} {bs : List Byte} {s : State} (ho : o < s.params.ringSize)
    (hn : bs.length ≤ s.params.ringSize) :
    ringWrite o bs s =
      .ok () { s with
        ring := writeBytes (writeBytes s.ring o (bs.take (splitFirst s.params o bs.length))) 0
          (bs.drop (splitFirst s.params o bs.length)) } := by
  have h := splitFirst_bounds ho hn
  simp only [ringWrite]
  rw [memWrite_inside (by simp only [List.length_take]; omega), Ret.bind_ok,
    memWrite_inside (by simp only [List.length_drop]; omega)]

/-- A split write changes the field `ring` alone, keeps its canonical form and its bound; or it stops. -/
theorem ringWrite_cases (o : Nat) (bs : List Byte) (s : State) :
    ringWrite o bs s = .fault .ringBounds ∨
      ∃ m, ringWrite o bs s = .ok () { s with ring := m } ∧
        (s.ring.wf = true → m.wf = true) ∧
        ((∀ c ∈ s.ring, c.1 < s.params.ringSize) → ∀ c ∈ m, c.1 < s.params.ringSize) := by
  simp only [ringWrite]
  rcases memWrite_cases o (bs.take (splitFirst s.params o bs.length)) s with h | ⟨m, h, hw, hb⟩
  · exact .inl (by rw [h, Ret.bind_fault])
  · rw [h, Ret.bind_ok]
    rcases memWrite_cases 0 (bs.drop (splitFirst s.params o bs.length)) { s with ring := m } with
      h' | ⟨m', h', hw', hb'⟩
    · exact .inl h'
    · exact .inr ⟨m', h', fun x => hw' (hw x), fun x => hb' (hb x)⟩

/-! ## Commands and events -/

/-- A command that can be issued is its body, ended. -/
theorem command_issuable {body : State → Ret Result} {s : State} (h : Issuable s) :
    command body s = endCommand s (body s) := by
  rw [command, if_neg (by rw [h.1]; decide), if_neg (by simp [h.2])]

/-- Every way a command answers a next state (60_exceptions R233, R235, R236, R238). -/
theorem command_next {body : State → Ret Result} {s t : State} (h : command body s = .next t) :
    (s.ctx = .interrupt ∧ t = markRefused .callbackCommand s) ∨
    (s.ctx = .foreground ∧ s.fatal.isSome ∧ t = markRefused .afterFatal s) ∨
    (Issuable s ∧
      ((∃ r u, body s = .ok r u ∧ t = giveResult r u) ∨
       (∃ r u, body s = .fatal r u ∧ t = giveResult (.fatal r) (raiseFatal r u)) ∨
       (∃ r, body s = .refuse r ∧ t = markRefused r s))) := by
  unfold command at h
  split at h
  · injection h with h
    exact .inl ⟨‹_›, h.symm⟩
  · have hc : s.ctx = .foreground := by
      cases hx : s.ctx
      · rfl
      · exact absurd hx ‹_›
    split at h
    · injection h with h
      exact .inr (.inl ⟨hc, ‹_›, h.symm⟩)
    · have hf : s.fatal = none := by simpa using ‹¬s.fatal.isSome = true›
      refine .inr (.inr ⟨⟨hc, hf⟩, ?_⟩)
      cases hb : body s <;> rw [hb] at h <;> simp only [endCommand, refuseStep] at h
      · injection h with h
        exact .inl ⟨_, _, rfl, h.symm⟩
      · injection h with h
        exact .inr (.inl ⟨_, _, rfl, h.symm⟩)
      · injection h with h
        exact .inr (.inr ⟨_, rfl, h.symm⟩)
      · cases h

/-- Every way an event answers a next state (60_exceptions R237, R244). -/
theorem event_next {e : Bool} {body : State → Ret Unit} {s t : State} (h : event e body s = .next t) :
    (e = false ∧ t = markRefused .event s) ∨
    (e = true ∧
      (body s = .ok () t ∨ (∃ r u, body s = .fatal r u ∧ t = raiseFatal r u) ∨
       (∃ r, body s = .refuse r ∧ t = markRefused r s))) := by
  unfold event at h
  cases e
  · simp only [Bool.false_eq_true, if_false, refuseStep] at h
    injection h with h
    exact .inl ⟨rfl, h.symm⟩
  · simp only [if_true] at h
    refine .inr ⟨rfl, ?_⟩
    cases hb : body s <;> rw [hb] at h <;> simp only [endEvent, refuseStep] at h
    · injection h with h
      exact .inl (by rw [h])
    · injection h with h
      exact .inr (.inl ⟨_, _, rfl, h.symm⟩)
    · injection h with h
      exact .inr (.inr ⟨_, rfl, h.symm⟩)
    · cases h

/-! ## The handler -/

/-- Reconciliation leaves everything but `cur[d]`, and leaves it or puts it at the other segment's start
(42_completion R173, R174). -/
theorem reconcile_cases (d : Dir) (h : Nat) (s : State) :
    (indexOf s.params (s.cur.get d) ≠ indexOf s.params h ∧ reconcile d h s = s) ∨
      (indexOf s.params (s.cur.get d) = indexOf s.params h ∧
        reconcile d h s = setCur d (segStart s.params (nextSegment (indexOf s.params h))) s) := by
  unfold reconcile
  simp only
  split
  · exact .inr ⟨‹_›, rfl⟩
  · exact .inl ⟨‹_›, rfl⟩

/-- Notification appends at most one entry and leaves everything else (42_completion R175). -/
theorem notify_cases (d : Dir) (s : State) :
    (s.cb.get d = none ∧ notify d s = s) ∨ ∃ t, s.cb.get d = some t ∧ notify d s = logNotify d t s := by
  unfold notify
  cases h : s.cb.get d
  · exact .inl ⟨rfl, rfl⟩
  · exact .inr ⟨_, rfl, rfl⟩

end Sys2Proof.Machine
end

