-- ==== Sys2Proof/Laws/Effect.lean ====
section
/-! SUPPORT. What any command or event can do, said once: `exec_effect` turns `exec i s = .next t` into one of
the cases of `Effect`. Invariants and frames are proved by cases on it, not by unfolding `exec`. -/

namespace Sys2Proof.Machine

/-! ## States the cases speak of -/

/-- The state after the three calls of bring-up (41_lifecycle R143). -/
@[simp] def afterBringUp (c : SessionCfg) (s : State) : State :=
  takeOk (logCall (.configure s.params.channel c) (logCall .init (logCall .initPinMux s)))

/-- The state after a driver call has been logged and answered. -/
@[simp] def afterCall (c : DrvCall) (s : State) : State := takeOk (logCall c s)

/-- The state after the body of a disable that does not raise (41_lifecycle R148, R149). -/
def afterDisarm (d : Dir) (s : State) : State :=
  if s.armed.get d then
    let t := setCur d 0 (setArmed d false (afterCall (stopCall d) s))
    if s.params.lateCompletion then t else setPend d false t
  else s

/-- The direction an instruction arms, itself or lazily (41_lifecycle R150). -/
def Instr.arms : Instr → Option Dir
  | .entx => some .tx
  | .avw => some .tx
  | .wrb _ => some .tx
  | .wrs _ => some .tx
  | .enrx => some .rx
  | .avr => some .rx
  | .rdb _ => some .rx
  | .rds => some .rx
  | .pks => some .rx
  | .cfg _ _ _ _ => none
  | .endSession => none
  | .fls => none
  | .ontx _ => none
  | .onrx _ => none
  | .distx => none
  | .disrx => none
  | .adv _ _ => none
  | .idx _ => none
  | .done _ => none
  | .irq _ => none
  | .rxw _ _ => none

/-- The instruction queries a position after arming. -/
abbrev Instr.queries (i : Instr) : Prop := (Instr.arms i).isSome ∧ i ≠ .entx ∧ i ≠ .enrx

theorem Instr.arms_tx {i : Instr} (h : Instr.arms i = some .tx) :
    i = .entx ∨ i = .avw ∨ (∃ p, i = .wrb p) ∨ ∃ v, i = .wrs v := by
  cases i <;> simp [Instr.arms] at h ⊢

theorem Instr.arms_rx {i : Instr} (h : Instr.arms i = some .rx) :
    i = .enrx ∨ i = .avr ∨ (∃ n, i = .rdb n) ∨ i = .rds ∨ i = .pks := by
  cases i <;> simp [Instr.arms] at h ⊢

/-- What arms a direction is a command, not an event. -/
theorem Instr.arms_command {i : Instr} {d : Dir} (h : Instr.arms i = some d) : IsCommand i := by
  cases i <;> first | exact (fun hc => CmdClass.noConfusion hc) | simp [Instr.arms] at h

/-- `d` is armed, or it can be armed with configuration `c`. -/
abbrev CanArm (d : Dir) (c : SessionCfg) (s : State) : Prop :=
  s.armed.get d = true ∨ (s.armed.get d = false ∧ nextOk s = true ∧ s.cfg = some c)

/-- A write of the ring keeps its canonical form and its bound. -/
abbrev KeepsRing (s : State) (m : Memory) : Prop :=
  (s.ring.wf = true → m.wf = true) ∧
    ((∀ c ∈ s.ring, c.1 < s.params.ringSize) → ∀ c ∈ m, c.1 < s.params.ringSize)

/-- Everything an instruction can do when it answers a next state. -/
inductive Effect (s : State) : Instr → State → Prop where
  | refused {i : Instr} (r : RefReason) : Effect s i (markRefused r s)
  | cfgFail {j r b m} : Issuable s → Effect s (.cfg j r b m) (giveResult .cfgFail s)
  | cfgFirst {j r b m} : Issuable s → s.armed = ⟨false, false⟩ → validMode j = true →
      validBits b = true → s.ref = 0 → s.params.refMax ≠ 0 →
      Effect s (.cfg j r b m)
        (giveResult .success (setCfg (some ⟨j, r, b, m⟩) (setRef 1 (afterBringUp ⟨j, r, b, m⟩ s))))
  | cfgAgain {j r b m} : Issuable s → s.armed = ⟨false, false⟩ → validMode j = true →
      validBits b = true → s.ref ≠ 0 → s.ref ≠ s.params.refMax →
      Effect s (.cfg j r b m) (giveResult .success (setCfg (some ⟨j, r, b, m⟩) (setRef (s.ref + 1) s)))
  | cfgFatal {j r b m} : Issuable s → s.ref = 0 →
      Effect s (.cfg j r b m)
        (giveResult (.fatal .bringUp) (raiseFatal .bringUp (afterBringUp ⟨j, r, b, m⟩ s)))
  | endOne : Issuable s → 2 ≤ s.ref → Effect s .endSession (giveResult .success (setRef (s.ref - 1) s))
  | endLast : Issuable s → s.ref = 1 →
      Effect s .endSession
        (giveResult .success (setCfg none (afterCall (.deconfigure s.params.channel)
          (afterDisarm .rx (afterDisarm .tx (setRef 0 s))))))
  | endStopTx : Issuable s → s.ref = 1 → s.armed.tx = true →
      Effect s .endSession
        (giveResult (.fatal .stopTx) (raiseFatal .stopTx (afterCall .stopStreaming (setRef 0 s))))
  | endStopRx : Issuable s → s.ref = 1 → s.armed.rx = true →
      Effect s .endSession
        (giveResult (.fatal .stopRx) (raiseFatal .stopRx
          (afterCall .stopListening (afterDisarm .tx (setRef 0 s)))))
  | endRelease : Issuable s → s.ref = 1 →
      Effect s .endSession
        (giveResult (.fatal .release) (raiseFatal .release (afterCall (.deconfigure s.params.channel)
          (afterDisarm .rx (afterDisarm .tx (setRef 0 s))))))
  | startFails {i : Instr} {d : Dir} {c : SessionCfg} : Issuable s → Instr.arms i = some d → s.ref ≠ 0 →
      s.cfg = some c → s.armed.get d = false →
      Effect s i
        (giveResult (.fatal (startReason d)) (raiseFatal (startReason d)
          (afterCall (startCall s.params c.wb d) s)))
  | enable {i : Instr} {d : Dir} {c : SessionCfg} : Issuable s → (i = .entx ∧ d = .tx ∨ i = .enrx ∧ d = .rx) →
      s.ref ≠ 0 → CanArm d c s → Effect s i (giveResult .success (afterArm d c s))
  | disable {i : Instr} {d : Dir} : Issuable s → (i = .distx ∧ d = .tx ∨ i = .disrx ∧ d = .rx) →
      Effect s i (giveResult .success (afterDisarm d s))
  | stopFails {i : Instr} {d : Dir} : Issuable s → (i = .distx ∧ d = .tx ∨ i = .disrx ∧ d = .rx) →
      s.armed.get d = true →
      Effect s i
        (giveResult (.fatal (stopReason d)) (raiseFatal (stopReason d) (afterCall (stopCall d) s)))
  | available {i : Instr} {d : Dir} {c : SessionCfg} {h : Nat} : Issuable s →
      (i = .avw ∧ d = .tx ∨ i = .avr ∧ d = .rx) → s.ref ≠ 0 → CanArm d c s → NextPosAt h s →
      Effect s i
        (giveResult (.count (ringDist s.params h (startCursor d s))) (takePos (afterArm d c s)))
  | readBlock {n : BitVec 24} {c : SessionCfg} {h : Nat} {bs : List Byte} : Issuable s → s.ref ≠ 0 →
      CanArm .rx c s → NextPosAt h s →
      Effect s (.rdb n)
        (giveResult (.block (min n.toNat (ringDist s.params h (startCursor .rx s))) bs)
          (moveCur .rx (min n.toNat (ringDist s.params h (startCursor .rx s))) (takePos (afterArm .rx c s))))
  | readSample {c : SessionCfg} {h wb : Nat} {v : BitVec 32} : Issuable s → s.ref ≠ 0 →
      CanArm .rx c s → NextPosAt h s →
      Effect s .rds
        (giveResult (.sample v)
          (moveCur .rx (min wb (ringDist s.params h (startCursor .rx s))) (takePos (afterArm .rx c s))))
  | peekSample {c : SessionCfg} {v : BitVec 32} : Issuable s → s.ref ≠ 0 → CanArm .rx c s →
      Effect s .pks (giveResult (.sample v) (takePos (afterArm .rx c s)))
  | write {i : Instr} {c : SessionCfg} {h o : Nat} {bs : List Byte} {m : Memory} : Issuable s → s.ref ≠ 0 →
      CanArm .tx c s → NextPosAt h s →
      (i = .wrb bs ∧ o = startCursor .tx s ∨
        ∃ v c', i = .wrs v ∧ s.cfg = some c' ∧ o = alignDown (startCursor .tx s) c'.wb ∧
          bs = sampleBytes v c'.wb) →
      KeepsRing s m →
      ringWrite o (bs.take (min bs.length (ringDist s.params h o)))
          (takePos (setCur .tx o (afterArm .tx c s))) =
        .ok () { takePos (setCur .tx o (afterArm .tx c s)) with ring := m } →
      Effect s i
        (giveResult (.count (min bs.length (ringDist s.params h o)))
          (moveCur .tx (min bs.length (ringDist s.params h o))
            { takePos (setCur .tx o (afterArm .tx c s)) with ring := m }))
  | queryFails {i : Instr} {d : Dir} {c : SessionCfg} : Issuable s → Instr.queries i →
      Instr.arms i = some d → (∀ v, i ≠ .wrs v) → s.ref ≠ 0 → CanArm d c s → NextPosOutside s →
      Effect s i (giveResult (.fatal .hwPos) (raiseFatal .hwPos (takePos (afterArm d c s))))
  | queryFailsAligned {v : Word} {c c' : SessionCfg} : Issuable s → s.ref ≠ 0 → CanArm .tx c s →
      s.cfg = some c' → NextPosOutside s →
      Effect s (.wrs v)
        (giveResult (.fatal .hwPos) (raiseFatal .hwPos
          (takePos (setCur .tx (alignDown (startCursor .tx s) c'.wb) (afterArm .tx c s)))))
  | flush : Issuable s → Effect s .fls (giveResult .success s)
  | onTransmit {k : Option (BitVec 16)} : Issuable s →
      Effect s (.ontx k) (giveResult .success (setCb .tx k s))
  | onReceive {k : Option (BitVec 16)} : Issuable s →
      Effect s (.onrx k) (giveResult .success (setCb .rx k s))
  | advance {d : Dir} {a : BitVec 23} : Issuable s → s.armed.get d = true → a.toNat ≤ s.params.ringSize →
      Effect s (.adv d a)
        (giveResult (.offset (Machine.advance s.params (s.cur.get d) a.toNat))
          (setCur d (Machine.advance s.params (s.cur.get d) a.toNat) s))
  | index {o : BitVec 24} : Issuable s → o.toNat < s.params.ringSize →
      Effect s (.idx o) (giveResult (.segment (indexOf s.params o.toNat)) s)
  | done {d : Dir} : doneEnabled d s = true → Effect s (.done d) (setPend d true s)
  | handler {d : Dir} {h : Nat} : irqEnabled d s = true → NextPosAt h s →
      Effect s (.irq d) (notify d (reconcile d h (takePos (setPend d false s))))
  | handlerFails {d : Dir} : irqEnabled d s = true → NextPosOutside s →
      Effect s (.irq d) (raiseFatal .hwPos (takePos (setPend d false s)))
  | received {n : BitVec 24} {x : Byte} : rxwEnabled n.toNat s = true →
      KeepsRing s (writeBytes s.ring n.toNat [x]) →
      Effect s (.rxw n x) { s with ring := writeBytes s.ring n.toNat [x] }

/-! ## The state after arming -/

section AfterArm

variable (d : Dir) (c : SessionCfg) (s : State)

theorem afterArm_cases :
    (s.armed.get d = true ∧ afterArm d c s = s) ∨
      (s.armed.get d = false ∧
        afterArm d c s =
          setCur d s.params.segSize (setArmed d true (afterCall (startCall s.params c.wb d) s))) := by
  unfold afterArm
  cases s.armed.get d
  · exact .inr ⟨rfl, rfl⟩
  · exact .inl ⟨rfl, rfl⟩

@[simp] theorem afterArm_params : (afterArm d c s).params = s.params := by unfold afterArm; split <;> rfl
@[simp] theorem afterArm_ring : (afterArm d c s).ring = s.ring := by unfold afterArm; split <;> rfl
@[simp] theorem afterArm_cfg : (afterArm d c s).cfg = s.cfg := by unfold afterArm; split <;> rfl
@[simp] theorem afterArm_ref : (afterArm d c s).ref = s.ref := by unfold afterArm; split <;> rfl
@[simp] theorem afterArm_cb : (afterArm d c s).cb = s.cb := by unfold afterArm; split <;> rfl
@[simp] theorem afterArm_pend : (afterArm d c s).pend = s.pend := by unfold afterArm; split <;> rfl
@[simp] theorem afterArm_fatal : (afterArm d c s).fatal = s.fatal := by unfold afterArm; split <;> rfl
@[simp] theorem afterArm_refused : (afterArm d c s).refused = s.refused := by unfold afterArm; split <;> rfl
@[simp] theorem afterArm_notifyLog : (afterArm d c s).notifyLog = s.notifyLog := by
  unfold afterArm; split <;> rfl
@[simp] theorem afterArm_pc : (afterArm d c s).pc = s.pc := by unfold afterArm; split <;> rfl
@[simp] theorem afterArm_stream : (afterArm d c s).stream = s.stream := by unfold afterArm; split <;> rfl
@[simp] theorem afterArm_ctx : (afterArm d c s).ctx = s.ctx := by unfold afterArm; split <;> rfl
@[simp] theorem afterArm_results : (afterArm d c s).results = s.results := by unfold afterArm; split <;> rfl
@[simp] theorem nextPos_afterArm : nextPos (afterArm d c s) = nextPos s := by unfold afterArm; split <;> rfl
@[simp] theorem ringByte_afterArm (a : Nat) : ringByte (afterArm d c s) a = ringByte s a := by
  unfold afterArm; split <;> rfl

@[simp] theorem afterArm_cur : (afterArm d c s).cur = s.cur.set d (startCursor d s) := by
  unfold afterArm startCursor
  split
  · cases d <;> rfl
  · rfl

@[simp] theorem afterArm_armed : (afterArm d c s).armed = s.armed.set d true := by
  unfold afterArm
  split
  · rename_i h
    cases d
    · exact congrArg (Per.mk · s.armed.rx) h
    · exact congrArg (Per.mk s.armed.tx ·) h
  · rfl

/-- Arming logs one start call, and only where it arms. -/
theorem afterArm_drvLog :
    (afterArm d c s).drvLog =
      s.drvLog ++ (if s.armed.get d then [] else [startCall s.params c.wb d]) := by
  unfold afterArm
  split
  · simp
  · rfl

end AfterArm

/-! ## The state after disarming -/

section AfterDisarm

variable (d : Dir) (s : State)

@[simp] theorem afterDisarm_params : (afterDisarm d s).params = s.params := by
  unfold afterDisarm afterCall
  repeat' split
  all_goals rfl

@[simp] theorem afterDisarm_ring : (afterDisarm d s).ring = s.ring := by
  unfold afterDisarm afterCall
  repeat' split
  all_goals rfl

@[simp] theorem afterDisarm_cfg : (afterDisarm d s).cfg = s.cfg := by
  unfold afterDisarm afterCall
  repeat' split
  all_goals rfl

@[simp] theorem afterDisarm_ref : (afterDisarm d s).ref = s.ref := by
  unfold afterDisarm afterCall
  repeat' split
  all_goals rfl

@[simp] theorem afterDisarm_cb : (afterDisarm d s).cb = s.cb := by
  unfold afterDisarm afterCall
  repeat' split
  all_goals rfl

@[simp] theorem afterDisarm_fatal : (afterDisarm d s).fatal = s.fatal := by
  unfold afterDisarm afterCall
  repeat' split
  all_goals rfl

@[simp] theorem afterDisarm_refused : (afterDisarm d s).refused = s.refused := by
  unfold afterDisarm afterCall
  repeat' split
  all_goals rfl

@[simp] theorem afterDisarm_notifyLog : (afterDisarm d s).notifyLog = s.notifyLog := by
  unfold afterDisarm afterCall
  repeat' split
  all_goals rfl

@[simp] theorem afterDisarm_pc : (afterDisarm d s).pc = s.pc := by
  unfold afterDisarm afterCall
  repeat' split
  all_goals rfl

@[simp] theorem afterDisarm_stream : (afterDisarm d s).stream = s.stream := by
  unfold afterDisarm afterCall
  repeat' split
  all_goals rfl

@[simp] theorem afterDisarm_ctx : (afterDisarm d s).ctx = s.ctx := by
  unfold afterDisarm afterCall
  repeat' split
  all_goals rfl

@[simp] theorem afterDisarm_results : (afterDisarm d s).results = s.results := by
  unfold afterDisarm afterCall
  repeat' split
  all_goals rfl

@[simp] theorem afterDisarm_posAnswers : (afterDisarm d s).posAnswers = s.posAnswers := by
  unfold afterDisarm afterCall
  repeat' split
  all_goals rfl

@[simp] theorem afterDisarm_posDraws : (afterDisarm d s).posDraws = s.posDraws := by
  unfold afterDisarm afterCall
  repeat' split
  all_goals rfl

@[simp] theorem afterDisarm_armed : (afterDisarm d s).armed = s.armed.set d false := by
  unfold afterDisarm afterCall
  cases h : s.armed.get d
  · cases d
    · exact congrArg (Per.mk · s.armed.rx) h
    · exact congrArg (Per.mk s.armed.tx ·) h
  · simp only [if_true]
    split <;> rfl

theorem afterDisarm_cur : (afterDisarm d s).cur = if s.armed.get d then s.cur.set d 0 else s.cur := by
  unfold afterDisarm
  split
  · simp only []
    split <;> rfl
  · rfl

/-- Disarming logs one stop call, and only where it disarms. -/
theorem afterDisarm_drvLog :
    (afterDisarm d s).drvLog = s.drvLog ++ (if s.armed.get d then [stopCall d] else []) := by
  unfold afterDisarm
  split
  · simp only []
    split <;> rfl
  · simp

theorem afterDisarm_pend :
    (afterDisarm d s).pend =
      if s.armed.get d = true ∧ s.params.lateCompletion = false then s.pend.set d false else s.pend := by
  unfold afterDisarm
  cases s.armed.get d <;> cases h : s.params.lateCompletion <;> simp

end AfterDisarm

/-! ## The state after the handler -/

/-- The state an enabled handler ends in, for a position `h` of the ring (42_completion R173). -/
abbrev afterHandler (d : Dir) (h : Nat) (s : State) : State :=
  notify d (reconcile d h (takePos (setPend d false s)))

/-- The handler writes `pend[d]`, `cur[d]`, the notification log and the use of one answer, and nothing else. -/
theorem afterHandler_frame (d : Dir) (h : Nat) (s : State) :
    { afterHandler d h s with
        cur := s.cur, pend := s.pend, notifyLog := s.notifyLog, posAnswers := s.posAnswers,
        posDraws := s.posDraws } = s ∧
      (afterHandler d h s).pend = s.pend.set d false ∧
      ((afterHandler d h s).cur = s.cur ∨
        (afterHandler d h s).cur = s.cur.set d (segStart s.params (nextSegment (indexOf s.params h)))) := by
  unfold afterHandler
  rcases notify_cases d (reconcile d h (takePos (setPend d false s))) with ⟨-, h1⟩ | ⟨_, -, h1⟩ <;>
    rw [h1] <;>
    rcases reconcile_cases d h (takePos (setPend d false s)) with ⟨-, h2⟩ | ⟨-, h2⟩ <;> rw [h2]
  · exact ⟨rfl, rfl, .inl rfl⟩
  · exact ⟨rfl, rfl, .inr rfl⟩
  · exact ⟨rfl, rfl, .inl rfl⟩
  · exact ⟨rfl, rfl, .inr rfl⟩

/-! ## What the parts can do -/

theorem prelude_cases (d : Dir) (s : State) :
    prelude d s = .refuse .notConfigured ∨
    (s.ref ≠ 0 ∧ ∃ c, CanArm d c s ∧ prelude d s = .ok () (afterArm d c s)) ∨
    (s.ref ≠ 0 ∧ ∃ c, s.cfg = some c ∧ s.armed.get d = false ∧
      prelude d s = .fatal (startReason d) (afterCall (startCall s.params c.wb d) s)) ∨
    prelude d s = .fault .cfgAbsent := by
  unfold prelude
  split
  · exact .inl rfl
  · rename_i hr
    cases ha : s.armed.get d with
    | true =>
      refine .inr (.inl ⟨hr, ⟨0, 0, 0, false⟩, .inl ha, ?_⟩)
      simp [arm, afterArm, ha]
    | false =>
      cases hc : s.cfg with
      | none => exact .inr (.inr (.inr (by simp [arm_eq_none hc, ha])))
      | some c =>
        cases hk : nextOk s with
        | true =>
          refine .inr (.inl ⟨hr, c, .inr ⟨ha, hk, hc⟩, ?_⟩)
          simp [arm_eq hc, afterArm, ha, hk]
        | false =>
          refine .inr (.inr (.inl ⟨hr, c, rfl, rfl, ?_⟩))
          simp [arm_eq hc, ha, hk, afterCall]

theorem disarm_cases (d : Dir) (s : State) :
    disarm d s = .ok () (afterDisarm d s) ∨
      (s.armed.get d = true ∧ disarm d s = .fatal (stopReason d) (afterCall (stopCall d) s)) := by
  rw [disarm_eq]
  unfold afterDisarm afterCall
  cases s.armed.get d
  · exact .inl rfl
  · cases nextOk s
    · exact .inr ⟨rfl, rfl⟩
    · exact .inl rfl

theorem callDriver_cases (c : DrvCall) (r : FatalReason) (s : State) :
    callDriver c r s = .ok () (afterCall c s) ∨ callDriver c r s = .fatal r (afterCall c s) := by
  rw [callDriver_eq]
  split
  · exact .inl rfl
  · exact .inr rfl

theorem queryPos_cases (s : State) :
    (∃ h, NextPosAt h s ∧ queryPos s = .ok h (takePos s)) ∨
      (NextPosOutside s ∧ queryPos s = .fatal .hwPos (takePos s)) := by
  cases hq : queryPos s with
  | ok h u =>
    obtain ⟨h1, rfl⟩ := queryPos_ok hq
    exact .inl ⟨h, h1, rfl⟩
  | fatal r u =>
    obtain ⟨h1, rfl, rfl⟩ := queryPos_fatal hq
    exact .inr ⟨h1, rfl⟩
  | refuse r =>
    rw [queryPos_eq] at hq
    split at hq <;> cases hq
  | fault f =>
    rw [queryPos_eq] at hq
    split at hq <;> cases hq

/-- To show the effect of a command it is enough to look at its body where it can be issued. -/
theorem command_effect {i : Instr} {body : State → Ret Result} {s t : State}
    (h : command body s = .next t)
    (hok : Issuable s → ∀ r u, body s = .ok r u → Effect s i (giveResult r u))
    (hfatal : Issuable s → ∀ r u, body s = .fatal r u →
      Effect s i (giveResult (.fatal r) (raiseFatal r u))) : Effect s i t := by
  rcases command_next h with ⟨-, rfl⟩ | ⟨-, -, rfl⟩ | ⟨hi, ⟨r, u, hb, rfl⟩ | ⟨r, u, hb, rfl⟩ | ⟨r, -, rfl⟩⟩
  · exact .refused _
  · exact .refused _
  · exact hok hi r u hb
  · exact hfatal hi r u hb
  · exact .refused _

/-- The same for a command that begins with the prelude for `d`: what is left to look at is the rest. -/
theorem prelude_effect {i : Instr} {d : Dir} {rest : Unit → State → Ret Result} {s t : State}
    (h : command (fun s => (prelude d s).bind rest) s = .next t) (hd : Instr.arms i = some d)
    (hok : ∀ c, Issuable s → s.ref ≠ 0 → CanArm d c s → ∀ r u, rest () (afterArm d c s) = .ok r u →
      Effect s i (giveResult r u))
    (hfatal : ∀ c, Issuable s → s.ref ≠ 0 → CanArm d c s → ∀ r u,
      rest () (afterArm d c s) = .fatal r u → Effect s i (giveResult (.fatal r) (raiseFatal r u))) :
    Effect s i t := by
  refine command_effect h ?_ ?_ <;> intro hi r u hb <;> beta_reduce at hb
  · rcases prelude_cases d s with hp | ⟨hr, c, hc, hp⟩ | ⟨hr, c, hc, ha, hp⟩ | hp <;> rw [hp] at hb
    · cases hb
    · exact hok c hi hr hc r u hb
    · cases hb
    · cases hb
  · rcases prelude_cases d s with hp | ⟨hr, c, hc, hp⟩ | ⟨hr, c, hc, ha, hp⟩ | hp <;> rw [hp] at hb
    · cases hb
    · exact hfatal c hi hr hc r u hb
    · cases hb
      exact .startFails hi hd hr hc ha
    · cases hb

/-! ## The effect of each meaning -/

section Meanings

variable {s t : State}

theorem execCfg_effect {j r b m} (h : execCfg j r b m s = .next t) : Effect s (.cfg j r b m) t := by
  refine command_effect h ?_ ?_ <;> intro hi q u hb <;> unfold configure at hb <;> split at hb
  · cases hb
    exact .cfgFail hi
  · rename_i hv
    simp only [Bool.or_eq_true, not_or, Bool.not_eq_true, Bool.not_eq_false', anyArmed] at hv
    obtain ⟨⟨⟨h1, h2⟩, h3⟩, h4⟩ := hv
    have ha : s.armed = ⟨false, false⟩ := congrArg₂ Per.mk h1 h2
    split at hb
    · cases hb
    · rename_i hm
      split at hb
      · rename_i hr
        have hm' : s.params.refMax ≠ 0 := fun hx => hm (by rw [hr, hx])
        rw [bringUp_eq] at hb
        cases hk : nextOk s <;> simp only [hk, Bool.false_eq_true, if_false, if_true, Ret.bind_fatal,
          Ret.bind_ok] at hb
        · cases hb
        · cases hb
          have := Effect.cfgFirst (r := r) (m := m) hi ha h3 h4 hr hm'
          simp only [takeOk_ref, logCall_ref, hr]
          exact this
      · rename_i hr
        cases hb
        exact .cfgAgain hi ha h3 h4 hr hm
  · cases hb
  · split at hb
    · cases hb
    · split at hb
      · rename_i hr
        rw [bringUp_eq] at hb
        cases hk : nextOk s <;> simp only [hk, Bool.false_eq_true, if_false, if_true, Ret.bind_fatal,
          Ret.bind_ok] at hb
        · cases hb
          exact .cfgFatal hi hr
        · cases hb
      · cases hb

/-- Everything the release can do from a state `u` (41_lifecycle R145). -/
theorem releaseAll_cases (u : State) :
    releaseAll u = .ok () (setCfg none (afterCall (.deconfigure u.params.channel)
      (afterDisarm .rx (afterDisarm .tx u)))) ∨
    (u.armed.tx = true ∧ releaseAll u = .fatal .stopTx (afterCall .stopStreaming u)) ∨
    (u.armed.rx = true ∧ releaseAll u = .fatal .stopRx (afterCall .stopListening (afterDisarm .tx u))) ∨
    releaseAll u = .fatal .release (afterCall (.deconfigure u.params.channel)
      (afterDisarm .rx (afterDisarm .tx u))) := by
  unfold releaseAll
  rcases disarm_cases .tx u with hd | ⟨ha, hd⟩ <;> rw [hd]
  · rw [Ret.bind_ok]
    rcases disarm_cases .rx (afterDisarm .tx u) with he | ⟨ha, he⟩ <;> rw [he]
    · rw [Ret.bind_ok, afterDisarm_params, afterDisarm_params]
      rcases callDriver_cases (.deconfigure u.params.channel) .release
        (afterDisarm .rx (afterDisarm .tx u)) with hf | hf <;> rw [hf]
      · exact .inl rfl
      · exact .inr (.inr (.inr rfl))
    · refine .inr (.inr (.inl ⟨?_, rfl⟩))
      simpa [Per.get] using ha
  · exact .inr (.inl ⟨ha, rfl⟩)

theorem execEndSession_effect (h : execEndSession s = .next t) : Effect s .endSession t := by
  refine command_effect h ?_ ?_ <;> intro hi q u hb <;> beta_reduce at hb <;> split at hb
  · cases hb
  · by_cases h1 : s.ref = 1
    · simp only [setRef_ref, h1, Nat.sub_self, if_pos] at hb
      rcases releaseAll_cases (setRef 0 s) with hf | ⟨ha, hf⟩ | ⟨ha, hf⟩ | hf <;> rw [hf] at hb <;> cases hb
      exact .endLast hi h1
    · have h0 : s.ref - 1 ≠ 0 := by omega
      simp only [setRef_ref, h0, if_false] at hb
      cases hb
      exact .endOne hi (by omega)
  · cases hb
  · by_cases h1 : s.ref = 1
    · simp only [setRef_ref, h1, Nat.sub_self, if_pos] at hb
      rcases releaseAll_cases (setRef 0 s) with hf | ⟨ha, hf⟩ | ⟨ha, hf⟩ | hf <;> rw [hf] at hb <;> cases hb
      · exact .endStopTx hi h1 ha
      · exact .endStopRx hi h1 ha
      · exact .endRelease hi h1
    · have h0 : s.ref - 1 ≠ 0 := by omega
      simp only [setRef_ref, h0, if_false] at hb
      cases hb

theorem enable_effect {i : Instr} {d : Dir} (hi : i = .entx ∧ d = .tx ∨ i = .enrx ∧ d = .rx)
    (h : command (enable d) s = .next t) : Effect s i t := by
  have hd : Instr.arms i = some d := by rcases hi with ⟨rfl, rfl⟩ | ⟨rfl, rfl⟩ <;> rfl
  have he : enable d = fun s => (prelude d s).bind fun _ s => .ok .success s := by
    funext s
    unfold enable prelude
    split <;> rfl
  rw [he] at h
  refine prelude_effect h hd ?_ ?_ <;> intro c hs hr hc r u hb <;> cases hb
  exact .enable hs hi hr hc

theorem disable_effect {i : Instr} {d : Dir} (hi : i = .distx ∧ d = .tx ∨ i = .disrx ∧ d = .rx)
    (h : command (disable d) s = .next t) : Effect s i t := by
  refine command_effect h ?_ ?_ <;> intro hs r u hb <;> unfold disable at hb <;>
    rcases disarm_cases d s with hd | ⟨ha, hd⟩ <;> rw [hd] at hb <;> cases hb
  · exact .disable hs hi
  · exact .stopFails hs hi ha

theorem available_effect {i : Instr} {d : Dir} (hi : i = .avw ∧ d = .tx ∨ i = .avr ∧ d = .rx)
    (h : command (available d) s = .next t) : Effect s i t := by
  have hd : Instr.arms i = some d := by rcases hi with ⟨rfl, rfl⟩ | ⟨rfl, rfl⟩ <;> rfl
  have hq : Instr.queries i := by rcases hi with ⟨rfl, rfl⟩ | ⟨rfl, rfl⟩ <;> exact ⟨rfl, by simp, by simp⟩
  have hv : ∀ v, i ≠ .wrs v := by rcases hi with ⟨rfl, rfl⟩ | ⟨rfl, rfl⟩ <;> intro v hx <;> cases hx
  refine prelude_effect (rest := fun _ s => (queryPos s).bind fun h s =>
    .ok (.count (ringDist s.params h (s.cur.get d))) s) h hd ?_ ?_ <;> intro c hs hr hc r u hb <;>
    rcases queryPos_cases (afterArm d c s) with ⟨x, hx, hp⟩ | ⟨hx, hp⟩ <;> simp only [hp] at hb <;> cases hb
  · have := Effect.available hs hi hr hc (h := x) (by simpa [NextPosAt] using hx)
    simpa using this
  · exact .queryFails hs hq hd hv hr hc (by simpa [NextPosOutside] using hx)

theorem execRdb_effect {n : BitVec 24} (h : execRdb n s = .next t) : Effect s (.rdb n) t := by
  refine prelude_effect h rfl ?_ ?_ <;> intro c hs hr hc r u hb <;>
    rcases queryPos_cases (afterArm .rx c s) with ⟨x, hx, hp⟩ | ⟨hx, hp⟩ <;> simp only [hp] at hb
  · rw [Ret.bind_ok] at hb
    rcases ringRead_cases (takePos (afterArm .rx c s)).cur.rx
      (truncated .rx n.toNat x (takePos (afterArm .rx c s))) (takePos (afterArm .rx c s)) with hq | ⟨bs, hq⟩ <;>
      rw [hq] at hb <;> cases hb
    have := Effect.readBlock (n := n) (bs := bs) hs hr hc (h := x) (by simpa [NextPosAt] using hx)
    simpa [truncated] using this
  · cases hb
  · rw [Ret.bind_ok] at hb
    rcases ringRead_cases (takePos (afterArm .rx c s)).cur.rx
      (truncated .rx n.toNat x (takePos (afterArm .rx c s))) (takePos (afterArm .rx c s)) with hq | ⟨bs, hq⟩ <;>
      rw [hq] at hb <;> cases hb
  · cases hb
    exact .queryFails hs ⟨rfl, by simp, by simp⟩ rfl (by simp) hr hc
      (by simpa [NextPosOutside] using hx)

/-- A sample read ends with a value, in the state after its query, or raises at the query. -/
theorem sampleRest_cases (u : State) :
    let rest := (sampleWidth u).bind fun wb s =>
      (queryPos s).bind fun h s =>
        let n := truncated .rx wb h s
        (ringRead s.cur.rx n s).bind fun bs s => Ret.ok (n, sampleValue wb (zeroFill wb n bs)) s
    (∃ f, rest = .fault f) ∨ (NextPosOutside u ∧ rest = .fatal .hwPos (takePos u)) ∨
      ∃ h wb v, NextPosAt h u ∧ rest = .ok (min wb (ringDist u.params h u.cur.rx), v) (takePos u) := by
  intro rest
  cases hc : u.cfg with
  | none => exact .inl ⟨.cfgAbsent, by simp only [rest, sampleWidth, hc, Ret.bind_fault]⟩
  | some c =>
    rcases queryPos_cases u with ⟨h, hx, hp⟩ | ⟨hx, hp⟩
    · rcases ringRead_cases (takePos u).cur.rx (truncated .rx c.wb h (takePos u)) (takePos u) with hq | ⟨bs, hq⟩
      · exact .inl ⟨.ringBounds, by simp only [rest, sampleWidth, hc, Ret.bind_ok, hp, hq, Ret.bind_fault]⟩
      · refine .inr (.inr ⟨h, c.wb, sampleValue c.wb (zeroFill c.wb (truncated .rx c.wb h (takePos u)) bs), hx, ?_⟩)
        simp only [rest, sampleWidth, hc, Ret.bind_ok, hp, hq]
        rfl
    · exact .inr (.inl ⟨hx, by simp only [rest, sampleWidth, hc, Ret.bind_ok, hp, Ret.bind_fatal]⟩)

theorem execRds_effect (h : execRds s = .next t) : Effect s .rds t := by
  unfold execRds sampleAtCur at h
  simp only [Ret.bind_assoc] at h
  refine prelude_effect h rfl ?_ ?_ <;> intro c hs hr hc r u hb <;> simp only [← Ret.bind_assoc] at hb <;>
    rcases sampleRest_cases (afterArm .rx c s) with ⟨f, hf⟩ | ⟨hx, hf⟩ | ⟨x, wb, v, hx, hf⟩ <;>
    rw [hf] at hb <;> cases hb
  · have := Effect.readSample (wb := wb) (v := v) hs hr hc (h := x) (by simpa [NextPosAt] using hx)
    simpa using this
  · exact .queryFails hs ⟨rfl, by simp, by simp⟩ rfl (by simp) hr hc
      (by simpa [NextPosOutside] using hx)

theorem execPks_effect (h : execPks s = .next t) : Effect s .pks t := by
  unfold execPks sampleAtCur at h
  simp only [Ret.bind_assoc] at h
  refine prelude_effect h rfl ?_ ?_ <;> intro c hs hr hc r u hb <;> simp only [← Ret.bind_assoc] at hb <;>
    rcases sampleRest_cases (afterArm .rx c s) with ⟨f, hf⟩ | ⟨hx, hf⟩ | ⟨x, wb, v, hx, hf⟩ <;>
    rw [hf] at hb <;> cases hb
  · exact .peekSample hs hr hc
  · exact .queryFails hs ⟨rfl, by simp, by simp⟩ rfl (by simp) hr hc
      (by simpa [NextPosOutside] using hx)

/-- The copy into the ring, from a state `u`: it stops, raises at the query, or writes and advances. -/
theorem writeOut_cases (bs : List Byte) (u : State) :
    (∃ f, writeOut bs u = .fault f) ∨ (NextPosOutside u ∧ writeOut bs u = .fatal .hwPos (takePos u)) ∨
      ∃ h m, NextPosAt h u ∧ KeepsRing u m ∧
        ringWrite u.cur.tx (bs.take (min bs.length (ringDist u.params h u.cur.tx))) (takePos u) =
          .ok () { takePos u with ring := m } ∧
        writeOut bs u =
          .ok (.count (min bs.length (ringDist u.params h u.cur.tx)))
            (moveCur .tx (min bs.length (ringDist u.params h u.cur.tx)) { takePos u with ring := m }) := by
  unfold writeOut
  rcases queryPos_cases u with ⟨h, hx, hp⟩ | ⟨hx, hp⟩
  · rcases ringWrite_cases (takePos u).cur.tx (bs.take (truncated .tx bs.length h (takePos u))) (takePos u) with
      hq | ⟨m, hq, hw, hb⟩
    · exact .inl ⟨.ringBounds, by simp only [hp, Ret.bind_ok, hq, Ret.bind_fault]⟩
    · refine .inr (.inr ⟨h, m, hx, ⟨hw, hb⟩, hq, ?_⟩)
      simp only [hp, Ret.bind_ok, hq]
      rfl
  · exact .inr (.inl ⟨hx, by simp only [hp, Ret.bind_fatal]⟩)

/-- Writing the cursor that is already there changes nothing. -/
theorem setCur_self (u : State) : setCur .tx u.cur.tx u = u := rfl

theorem execWrb_effect {p : List Byte} (h : execWrb p s = .next t) : Effect s (.wrb p) t := by
  refine prelude_effect h rfl ?_ ?_ <;> intro c hs hr hc r u hb <;> beta_reduce at hb <;>
    rcases writeOut_cases p (afterArm .tx c s) with ⟨f, hf⟩ | ⟨hx, hf⟩ | ⟨x, m, hx, hm, hw, hf⟩ <;>
    rw [hf] at hb <;> cases hb
  · have ho : (afterArm .tx c s).cur.tx = startCursor .tx s := by simp
    rw [ho, afterArm_params] at hw
    have := Effect.write (i := .wrb p) (o := startCursor .tx s) (bs := p) (m := m) hs hr hc (h := x)
      (by simpa [NextPosAt] using hx) (.inl ⟨rfl, rfl⟩) (by simpa [KeepsRing] using hm)
      (by rw [← ho, setCur_self, ho]; exact hw)
    rw [← ho, setCur_self] at this
    simpa using this
  · exact .queryFails hs ⟨rfl, by simp, by simp⟩ rfl (by simp) hr hc
      (by simpa [NextPosOutside] using hx)

theorem execWrs_effect {v : Word} (h : execWrs v s = .next t) : Effect s (.wrs v) t := by
  refine prelude_effect h rfl ?_ ?_ <;> intro c hs hr hc r u hb <;> beta_reduce at hb <;>
    cases hcfg : s.cfg with
    | none =>
      simp only [sampleWidth, afterArm_cfg, hcfg, Ret.bind_fault] at hb
      cases hb
    | some c' => ?_
  · simp only [sampleWidth, afterArm_cfg, hcfg, Ret.bind_ok] at hb
    rcases writeOut_cases (sampleBytes v c'.wb)
      (setCur .tx (alignDown (afterArm .tx c s).cur.tx c'.wb) (afterArm .tx c s)) with
      ⟨f, hf⟩ | ⟨hx, hf⟩ | ⟨x, m, hx, hm, hw, hf⟩ <;> rw [hf] at hb <;> cases hb
    simp only [setCur_cur, Per.set_tx_tx, setCur_params, afterArm_params, afterArm_cur] at hw ⊢
    exact .write hs hr hc (by simpa [NextPosAt] using hx) (.inr ⟨v, c', rfl, hcfg, rfl, rfl⟩)
      (by simpa [KeepsRing] using hm) hw
  · simp only [sampleWidth, afterArm_cfg, hcfg, Ret.bind_ok] at hb
    rcases writeOut_cases (sampleBytes v c'.wb)
      (setCur .tx (alignDown (afterArm .tx c s).cur.tx c'.wb) (afterArm .tx c s)) with
      ⟨f, hf⟩ | ⟨hx, hf⟩ | ⟨x, m, hx, hm, hw, hf⟩ <;> rw [hf] at hb <;> cases hb
    simp only [Per.set_tx_tx, afterArm_cur] at hx ⊢
    exact .queryFailsAligned hs hr hc hcfg (by simpa [NextPosOutside] using hx)

theorem execAdv_effect {d : Dir} {a : BitVec 23} (h : execAdv d a s = .next t) : Effect s (.adv d a) t := by
  refine command_effect h ?_ ?_ <;> intro hs r u hb <;> beta_reduce at hb <;> split at hb
  · split at hb
    · cases hb
    · cases hb
      exact .advance hs ‹_› (by omega)
  · cases hb
  · split at hb <;> cases hb
  · cases hb

theorem execIdx_effect {o : BitVec 24} (h : execIdx o s = .next t) : Effect s (.idx o) t := by
  refine command_effect h ?_ ?_ <;> intro hs r u hb <;> beta_reduce at hb <;> split at hb <;> cases hb
  exact .index hs (by omega)

theorem execDone_effect {d : Dir} (h : execDone d s = .next t) : Effect s (.done d) t := by
  rcases event_next h with ⟨-, rfl⟩ | ⟨he, hb | ⟨r, u, hb, -⟩ | ⟨r, hb, -⟩⟩
  · exact .refused _
  · cases hb
    exact .done he
  · cases hb
  · cases hb

theorem execIrq_effect {d : Dir} (h : execIrq d s = .next t) : Effect s (.irq d) t := by
  rcases event_next h with ⟨-, rfl⟩ | ⟨he, hb | ⟨r, u, hb, rfl⟩ | ⟨r, hb, rfl⟩⟩
  · exact .refused _
  all_goals
    rcases queryPos_cases (enterHandler d s) with ⟨x, hx, hp⟩ | ⟨hx, hp⟩ <;> simp only [hp] at hb <;> cases hb
  · exact .handler he hx
  · exact .handlerFails he hx

theorem execRxw_effect {n : BitVec 24} {x : Byte} (h : execRxw n x s = .next t) :
    Effect s (.rxw n x) t := by
  rcases event_next h with ⟨-, rfl⟩ | ⟨he, hb⟩
  · exact .refused _
  · have hn : n.toNat + [x].length ≤ s.params.ringSize := by
      simp only [rxwEnabled, Bool.and_eq_true, decide_eq_true_eq] at he
      exact he.2
    rw [memWrite_inside hn] at hb
    rcases hb with hb | ⟨r, u, hb, -⟩ | ⟨r, hb, -⟩ <;> cases hb
    exact .received he ⟨Memory.wf_writeBytes _ _ _, fun hm => writeBytes_below _ _ _ hm hn⟩

end Meanings

/-- What any command or event can do when it answers a next state. -/
theorem exec_effect {i : Instr} {s t : State} (h : exec i s = .next t) : Effect s i t := by
  cases i with
  | cfg j r b m => exact execCfg_effect h
  | endSession => exact execEndSession_effect h
  | avr => exact available_effect (.inr ⟨rfl, rfl⟩) h
  | avw => exact available_effect (.inl ⟨rfl, rfl⟩) h
  | rdb n => exact execRdb_effect h
  | wrb p => exact execWrb_effect h
  | rds => exact execRds_effect h
  | pks => exact execPks_effect h
  | wrs v => exact execWrs_effect h
  | fls =>
    change command _ s = _ at h
    refine command_effect h ?_ ?_ <;> intro hs r u hb <;> cases hb
    exact .flush hs
  | ontx k =>
    change command (fun s => .ok .success (setCb .tx k s)) s = _ at h
    refine command_effect h ?_ ?_ <;> intro hs r u hb <;> cases hb
    exact .onTransmit hs
  | onrx k =>
    change command (fun s => .ok .success (setCb .rx k s)) s = _ at h
    refine command_effect h ?_ ?_ <;> intro hs r u hb <;> cases hb
    exact .onReceive hs
  | entx => exact enable_effect (.inl ⟨rfl, rfl⟩) h
  | enrx => exact enable_effect (.inr ⟨rfl, rfl⟩) h
  | distx => exact disable_effect (.inl ⟨rfl, rfl⟩) h
  | disrx => exact disable_effect (.inr ⟨rfl, rfl⟩) h
  | adv d a => exact execAdv_effect h
  | idx o => exact execIdx_effect h
  | done d => exact execDone_effect h
  | irq d => exact execIrq_effect h
  | rxw n x => exact execRxw_effect h

end Sys2Proof.Machine
end

