-- ==== Sys2Proof/Laws/PerInstr.lean ====
section
/-! SUPPORT. A family of statements about each command as syntax: it is encoded in as many words as its length
says (30_encoding R81, R82, R89). -/

namespace Sys2Proof.Laws.EncodeLength

/-- The command is encoded in as many words as its length says (30_encoding R89). -/
def Statement (i : Instr) : Prop := (encode i).length = i.words

theorem cfg (mode : BitVec 8) (rate : Word) (bits : BitVec 8) (master : Bool) : Statement (.cfg mode rate bits master) := rfl

theorem endSession : Statement .endSession := rfl

theorem avr : Statement .avr := rfl

theorem avw : Statement .avw := rfl

theorem rdb (count : BitVec 24) : Statement (.rdb count) := rfl

theorem wrb (payload : List Byte) : Statement (.wrb payload) := by
  simp only [Statement, encode, Instr.words, List.length_cons, packPayload_length]
  omega

theorem rds : Statement .rds := rfl

theorem pks : Statement .pks := rfl

theorem wrs (sample : Word) : Statement (.wrs sample) := rfl

theorem fls : Statement .fls := rfl

theorem ontx (token : Option (BitVec 16)) : Statement (.ontx token) := rfl

theorem onrx (token : Option (BitVec 16)) : Statement (.onrx token) := rfl

theorem entx : Statement .entx := rfl

theorem enrx : Statement .enrx := rfl

theorem distx : Statement .distx := rfl

theorem disrx : Statement .disrx := rfl

theorem adv (d : Dir) (amount : BitVec 23) : Statement (.adv d amount) := rfl

theorem idx (offset : BitVec 24) : Statement (.idx offset) := rfl

theorem done (d : Dir) : Statement (.done d) := rfl

theorem irq (d : Dir) : Statement (.irq d) := rfl

theorem rxw (offset : BitVec 24) (x : Byte) : Statement (.rxw offset x) := rfl

end Sys2Proof.Laws.EncodeLength
end

