-- ==== Sys2Proof/Tests/Slice0.lean ====
section
/-! SUPPORT. The model's own tests: decoding of words the spec writes out, one-step vectors of
spec/95_test_vectors.md (`S = 8`), the smoke test of WellFormed, and a witness for the hypotheses of every
statement that has some. -/

namespace Sys2Proof.Tests

open Sys2Proof.Machine

/-! ## States of the vectors (95_test_vectors, conventions) -/

/-- `S = 8`, `RING = 16`. -/
def par : Params := ⟨8, 0x1000, 4, false, 7⟩

/-- The configuration of "configured, 16-bit". -/
def cfg16 : SessionCfg := ⟨0, 16000, 16, true⟩

/-- Construction, with those parameters. -/
def fresh : State := { State.reset with params := par }

/-- "configured, 16-bit". -/
def configured : State :=
  { fresh with ref := 1, cfg := some cfg16, drvLog := [.initPinMux, .init, .configure 7 cfg16] }

/-- "configured, 16-bit", TX and RX armed. -/
def armed : State :=
  { configured with
    armed := ⟨true, true⟩
    cur := ⟨8, 8⟩
    drvLog := configured.drvLog ++ [.startStreaming 0x1000 16 2 2, .startListening 0x1000 16 2 2] }

/-- The answer to a position query that is the address of offset `o`. -/
def at' (o : Nat) (s : State) : State := { s with posAnswers := [BitVec.ofNat 32 (0x1000 + o)] }

/-- The driver's answers. -/
def ok' (l : List Bool) (s : State) : State := { s with okAnswers := l }

/-- The state after one command or event, none where the model stops. -/
def after (i : Instr) (s : State) : Option State :=
  match exec i s with
  | .next t => some t
  | _ => none

/-- One view of the state after one command or event. -/
def see {α : Type} (i : Instr) (s : State) (f : State → α) : Option α := (after i s).map f

/-- The step refuses with a reason and leaves the rest. -/
def refuses (i : Instr) (s : State) (r : RefReason) : Bool :=
  decide (after i s = some { s with refused := some r })

/-! ## WellFormed: the one check, and a term it refuses (30_encoding R90) -/

theorem test_payload_of_2_24_bytes_is_ill_formed :
    Instr.wellFormed (.wrb (List.replicate (2 ^ 24) 0)) = false := by
  simp only [Instr.wellFormed, payloadFits, List.length_replicate]
  decide

theorem test_payload_one_shorter_is_well_formed :
    Instr.wellFormed (.wrb (List.replicate (2 ^ 24 - 1) 0)) = true := by
  simp only [Instr.wellFormed, payloadFits, List.length_replicate]
  decide

/-! ## Decoding (95_test_vectors 2.1 to 2.5 and the programs P1 to P4; 30_encoding R85) -/

theorem test_decode_cfg_master :
    decode [0x01100001, 0x00003E80] = .ok (.cfg 0 16000 16 true) [] := by decide

theorem test_decode_cfg_slave :
    decode [0x00100201, 0x00000000] = .ok (.cfg 2 0 16 false) [] := by decide

theorem test_decode_end :
    decode [0x00000002] = .ok (.endSession) [] := by decide

theorem test_decode_avr :
    decode [0x00000003] = .ok (.avr) [] := by decide

theorem test_decode_avw :
    decode [0x00000004] = .ok (.avw) [] := by decide

theorem test_decode_rdb_zero :
    decode [0x00000005] = .ok (.rdb 0) [] := by decide

theorem test_decode_rdb_largest :
    decode [0xFFFFFF05] = .ok (.rdb 16777215) [] := by decide

theorem test_decode_wrb :
    decode [0x00000506, 0x04030201, 0x00000005] = .ok (.wrb [1, 2, 3, 4, 5]) [] := by decide

theorem test_decode_rds :
    decode [0x00000007] = .ok (.rds) [] := by decide

theorem test_decode_pks :
    decode [0x00000008] = .ok (.pks) [] := by decide

theorem test_decode_wrs :
    decode [0x00000009, 0xFFFFFFFE] = .ok (.wrs (BitVec.ofInt 32 (-2))) [] := by decide

theorem test_decode_fls :
    decode [0x0000000A] = .ok (.fls) [] := by decide

theorem test_decode_ontx :
    decode [0x0007010B] = .ok (.ontx (some 7)) [] := by decide

theorem test_decode_ontx_none :
    decode [0x0000000B] = .ok (.ontx none) [] := by decide

theorem test_decode_onrx :
    decode [0x0003010C] = .ok (.onrx (some 3)) [] := by decide

theorem test_decode_entx :
    decode [0x00000010] = .ok (.entx) [] := by decide

theorem test_decode_enrx :
    decode [0x00000011] = .ok (.enrx) [] := by decide

theorem test_decode_distx :
    decode [0x00000012] = .ok (.distx) [] := by decide

theorem test_decode_disrx :
    decode [0x00000013] = .ok (.disrx) [] := by decide

theorem test_decode_adv_tx :
    decode [0x00002018] = .ok (.adv .tx 16) [] := by decide

theorem test_decode_adv_rx :
    decode [0x00000518] = .ok (.adv .rx 2) [] := by decide

theorem test_decode_idx :
    decode [0x0005DC19] = .ok (.idx 1500) [] := by decide

theorem test_decode_done :
    decode [0x00000120] = .ok (.done .rx) [] := by decide

theorem test_decode_irq :
    decode [0x00000021] = .ok (.irq .tx) [] := by decide

theorem test_decode_rxw :
    decode [0x00000F22, 0x000000AB] = .ok (.rxw 15 0xAB) [] := by decide

theorem test_reject_reserved_00 :
    decode [0x00000000] = .reject .reservedOpcode := by decide

theorem test_reject_reserved_0D :
    decode [0x0000000D] = .reject .reservedOpcode := by decide

theorem test_reject_reserved_FF :
    decode [0x000000FF] = .reject .reservedOpcode := by decide

theorem test_reject_end_with_a_bit :
    decode [0x00000102] = .reject .mustBeZero := by decide

theorem test_reject_cfg_with_bit_25 :
    decode [0x02100001, 0x00003E80] = .reject .mustBeZero := by decide

theorem test_reject_token_without_present :
    decode [0x0007000B] = .reject .tokenWithoutPresent := by decide

theorem test_reject_padding :
    decode [0x00000506, 0x04030201, 0x00000105] = .reject .nonzeroPadding := by decide

theorem test_reject_wrs_cut :
    decode [0x00000009] = .reject .streamEnds := by decide

theorem test_reject_rxw_high_bits :
    decode [0x00000022, 0x00000100] = .reject .mustBeZero := by decide

/-- No two rows of the table share a word (30_encoding R93). -/
theorem test_opcode_rows_never_overlap :
    opcodeRows.Pairwise fun a b => a.pattern &&& a.mask &&& b.mask ≠ b.pattern &&& a.mask &&& b.mask := by decide

/-- 30_encoding R80. -/
theorem test_stream_bytes_are_little_endian :
    bytesOfWords [0x01100001] = [0x01, 0x00, 0x10, 0x01] := by decide

theorem test_table_word_of_end :
    decodeTableWord 32 0x00000002 = some .endSession := by decide

theorem test_table_word_of_cfg :
    decodeTableWord 64 (0x01100001 + 2 ^ 32 * 16000) = some (.cfg 0 16000 16 true) := by decide

theorem test_table_word_with_missing_operand_words :
    decodeTableWord 32 0x00000906 = some (.wrb [0, 0, 0, 0, 0, 0, 0, 0, 0]) := by decide

/-! ## Assembler lines and pseudo-instructions (30_encoding R91, R92) -/

theorem test_begin_is_a_slave_cfg :
    assembleLine (.beginSlave .left 16) = some (.cfg 2 0 16 false) := by decide

theorem test_untx_clears_the_sink :
    (assembleLine .untx).map encode = some [0x0000000B] := by decide

theorem test_negative_sample :
    (assembleLine (.wrs (-2))).map encode = some [0x00000009, 0xFFFFFFFE] := by decide

theorem test_program_p3_words :
    assemble32 [.cfg .right 44100 8 .master, .entx, .wrb 6 [1, 2, 3, 4, 5, 6], .done .tx, .irq .tx] =
      some [0x01080101, 0x0000AC44, 0x00000010, 0x00000606, 0x04030201, 0x00000605, 0x00000020, 0x00000021] := by decide

theorem test_line_text :
    (AsmLine.cfg .philips 16000 16 .master).text = "CFG philips, 16000, 16, master" := by rfl

theorem test_read_line_with_draws :
    readLine "WRS 0x1111 ; DrvOk=1; HwPos(tx)=0 ; arms TX".toList =
      some (some (.wrs 0x1111), [.drvOk true, .hwPos .tx 0]) := by decide

/-- Blanks in a draw count for nothing, and an offset of more than 32 bits does not read (log 16). -/
theorem test_read_draws :
    readLine "AVW;\tHwPos( tx )=\t3".toList = some (some .avw, [.hwPos .tx 3]) ∧
      readLine "AVW ; HwPos(tx)=0x100000000".toList = none := by decide

/-- An address below `BASE` (0x1000) is written by its offset modulo 2^32 (log 16). -/
theorem test_draw_below_base :
    (listDraw fresh (.hwPos .tx 0xFFFFFFFF)).posAnswers = [0x00000FFF] := by decide

theorem test_read_wrb :
    (readLine "WRB 6, [1, 2, 3, 4, 5, 6]".toList).bind (fun x => x.1.bind assembleLine) =
      some (.wrb [1, 2, 3, 4, 5, 6]) := by decide

theorem test_read_program :
    (assembleText "CFG philips, 16000, 16, master ; DrvOk=1\nONTX -\nADV rx, 2").map (·.1) =
      some [0x01100001, 0x00003E80, 0x0000000B, 0x00000518] := by decide

theorem test_read_rejects :
    (readLine "CFG philips, 16000, 16".toList).isNone ∧ (readLine "RDB 0x".toList).isNone ∧
      (readLine "ADV tx 4".toList).isNone := by decide

/-! ## Ring arithmetic (95_test_vectors 2.1) -/

theorem test_dist :
    [(5, 5), (4, 5), (0, 15), (15, 0), (8, 0), (0, 8), (3, 10), (10, 3)].map (fun x => ringDist par x.1 x.2) =
      [0, 15, 1, 15, 8, 8, 9, 7] := by decide

theorem test_advance :
    [(14, 2), (15, 2), (3, 0), (3, 16), (0, 16), (7, 9), (10, 5)].map (fun x => advance par x.1 x.2) =
      [0, 1, 3, 3, 0, 0, 15] := by decide

theorem test_split :
    [(14, 4), (12, 4), (0, 15), (15, 1), (15, 15)].map (fun x => splitFirst par x.1 x.2) = [2, 4, 15, 1, 1] := by decide

theorem test_align_down :
    [(7, 4), (7, 2), (7, 1), (8, 4), (3, 4), (15, 2)].map (fun x => alignDown x.1 x.2) = [4, 6, 7, 8, 0, 14] := by decide

theorem test_index_of :
    [0, 7, 8, 15].map (indexOf par) = [0, 0, 1, 1] := by decide

/-! ## One step: lifecycle (95_test_vectors 2.2) -/

theorem test_cfg_bring_up_fails :
    see (.cfg 0 1 16 true) (ok' [false] fresh) (fun s => (s.ref, s.cfg, s.fatal, s.drvLog)) =
      some (0, none, some .bringUp, [.initPinMux, .init, .configure 7 ⟨0, 1, 16, true⟩]) := by decide

theorem test_end_releases_in_order :
    see .endSession (ok' [true, true, true] armed) (fun s => (s.armed, s.cur, s.cfg, s.drvLog.drop 5)) =
      some (⟨false, false⟩, ⟨0, 0⟩, none, [.stopStreaming, .stopListening, .deconfigure 7]) := by decide

theorem test_end_stop_rx_fails :
    see .endSession (ok' [true, false] armed) (fun s => (s.ref, s.armed, s.cur, s.fatal)) =
      some (0, ⟨false, true⟩, ⟨0, 8⟩, some .stopRx) := by decide

theorem test_entx_start_fails :
    see .entx (ok' [false] configured) (fun s => (s.armed.tx, s.cur.tx, s.fatal)) = some (false, 0, some .startTx) := by decide

theorem test_enrx_arms :
    see .enrx (ok' [true] configured) (fun s => (s.armed, s.cur.rx, s.drvLog.drop 3)) =
      some (⟨false, true⟩, 8, [.startListening 0x1000 16 2 2]) := by decide

theorem test_distx_drops_a_pending_completion :
    see .distx (ok' [true] { armed with pend := ⟨true, false⟩ }) (fun s => (s.armed, s.cur.tx, s.pend.tx)) =
      some (⟨false, true⟩, 0, false) := by decide

theorem test_disrx_of_construction :
    see .disrx fresh (fun s => (s.drvLog, s.results)) = some ([], [.success]) := by decide

/-! ## One step: ring commands and events (95_test_vectors 2.1, 2.3) -/

theorem test_adv_wraps :
    see (.adv .tx 2) { armed with cur := ⟨14, 8⟩ } (fun s => (s.cur, s.results)) = some (⟨0, 8⟩, [.offset 0]) := by decide

theorem test_adv_too_far :
    refuses (.adv .tx 17) armed .range := by decide

theorem test_idx :
    see (.idx 8) fresh (·.results) = some [.segment 1] := by decide

theorem test_idx_outside :
    refuses (.idx 16) fresh .range := by decide

theorem test_done_coalesces :
    (after (.done .rx) armed).bind (after (.done .rx)) = some { armed with pend := ⟨false, true⟩ } := by decide

theorem test_irq_snaps_then_notifies :
    see (.irq .rx) (at' 9 { armed with pend := ⟨false, true⟩, cb := ⟨none, some 5⟩ })
      (fun s => (s.cur.rx, s.pend.rx, s.notifyLog)) = some (0, false, [(.rx, 5)]) := by decide

theorem test_irq_outside_the_ring :
    see (.irq .rx) (at' 16 { armed with pend := ⟨false, true⟩, cb := ⟨none, some 5⟩ })
      (fun s => (s.cur.rx, s.pend.rx, s.fatal, s.notifyLog)) = some (8, false, some .hwPos, []) := by decide

theorem test_rxw_last_byte :
    see (.rxw 15 0xAB) armed (·.ring) = some [(15, 0xAB)] := by decide

theorem test_rxw_outside :
    refuses (.rxw 16 1) armed .event := by decide

/-! ## One step: streaming (95_test_vectors 2.4) -/

theorem test_avr_arms_and_counts :
    see .avr (at' 0 (ok' [true] configured)) (fun s => (s.armed, s.cur.rx, s.results)) =
      some (⟨false, true⟩, 8, [.count 8]) := by decide

theorem test_avw_keeps_the_arming :
    see .avw (at' 16 (ok' [true] configured)) (fun s => (s.armed, s.cur.tx, s.fatal)) =
      some (⟨true, false⟩, 8, some .hwPos) := by decide

theorem test_rdb_wraps :
    see (.rdb 4) (at' 3 { armed with cur := ⟨8, 14⟩, ring := [(0, 0x10), (1, 0x11), (14, 0x1E), (15, 0x1F)] })
      (fun s => (s.cur.rx, s.results)) = some (2, [.block 4 [0x1E, 0x1F, 0x10, 0x11]]) := by decide

theorem test_wrb_no_room :
    see (.wrb [1, 2, 3]) (at' 5 { armed with cur := ⟨5, 8⟩ }) (fun s => (s.cur.tx, s.ring, s.results)) =
      some (5, [], [.count 0]) := by decide

theorem test_wrb_truncates_at_the_ring_end :
    see (.wrb [1, 2, 3, 4, 5, 6]) (at' 0 { armed with cur := ⟨4, 8⟩, params := ⟨4, 0x1000, 4, false, 7⟩ })
      (fun s => (s.cur.tx, s.ring, s.results)) = some (0, [(4, 1), (5, 2), (6, 3), (7, 4)], [.count 4]) := by decide

theorem test_rds_most_negative :
    see .rds (at' 8 { armed with cur := ⟨8, 0⟩, ring := [(0, 0x00), (1, 0x80)] })
      (fun s => (s.cur.rx, s.results.map Result.code)) = some (2, [-32768]) := by decide

theorem test_rds_straddles_the_ring_end :
    see .rds (at' 3 { armed with cur := ⟨8, 15⟩, ring := [(0, 0x11), (15, 0x22)] })
      (fun s => (s.cur.rx, s.results.map Result.code)) = some (1, [4386]) := by decide

theorem test_pks_truncated_sample :
    see .pks (at' 2 { armed with cur := ⟨8, 0⟩, cfg := some ⟨0, 1, 32, true⟩, ring := [(0, 0x01), (1, 0x80)] })
      (fun s => (s.cur.rx, s.results.map Result.code)) = some (0, [32769]) := by decide

theorem test_wrs_aligns_first :
    see (.wrs 0x11223344) (at' 0 { armed with cur := ⟨6, 8⟩, cfg := some ⟨0, 1, 32, true⟩ })
      (fun s => (s.cur.tx, s.ring, s.results)) =
      some (8, [(4, 0x44), (5, 0x33), (6, 0x22), (7, 0x11)], [.count 4]) := by decide

theorem test_wrs_one_byte_of_room :
    see (.wrs 0xABCD) (at' 5 { armed with cur := ⟨5, 8⟩ }) (fun s => (s.cur.tx, s.ring, s.results)) =
      some (5, [(4, 0xCD)], [.count 1]) := by decide

theorem test_fls_before_cfg :
    see .fls fresh id = some { fresh with results := [.success] } := by decide

theorem test_ontx_registers :
    see (.ontx (some 7)) fresh (·.cb) = some ⟨some 7, none⟩ := by decide

theorem test_onrx_registers :
    see (.onrx (some 3)) fresh (·.cb) = some ⟨none, some 3⟩ := by decide

/-! ## Check order (95_test_vectors 2.6) -/

theorem test_after_fatal_flush_is_refused :
    refuses .fls { fresh with fatal := some .hwPos } .afterFatal := by decide

theorem test_cfg_fail_comes_before_the_count :
    see (.cfg 5 1 16 true) { configured with params := { par with refMax := 1 } } (·.results) = some [.cfgFail] := by decide

theorem test_step_of_a_placed_word :
    (match step (fresh.withFetchWord 32 0x0007010B) with
      | .next t => some (t.cb.tx, t.pc)
      | _ => none) = some (some 7, 1) := by decide

theorem test_step_of_no_command :
    (match step (fresh.withFetchWord 32 0x0000000D) with
      | .next t => some (t.refused, t.pc)
      | _ => none) = some (some .encoding, 0) := by decide

/-! ## Witnesses: good states and steps -/

theorem armed_inv :
    (at' 3 { armed with stream := [0x00000003] }).Inv := ⟨by decide, by decide, by decide, by decide, by decide, by decide, by decide, by decide⟩

theorem witness_StepKeepsInvariant :
    ∃ s t, s.Inv ∧ s.armed = ⟨true, true⟩ ∧ step s = .next t := ⟨_, _, armed_inv, rfl, rfl⟩

theorem witness_StepKeepsDriverLogLaws :
    ∃ s t, (BringUpBalanced s ∧ ArmingBalanced .tx s ∧ ArmingBalanced .rx s) ∧ s.fatal = none ∧ step s = .next t := ⟨at' 3 { armed with stream := [0x00000003] }, _, ⟨by decide, by decide, by decide⟩, rfl, rfl⟩

theorem witness_NoStepGetsStuck :
    (∃ s, s.Inv ∧ upcoming s ≠ []) ∧ ∃ s, s.Inv ∧ upcoming s = [] := ⟨⟨_, armed_inv, by decide⟩, ⟨at' 3 { armed with stream := [0x00000003], pc := 1 },
    ⟨by decide, by decide, by decide, by decide, by decide, by decide, by decide, by decide⟩, by decide⟩⟩

/-- For `InputsAreNeverWritten`, `LogsAreAppendedOnly`, `ArmedBitWriters`, `CursorWriters`, `SessionWriters`,
`SinkAndPendingWriters` and `FatalReasonRaisers`, whose one hypothesis is that `exec` answers a next state. -/
theorem witness_exec_answers_next :
    ∃ i s t, exec i s = .next t ∧ t ≠ s := ⟨.done .tx, armed, _, rfl, by decide⟩

theorem witness_LogsAreAppendedOnly :
    ∃ s t, exec (.irq .rx) s = .next t ∧ t.notifyLog = [(.rx, 5)] := ⟨at' 9 { armed with pend := ⟨false, true⟩, cb := ⟨none, some 5⟩ }, _, rfl, by decide⟩

theorem witness_ArmedBitWriters :
    (∃ s t, exec .avw s = .next t ∧ t.armed.tx = true ∧ s.armed.tx = false) ∧
      ∃ s t, exec .endSession s = .next t ∧ t.armed.rx = false ∧ s.armed.rx = true := ⟨⟨at' 0 (ok' [true] configured), _, rfl, by decide, rfl⟩, ⟨ok' [true, true, true] armed, _, rfl, by decide, rfl⟩⟩

theorem witness_CursorWriters :
    ∃ s t, exec .pks s = .next t ∧ s.cur.rx = 0 ∧ t.cur.rx = 8 := ⟨at' 0 (ok' [true] configured), _, rfl, rfl, by decide⟩

theorem witness_SessionWriters :
    ∃ s t, exec (.cfg 1 5 8 true) s = .next t ∧ t.ref = 2 := ⟨configured, _, rfl, by decide⟩

theorem witness_SinkAndPendingWriters :
    ∃ s t, exec .distx s = .next t ∧ s.pend.tx = true ∧ t.pend.tx = false := ⟨ok' [true] { armed with pend := ⟨true, false⟩ }, _, rfl, rfl, by decide⟩

theorem witness_OtherCommandsLeaveTheRing :
    ∃ i s t, exec i s = .next t ∧ (∀ p, i ≠ .wrb p) ∧ (∀ v, i ≠ .wrs v) ∧ ∀ n x, i ≠ .rxw n x := ⟨.rdb 4, at' 3 armed, _, rfl, by simp, by simp, by simp⟩

theorem witness_StoresLeaveOtherBytes :
    (∃ t, exec (.wrb [1, 2]) (at' 3 armed) = .next t ∧ t.ring = [(8, 1), (9, 2)]) ∧
      (∃ t, exec (.wrs 7) (at' 3 armed) = .next t ∧ armed.cfg = some cfg16 ∧ t.ring = [(8, 7), (9, 0)]) ∧
      (∃ t, exec (.wrs 7) fresh = .next t ∧ fresh.cfg = none) ∧
      ∃ t, exec (.rxw 15 1) armed = .next t ∧ t.ring = [(15, 1)] := ⟨⟨_, rfl, by decide⟩, ⟨_, rfl, rfl, by decide⟩, ⟨_, rfl, rfl⟩, ⟨_, rfl, by decide⟩⟩

theorem witness_FatalReasonRaisers :
    ∃ s t, exec .entx s = .next t ∧ s.fatal = none ∧ t.fatal = some .startTx := ⟨ok' [false] configured, _, rfl, rfl, by decide⟩

theorem witness_FatalIsSticky :
    ∃ s t r, s.fatal = some r ∧ step s = .next t ∧ t.refused = some .afterFatal := ⟨{ armed with fatal := some .hwPos, stream := [0x0000000A] }, _, .hwPos, rfl, rfl, by decide⟩

theorem witness_AfterFatalEverythingIsRefused :
    ∃ (s : State) (r : FatalReason), s.fatal = some r ∧ IsCommand .fls ∧ s.ctx = .foreground ∧ ¬IsCommand (.done .tx) := ⟨{ armed with fatal := some .hwPos }, .hwPos, rfl, by decide, rfl, by decide⟩

theorem witness_RefusalWritesOnlyTheMark :
    (∃ s t, exec .endSession s = .next t ∧ t.refused ≠ s.refused) ∧
      ∃ s t, exec .fls s = .next t ∧ s.refused = some .range := ⟨⟨fresh, _, rfl, by decide⟩, ⟨{ fresh with refused := some .range }, _, rfl, rfl⟩⟩

theorem witness_InterruptContextIssuesNothing :
    ∃ s : State, s.ctx = .interrupt ∧ irqEnabled .tx { s with ctx := .foreground } = true ∧ IsCommand .fls := ⟨{ armed with ctx := .interrupt, pend := ⟨true, false⟩ }, rfl, by decide, by decide⟩

theorem witness_CountsStayBelowRing :
    (∃ s t, s.Inv ∧ exec .avr s = .next t ∧ t.results = s.results ++ [.count 11]) ∧
      ∃ s t, s.Inv ∧ exec (.rdb 0) s = .next t ∧ ∃ bs, t.results = s.results ++ [.block 0 bs] := ⟨⟨_, _, armed_inv, rfl, by decide⟩, ⟨_, _, armed_inv, rfl, [], by decide⟩⟩

/-! ## Witnesses: encoding -/

theorem witness_DecodeOfEncode :
    Instr.wellFormed (.wrb [1, 2, 3, 4, 5]) = true ∧ Instr.wellFormed (.adv .rx 8388607) = true := by decide

theorem witness_EncodeOfDecode :
    ∃ ws i rest, decode ws = .ok i rest ∧ rest ≠ [] := ⟨[0x00000506, 0x04030201, 0x00000005, 0x00000002], _, _, rfl, by decide⟩

theorem witness_MatchAndMask :
    (∃ i rest, decode [0x0003010C] = .ok i rest) ∧ opcodeRows.filter (·.hits 0x00000102) = [] := ⟨⟨_, _, rfl⟩, by decide⟩

theorem witness_ReservedOpcodesAreRefused :
    ((0xFFFFFF0D : Word).extractLsb' 0 8).toNat ∉
      [0x01, 0x02, 0x03, 0x04, 0x05, 0x06, 0x07, 0x08, 0x09, 0x0A, 0x0B, 0x0C, 0x10, 0x11, 0x12, 0x13,
        0x18, 0x19, 0x20, 0x21, 0x22] := by simp

theorem witness_MustBeZeroBitsAreRefused :
    (((0x00000102 : Word).extractLsb' 0 8).toNat = 0x02 ∧ (0x00000102 : Word).extractLsb' 8 24 ≠ 0) ∧
      (((0x02100001 : Word).extractLsb' 0 8).toNat = 0x01 ∧ (0x02100001 : Word).extractLsb' 25 7 ≠ 0) ∧
      (((0x0000020B : Word).extractLsb' 0 8).toNat = 0x0B ∧ (0x0000020B : Word).extractLsb' 9 7 ≠ 0) ∧
      (((0x0007000C : Word).extractLsb' 0 8).toNat = 0x0C ∧ (0x0007000C : Word).getLsbD 8 = false ∧
        (0x0007000C : Word).extractLsb' 16 16 ≠ 0) ∧
      (((0x80000020 : Word).extractLsb' 0 8).toNat = 0x20 ∧ (0x80000020 : Word).extractLsb' 9 23 ≠ 0) ∧
      (((0x00000022 : Word).extractLsb' 0 8).toNat = 0x22 ∧ (0x00000100 : Word).extractLsb' 8 24 ≠ 0) := by decide

theorem witness_MustBeZeroBitsAreRefused_padding :
    ((0x00000506 : Word).extractLsb' 0 8).toNat = 0x06 ∧
      ∃ j b, ((0x00000506 : Word).extractLsb' 8 24).toNat ≤ j ∧
        j < 4 * payloadWords ((0x00000506 : Word).extractLsb' 8 24).toNat ∧
        (bytesOfWords [0x04030201, 0x00000105])[j]? = some b ∧ b ≠ 0 := ⟨by decide, 5, 1, by decide, by decide, by decide, by decide⟩

theorem witness_LengthsAreFoundFromTheFirstWord :
    (∃ i rest, decode [0x00000506, 0x04030201, 0x00000005] = .ok i rest) ∧
      ([0x00000506, 0x04030201] : List Word).length < lengthFrom 0x00000506 := ⟨⟨_, _, rfl⟩, by decide⟩

theorem witness_StepRunsTheDecodedCommand :
    ∃ (s : State) (i : Instr) (rest : List Word), i.wellFormed = true ∧ decode (s.stream.drop s.pc) = .ok i rest ∧ s.pc = 1 := ⟨{ armed with stream := [0x0000000A, 0x00000A22, 0x000000AB], pc := 1 }, _, _, rfl, rfl, rfl⟩

theorem witness_StepRunsTheDecodedCommand_fault :
    ∃ (s : State) (i : Instr) (rest : List Word), i.wellFormed = true ∧ decode (s.stream.drop s.pc) = .ok i rest ∧ exec i s = .fault .cfgAbsent := ⟨{ fresh with stream := [0x00000003], ref := 1 }, _, _, rfl, rfl, rfl⟩

/-! ## Witnesses: ring arithmetic -/

theorem witness_SegmentIndexOfOffset :
    par.Legal ∧ (0 < par.segSize ∧ 7 < par.segSize) ∧ (par.segSize ≤ 8 ∧ 15 < par.ringSize) ∧ par.ringSize ≤ 16 := by decide

theorem witness_DistanceIsModular :
    4 < par.ringSize ∧ 15 < par.ringSize ∧ 0 < par.ringSize := by decide

theorem witness_AdvanceIsModular :
    15 < par.ringSize ∧ 16 ≤ par.ringSize := by decide

theorem witness_FullRevolutionReturns :
    5 < par.ringSize ∧ (∀ a ∈ [16, 0], a ≤ par.ringSize) ∧ (∀ a ∈ [2, 2, 4, 8], a ≤ par.ringSize) ∧
      [16, 0].sum = par.ringSize ∧ [2, 2, 4, 8].sum = par.ringSize := by decide

theorem witness_SplitCopyFollowsTheRing :
    15 < armed.params.ringSize ∧ 15 ≤ armed.params.ringSize - 1 ∧
      (List.replicate 15 (1 : Byte)).length ≤ armed.params.ringSize - 1 := by decide

theorem witness_AlignDownStaysInTheRing :
    par.Legal ∧ (4 : Nat) ∈ [1, 2, 4] ∧ 15 < par.ringSize := by decide

theorem witness_SampleBytesAndValue :
    (4 : Nat) ∈ [1, 2, 4] ∧ ([0xFF, 0xFF, 0xFF, 0x7F] : List Byte).length = 4 ∧
      (1 : Nat) ∈ [1, 2, 4] ∧ ([0x80] : List Byte).length = 1 := by decide

/-! ## Witnesses: lifecycle -/

theorem witness_CfgOpensASession :
    let s := ok' [true] fresh
    (Issuable s ∧ s.armed = ⟨false, false⟩ ∧ (2 : BitVec 8).toNat ∈ [0, 1, 2] ∧ (32 : BitVec 8).toNat ∈ [8, 16, 32] ∧
      s.ref ≠ s.params.refMax ∧ s.ref = 0 ∧ nextOk s = true) ∧
      (Issuable configured ∧ configured.armed = ⟨false, false⟩ ∧ configured.ref ≠ configured.params.refMax ∧
        configured.ref ≠ 0) := by decide

theorem witness_ConfigurationErrorChangesNothing :
    Issuable armed ∧ armedBits armed.armed ≠ 0 ∧ (3 : BitVec 8).toNat ∉ [0, 1, 2] ∧
      (24 : BitVec 8).toNat ∉ [8, 16, 32] ∧
      ∃ t, exec (.cfg 0 0 24 true) configured = .next t ∧ t.results = configured.results ++ [.cfgFail] := ⟨by decide, by decide, by decide, by decide, _, rfl, by decide⟩

theorem witness_FailedBringUpIsFatal :
    let s := ok' [false] fresh
    Issuable s ∧ s.armed = ⟨false, false⟩ ∧ (0 : BitVec 8).toNat ∈ [0, 1, 2] ∧ (16 : BitVec 8).toNat ∈ [8, 16, 32] ∧
      s.ref = 0 ∧ s.params.refMax ≠ 0 ∧ nextOk s = false := by decide

theorem witness_EndOfOneOfSeveralSessions :
    Issuable { armed with ref := 2 } ∧ 2 ≤ { armed with ref := 2 }.ref := by decide

theorem witness_EndOfTheLastSessionReleases :
    let s := ok' [true, true, true] armed
    Issuable s ∧ s.ref = 1 ∧
      ∀ k, k ≤ s.armed.tx.toNat + s.armed.rx.toNat → nextOk (takeOk^[k] s) = true := by decide

theorem witness_FailedReleaseIsFatal :
    let s := ok' [true, false] armed
    (Issuable s ∧ s.ref = 1 ∧ s.armed = ⟨true, true⟩ ∧ nextOk s = true ∧ nextOk (takeOk s) = false) ∧
      (nextOk (ok' [false] armed) = false ∧ (ok' [false] armed).armed.tx = true) ∧
      (nextOk (ok' [false] { armed with armed := ⟨false, true⟩ }) = false) ∧
      ((ok' [false] configured).armed = ⟨false, false⟩ ∧ nextOk (ok' [false] configured) = false) := by decide

theorem witness_FailedReleaseIsFatal_deconfigure :
    let a := ok' [true, false] { armed with armed := ⟨true, false⟩ }
    let b := ok' [true, false] { armed with armed := ⟨false, true⟩ }
    let c := ok' [true, true, false] armed
    (Issuable a ∧ a.ref = 1 ∧ nextOk a = true ∧ nextOk (takeOk a) = false) ∧
      (Issuable b ∧ b.ref = 1 ∧ nextOk b = true ∧ nextOk (takeOk b) = false) ∧
      (Issuable c ∧ c.ref = 1 ∧ nextOk c = true ∧ nextOk (takeOk c) = true ∧
        nextOk (takeOk (takeOk c)) = false) := by decide

theorem witness_EnableArmsADirection :
    (Issuable armed ∧ armed.ref ≠ 0 ∧ armed.cfg = some cfg16 ∧ armed.armed.tx = true ∧ armed.armed.rx = true) ∧
      (Issuable configured ∧ configured.ref ≠ 0 ∧ configured.cfg = some cfg16 ∧ configured.armed.tx = false ∧
        configured.armed.rx = false ∧ nextOk (ok' [true] configured) = true) := by decide

theorem witness_DisableDisarmsADirection :
    (Issuable fresh ∧ fresh.armed.tx = false ∧ fresh.armed.rx = false) ∧
      (Issuable armed ∧ armed.armed.tx = true ∧ armed.armed.rx = true ∧ nextOk (ok' [true] armed) = true) := by decide

theorem witness_RefusedStartOrStopIsFatal :
    let s := ok' [false] configured
    let t := ok' [false] armed
    (Issuable s ∧ nextOk s = false ∧ s.ref ≠ 0 ∧ s.cfg = some cfg16 ∧ s.armed.tx = false ∧ s.armed.rx = false) ∧
      (Issuable t ∧ nextOk t = false ∧ t.armed.tx = true ∧ t.armed.rx = true) := by decide

theorem witness_EnableAndDisableAreIdempotent :
    Instr.distx ∈ [Instr.entx, .enrx, .distx, .disrx] ∧
      ∃ t, exec .distx (ok' [true] armed) = .next t ∧ t.results = armed.results ++ [.success] := ⟨by decide, _, rfl, by decide⟩

theorem witness_LateCompletionSurvivesDisable :
    let s := ok' [true] { armed with pend := ⟨true, true⟩, params := { par with lateCompletion := true } }
    Issuable s ∧ s.params.lateCompletion = true ∧ nextOk s = true ∧ s.armed = ⟨true, true⟩ ∧ s.pend = ⟨true, true⟩ := by decide

theorem witness_CommandsTurnedAway :
    (Issuable fresh ∧ fresh.ref = 0) ∧
      ({ configured with ref := 4 }.ref = configured.params.refMax ∧ configured.armed = ⟨false, false⟩ ∧
        (1 : BitVec 8).toNat ∈ [0, 1, 2] ∧ (8 : BitVec 8).toNat ∈ [8, 16, 32]) ∧
      fresh.params.ringSize ≤ (16 : BitVec 24).toNat ∧ fresh.armed.get .rx = false ∧
      (armed.armed.get .rx = true ∧ armed.params.ringSize < (17 : BitVec 23).toNat) := by decide

theorem witness_EventsNotEnabledAreRefused :
    fresh.armed.get .tx = false ∧ armed.pend.get .rx = false ∧ armed.params.ringSize ≤ (16 : BitVec 24).toNat ∧
      (fresh.armed.get .tx = false ∧ fresh.params.lateCompletion = false) ∧
      { fresh with fatal := some FatalReason.hwPos }.fatal ≠ none := by decide

/-! ## Witnesses: ring commands, events, streaming -/

theorem witness_AdvMovesACursor :
    Issuable armed ∧ armed.armed.get .rx = true ∧ (16 : BitVec 23).toNat ≤ armed.params.ringSize := by decide

theorem witness_IdxGivesTheSegment :
    Issuable fresh ∧ (15 : BitVec 24).toNat < fresh.params.ringSize ∧ (7 : BitVec 24).toNat < fresh.params.segSize := by decide

theorem witness_DoneSetsThePendingBit :
    armed.fatal = none ∧ armed.armed.get .rx = true ∧ { armed with pend := ⟨false, true⟩ }.pend.get .rx = true := by decide

theorem witness_HandlerReconcilesAndNotifies :
    let s := at' 15 { armed with pend := ⟨false, true⟩ }
    (s.params.Legal ∧ s.fatal = none ∧ s.ctx = .foreground ∧ s.pend.get .rx = true ∧ s.armed.get .rx = true ∧
      s.cur.get .rx < s.params.ringSize ∧ NextPosAt 15 s) ∧
      NextPosAt 0 (at' 0 s) := by decide

theorem witness_RxwStoresOneByte :
    armed.fatal = none ∧ armed.armed.rx = true ∧ (15 : BitVec 24).toNat < armed.params.ringSize := by decide

theorem witness_AvailableCountsReturnTheDistance :
    let s := at' 15 (ok' [true] configured)
    NextPosAt 15 s ∧ DataReady .rx cfg16 s ∧ DataReady .tx cfg16 s := by decide

theorem witness_RdbReadsABlock :
    let s := at' 0 armed
    s.params.Legal ∧ s.cur.rx < s.params.ringSize ∧ DataReady .rx cfg16 s ∧ NextPosAt 0 s := by decide

theorem witness_WrbWritesABlock :
    let s := at' 0 (ok' [true] configured)
    s.params.Legal ∧ s.cur.tx < s.params.ringSize ∧ DataReady .tx cfg16 s ∧ NextPosAt 0 s := by decide

theorem witness_RdsAndPksReadASample :
    let s := at' 1 { armed with cur := ⟨8, 15⟩ }
    s.params.Legal ∧ s.cur.rx < s.params.ringSize ∧ DataReady .rx cfg16 s ∧ NextPosAt 1 s := by decide

theorem witness_WrsWritesASample :
    let s := at' 0 { armed with cur := ⟨15, 8⟩ }
    s.params.Legal ∧ s.cur.tx < s.params.ringSize ∧ DataReady .tx cfg16 s ∧ NextPosAt 0 s := by decide

theorem witness_FlushAndRegistration :
    Issuable fresh := by decide

theorem witness_PositionOutsideTheRingIsFatal :
    let s := at' 16 { armed with pend := ⟨true, true⟩ }
    NextPosOutside s ∧ DataReady .rx cfg16 s ∧ DataReady .tx cfg16 s ∧ irqEnabled .tx s = true ∧
      NextPosOutside { s with posAnswers := [0x00000FFF] } := by decide

theorem witness_FailedLazyArmingIsFatal :
    let s := ok' [false] configured
    Issuable s ∧ s.ref ≠ 0 ∧ s.cfg = some cfg16 ∧ nextOk s = false ∧ s.armed.rx = false ∧ s.armed.tx = false := by decide

end Sys2Proof.Tests
end

section
/-! O6: a next state has the inputs of the state before (00_scope R6, 10_state R20, R35), by the cases of `Effect`. -/

namespace Sys2Proof.Machine

variable {s t : State}

/-- Moving a cursor by `n` bytes is one write of that cursor, so the laws of `setCur` hold of it. -/
theorem moveCur_eq_setCur (d : Dir) (n : Nat) (s : State) :
    moveCur d n s = setCur d (advance s.params (s.cur.get d) n) s := rfl

/-- `t` has the inputs of `s`: the fields the host gives and no command or event may write. -/
structure SameInputs (s t : State) : Prop where
  params : t.params = s.params
  stream : t.stream = s.stream
  ctx : t.ctx = s.ctx
  pc : t.pc = s.pc

/-- None of the fields that `afterHandler_frame` excepts is an input. -/
theorem afterHandler_sameInputs (d : Dir) (h : Nat) (s : State) : SameInputs s (afterHandler d h s) := by
  obtain ⟨hframe, -, -⟩ := afterHandler_frame d h s
  exact ⟨(congrArg State.params hframe :), (congrArg State.stream hframe :),
    (congrArg State.ctx hframe :), (congrArg State.pc hframe :)⟩

/-- The handler keeps the inputs by its frame; the data commands that transfer bytes end in a move of a cursor;
every other case is built of operations whose field laws are in the `simp` set. -/
theorem Effect.sameInputs {i : Instr} (h : Effect s i t) : SameInputs s t := by
  cases h with
  | handler => exact afterHandler_sameInputs _ _ s
  | readBlock | readSample | write => constructor <;> simp [moveCur_eq_setCur]
  | _ => constructor <;> simp

/-- Settles O6: every effect of an instruction keeps the inputs. -/
theorem inputsAreNeverWritten : Obligations.InputsAreNeverWritten := by
  intro i s t h
  obtain ⟨hparams, hstream, hctx, hpc⟩ := (exec_effect h).sameInputs
  exact ⟨hparams, hstream, hctx, hpc⟩

end Sys2Proof.Machine
end

section
/-! O3: the invariant of the block (10_state R22, R24, R25, R28, R31) as one rule per write, and every effect as
a chain of these rules. -/

namespace Sys2Proof.Machine

variable {s t : State}

/-! ## Bounds of the ring arithmetic -/

theorem ringDist_lt {p : Params} {h c : Nat} (hh : h < p.ringSize) : ringDist p h c < p.ringSize := by
  unfold ringDist
  split <;> omega

/-- A truncated count is no more than the ring holds. -/
theorem min_ringDist_le {p : Params} {n h c : Nat} (hh : h < p.ringSize) :
    min n (ringDist p h c) ≤ p.ringSize :=
  (min_le_right _ _).trans (ringDist_lt hh).le

theorem advance_lt {p : Params} {o a : Nat} (ho : o < p.ringSize) (ha : a ≤ p.ringSize) :
    advance p o a < p.ringSize := by
  unfold advance
  split <;> omega

theorem alignDown_le (o wb : Nat) : alignDown o wb ≤ o := Nat.sub_le _ _

theorem segStart_nextSegment_lt {p : Params} (hp : p.Legal) (k : Nat) :
    segStart p (nextSegment k) < p.ringSize := by
  have hk : nextSegment k < 2 := Nat.mod_lt _ (by decide)
  exact Nat.mul_lt_mul_of_pos_right hk (by omega)

/-! ## The invariant and the single writes -/

/-- The invariant with one clause for both directions where `State.Inv` has a clause for each. -/
theorem State.inv_iff :
    s.Inv ↔ s.params.Legal ∧ (∀ d, CursorGood d s) ∧ (∀ d, PendGood d s) ∧ CfgLegal s ∧
      SessionGood s ∧ RingGood s := by
  constructor
  · intro h
    exact ⟨h.params, (Dir.casesOn · h.curTx h.curRx), (Dir.casesOn · h.pendTx h.pendRx), h.cfg,
      h.session, h.ring⟩
  · rintro ⟨hp, hcur, hpend, hcfg, hsession, hring⟩
    exact ⟨hp, hcur .tx, hcur .rx, hpend .tx, hpend .rx, hcfg, hsession, hring⟩

theorem State.Inv.cursorGood (h : s.Inv) (d : Dir) : CursorGood d s := by
  cases d
  · exact h.curTx
  · exact h.curRx

/-- The invariant does not read the sinks, the mark, the logs, the results, the index, the stream, the context
or the environment's answers: a state that differs from a good one in these fields alone is good. -/
theorem State.Inv.of_unread (h : s.Inv)
    (ht : { t with
        cb := s.cb, refused := s.refused, notifyLog := s.notifyLog, drvLog := s.drvLog, pc := s.pc
        stream := s.stream, ctx := s.ctx, results := s.results, posAnswers := s.posAnswers
        okAnswers := s.okAnswers, posDraws := s.posDraws, okDraws := s.okDraws } = s) : t.Inv := by
  rw [← ht] at h
  exact ⟨h.params, h.curTx, h.curRx, h.pendTx, h.pendRx, h.cfg, h.session, h.ring⟩

protected theorem State.Inv.giveResult (h : s.Inv) (r : Result) : (giveResult r s).Inv := h.of_unread rfl
protected theorem State.Inv.markRefused (h : s.Inv) (r : RefReason) : (markRefused r s).Inv := h.of_unread rfl
protected theorem State.Inv.advancePc (h : s.Inv) (n : Nat) : (advancePc n s).Inv := h.of_unread rfl
protected theorem State.Inv.setCb (h : s.Inv) (d : Dir) (k : Option (BitVec 16)) : (setCb d k s).Inv :=
  h.of_unread rfl
protected theorem State.Inv.takePos (h : s.Inv) : (takePos s).Inv := h.of_unread rfl
protected theorem State.Inv.afterCall (h : s.Inv) (c : DrvCall) : (afterCall c s).Inv := h.of_unread rfl
protected theorem State.Inv.afterBringUp (h : s.Inv) (c : SessionCfg) : (afterBringUp c s).Inv :=
  h.of_unread rfl

protected theorem State.Inv.setCur (h : s.Inv) {d : Dir} {v : Nat} (hv : v < s.params.ringSize)
    (hd : s.armed.get d = true ∨ s.params.lateCompletion = true) : (setCur d v s).Inv := by
  obtain ⟨hp, hcur, hpend, hcfg, hsession, hring⟩ := State.inv_iff.1 h
  refine State.inv_iff.2 ⟨hp, fun e => ?_, hpend, hcfg, hsession, hring⟩
  obtain ⟨hlt, hzero⟩ := hcur e
  simp only [CursorGood, setCur_cur, setCur_armed, setCur_params, Per.get_set]
  split
  · subst e
    exact ⟨hv, fun ha hl => by simp [ha, hl] at hd⟩
  · exact ⟨hlt, hzero⟩

protected theorem State.Inv.moveCur (h : s.Inv) {d : Dir} {n : Nat} (hn : n ≤ s.params.ringSize)
    (hd : s.armed.get d = true) : (moveCur d n s).Inv :=
  h.setCur (advance_lt (h.cursorGood d).1 hn) (.inl hd)

protected theorem State.Inv.setPend (h : s.Inv) {d : Dir} {v : Bool}
    (hv : v = true → s.armed.get d = true ∨ s.params.lateCompletion = true) : (setPend d v s).Inv := by
  obtain ⟨hp, hcur, hpend, hcfg, hsession, hring⟩ := State.inv_iff.1 h
  refine State.inv_iff.2 ⟨hp, hcur, fun e => ?_, hcfg, hsession, hring⟩
  simp only [PendGood, setPend_pend, setPend_armed, setPend_params, Per.get_set]
  split
  · subst e
    exact hv
  · exact hpend e

theorem State.Inv.setArmed_true (h : s.Inv) (d : Dir) (hr : s.ref ≠ 0) : (setArmed d true s).Inv := by
  obtain ⟨hp, hcur, hpend, hcfg, ⟨hmax, hnone, hfatal⟩, hring⟩ := State.inv_iff.1 h
  refine State.inv_iff.2 ⟨hp, fun e => ?_, fun e => ?_, hcfg,
    ⟨hmax, fun hc => absurd (hnone hc).1 hr, hfatal⟩, hring⟩
  · obtain ⟨hlt, hzero⟩ := hcur e
    simp only [CursorGood, setArmed_cur, setArmed_armed, setArmed_params, Per.get_set]
    split
    · exact ⟨hlt, by simp⟩
    · exact ⟨hlt, hzero⟩
  · simp only [PendGood, setArmed_pend, setArmed_armed, setArmed_params, Per.get_set]
    split
    · simp
    · exact hpend e

/-- A session more, with a configuration that `CFG` accepts, up to `REF_MAX`. -/
theorem State.Inv.setCfg_setRef (h : s.Inv) {c : SessionCfg} {n : Nat} (hm : validMode c.mode = true)
    (hb : validBits c.bps = true) (hn : n ≤ s.params.refMax) (hn0 : n ≠ 0) :
    (setCfg (some c) (setRef n s)).Inv :=
  { h with
    cfg := by simp [CfgLegal, hm, hb]
    session := ⟨hn, by simp, fun _ hr => absurd hr hn0⟩ }

protected theorem State.Inv.setRef (h : s.Inv) {n : Nat} (hn : n ≤ s.ref) (hn0 : n ≠ 0) :
    (setRef n s).Inv := by
  obtain ⟨hmax, hnone, -⟩ := h.session
  refine { h with session := ⟨hn.trans hmax, fun hc => ?_, fun _ hr => absurd hr hn0⟩ }
  have h0 : s.ref = 0 := (hnone hc).1
  omega

/-- The last session ends with nothing armed: no count, no configuration. -/
theorem State.Inv.setCfg_none_setRef_zero (h : s.Inv) (ha : s.armed = ⟨false, false⟩) :
    (setCfg none (setRef 0 s)).Inv :=
  { h with
    cfg := by simp [CfgLegal]
    session := ⟨Nat.zero_le _, fun _ => ⟨rfl, ha⟩, fun _ _ => rfl⟩ }

/-- A fatal fault is recorded, after the count has gone down or not: with a fault recorded, no session may
still have a configuration (10_state R24). -/
theorem State.Inv.raiseFatal_setRef (h : s.Inv) (r : FatalReason) {n : Nat} (hn : n ≤ s.ref) :
    (raiseFatal r (setRef n s)).Inv := by
  obtain ⟨hmax, hnone, -⟩ := h.session
  refine { h with session := ⟨hn.trans hmax, fun hc => ?_, fun hf => by cases hf⟩ }
  obtain ⟨h0, ha⟩ := hnone hc
  exact ⟨Nat.le_zero.1 (h0 ▸ hn), ha⟩

protected theorem State.Inv.raiseFatal (h : s.Inv) (r : FatalReason) : (raiseFatal r s).Inv :=
  h.raiseFatal_setRef r le_rfl

theorem State.Inv.setRing (h : s.Inv) {m : Memory} (hm : KeepsRing s m) :
    ({ s with ring := m } : State).Inv :=
  { h with ring := ⟨hm.1 h.ring.1, hm.2 h.ring.2⟩ }

/-! ## The invariant and the parts of a command -/

protected theorem State.Inv.afterArm (h : s.Inv) (d : Dir) (c : SessionCfg) (hr : s.ref ≠ 0) :
    (afterArm d c s).Inv := by
  rcases afterArm_cases d c s with ⟨-, he⟩ | ⟨-, he⟩ <;> rw [he]
  · exact h
  · have hcall := h.afterCall (startCall s.params c.wb d)
    exact (hcall.setArmed_true d hr).setCur (Legal.segSize_lt h.params) (.inl (by simp))

/-- A write command puts its cursor no further than where it starts (43_streaming R194, R197). -/
theorem State.Inv.setCur_afterArm (h : s.Inv) (c : SessionCfg) (hr : s.ref ≠ 0) {d : Dir}
    {o : Nat} (ho : o ≤ startCursor d s) : (setCur d o (afterArm d c s)).Inv := by
  have hstart := startCursor_lt (h.cursorGood d).1 (Legal.segSize_lt h.params)
  exact (h.afterArm d c hr).setCur (by simpa using ho.trans_lt hstart) (.inl (by simp))

theorem afterDisarm_cur_get (d e : Dir) (s : State) :
    (afterDisarm d s).cur.get e = if e = d ∧ s.armed.get d = true then 0 else s.cur.get e := by
  rw [afterDisarm_cur]
  split <;> simp [*, Per.get_set]

theorem afterDisarm_pend_get (d e : Dir) (s : State) :
    (afterDisarm d s).pend.get e =
      if e = d ∧ s.armed.get d = true ∧ s.params.lateCompletion = false then false else s.pend.get e := by
  rw [afterDisarm_pend]
  split <;> simp [*, Per.get_set]

/-- A disarmed direction has its cursor at 0, and nothing pending unless late completions are admitted. -/
protected theorem State.Inv.afterDisarm (h : s.Inv) (d : Dir) : (afterDisarm d s).Inv := by
  obtain ⟨hp, hcur, hpend, hcfg, ⟨hmax, hnone, hfatal⟩, hring⟩ := State.inv_iff.1 h
  refine State.inv_iff.2 ⟨by simpa using hp, fun e => ?_, fun e => ?_, by simpa [CfgLegal] using hcfg,
    ⟨by simpa using hmax, fun hc => ?_, by simpa using hfatal⟩, by simpa [RingGood] using hring⟩
  · have hgood := hcur e
    simp only [CursorGood, afterDisarm_cur_get, afterDisarm_armed, afterDisarm_params, Per.get_set]
    by_cases he : e = d
    · subst e
      by_cases ha : s.armed.get d = true
      · simpa [ha] using pos_of_gt hgood.1
      · simpa [ha, CursorGood] using hgood
    · simpa [he] using hgood
  · have hgood := hpend e
    simp only [PendGood, afterDisarm_pend_get, afterDisarm_armed, afterDisarm_params, Per.get_set]
    by_cases he : e = d
    · subst e
      by_cases ha : s.armed.get d = true
      · simp +contextual [ha]
      · simpa [ha, PendGood] using hgood
    · simpa [he] using hgood
  · obtain ⟨h0, ha⟩ := hnone (by simpa using hc)
    refine ⟨by simpa using h0, ?_⟩
    cases d <;> simp [ha, Per.set]

theorem afterCall_setRef (c : DrvCall) (n : Nat) (s : State) :
    afterCall c (setRef n s) = setRef n (afterCall c s) := rfl

/-- Disarming does not look at the count. -/
theorem afterDisarm_setRef (d : Dir) (n : Nat) (s : State) :
    afterDisarm d (setRef n s) = setRef n (afterDisarm d s) := by
  simp only [afterDisarm, setRef_armed, setRef_params, afterCall_setRef, apply_ite (setRef n)]
  rfl

/-- The handler's reconciliation puts a cursor at the start of a segment. -/
protected theorem State.Inv.reconcile (h : s.Inv) {d : Dir} (p : Nat)
    (hd : s.armed.get d = true ∨ s.params.lateCompletion = true) : (reconcile d p s).Inv := by
  rcases reconcile_cases d p s with ⟨-, he⟩ | ⟨-, he⟩ <;> rw [he]
  · exact h
  · exact h.setCur (segStart_nextSegment_lt h.params _) hd

protected theorem State.Inv.notify (h : s.Inv) (d : Dir) : (notify d s).Inv := by
  rcases notify_cases d s with ⟨-, he⟩ | ⟨_, -, he⟩ <;> rw [he]
  · exact h
  · exact h.of_unread rfl

/-- An enabled handler finds its direction armed, or late completions admitted (42_completion R172). -/
theorem armed_or_late_of_irqEnabled {d : Dir} (h : irqEnabled d s = true) :
    s.armed.get d = true ∨ s.params.lateCompletion = true := by
  simp only [irqEnabled, Bool.and_eq_true, Bool.or_eq_true] at h
  obtain ⟨⟨-, ha⟩, -⟩ := h
  exact ha

theorem armed_of_doneEnabled {d : Dir} (h : doneEnabled d s = true) : s.armed.get d = true := by
  simp only [doneEnabled, Bool.and_eq_true] at h
  exact h.2

/-! ## The step -/

/-- Every effect of an instruction keeps the invariant. -/
protected theorem Effect.inv {i : Instr} (he : Effect s i t) (h : s.Inv) : t.Inv := by
  cases he with
  | refused r => exact h.markRefused r
  | cfgFail | flush | index => exact h.giveResult _
  | onTransmit | onReceive => exact (h.setCb _ _).giveResult _
  | cfgFirst _ _ hm hb _ hmax =>
    exact ((h.afterBringUp _).setCfg_setRef hm hb (Nat.pos_of_ne_zero hmax) one_ne_zero).giveResult _
  | cfgAgain _ _ hm hb _ hmax =>
    have hlt : s.ref < s.params.refMax := lt_of_le_of_ne h.session.1 hmax
    exact (h.setCfg_setRef hm hb hlt (Nat.succ_ne_zero _)).giveResult _
  | cfgFatal => exact ((h.afterBringUp _).raiseFatal _).giveResult _
  | endOne _ hr => exact (h.setRef (Nat.sub_le _ _) (by omega)).giveResult _
  | endLast =>
    simp only [afterDisarm_setRef, afterCall_setRef]
    have hdisarmed := ((h.afterDisarm .tx).afterDisarm .rx).afterCall (.deconfigure s.params.channel)
    exact (hdisarmed.setCfg_none_setRef_zero (by simp [Per.set])).giveResult _
  | endStopTx =>
    rw [afterCall_setRef]
    exact ((h.afterCall _).raiseFatal_setRef _ (Nat.zero_le _)).giveResult _
  | endStopRx =>
    rw [afterDisarm_setRef, afterCall_setRef]
    exact (((h.afterDisarm .tx).afterCall _).raiseFatal_setRef _ (Nat.zero_le _)).giveResult _
  | endRelease =>
    simp only [afterDisarm_setRef, afterCall_setRef]
    have hdisarmed := ((h.afterDisarm .tx).afterDisarm .rx).afterCall (.deconfigure s.params.channel)
    exact (hdisarmed.raiseFatal_setRef _ (Nat.zero_le _)).giveResult _
  | startFails | stopFails => exact ((h.afterCall _).raiseFatal _).giveResult _
  | enable _ _ hr => exact (h.afterArm _ _ hr).giveResult _
  | disable => exact (h.afterDisarm _).giveResult _
  | available _ _ hr | peekSample _ hr => exact (h.afterArm _ _ hr).takePos.giveResult _
  | readBlock _ hr _ hpos | readSample _ hr _ hpos =>
    have hqueried (c : SessionCfg) := (h.afterArm .rx c hr).takePos
    exact ((hqueried _).moveCur (by simpa using min_ringDist_le hpos.1) (by simp)).giveResult _
  | @write _ c _ o _ m _ hr _ hpos ho hm =>
    have hle : o ≤ startCursor .tx s := by
      rcases ho with ⟨-, rfl⟩ | ⟨v, c', -, -, rfl, -⟩
      · exact le_rfl
      · exact alignDown_le _ _
    have hstored := (h.setCur_afterArm c hr hle).takePos.setRing (m := m) (by simpa [KeepsRing] using hm)
    exact (hstored.moveCur (by simpa using min_ringDist_le hpos.1) (by simp)).giveResult _
  | queryFails _ _ _ _ hr => exact ((h.afterArm _ _ hr).takePos.raiseFatal _).giveResult _
  | queryFailsAligned _ hr =>
    exact ((h.setCur_afterArm _ hr (alignDown_le _ _)).takePos.raiseFatal _).giveResult _
  | advance _ ha hle => exact (h.moveCur hle ha).giveResult _
  | done hd => exact h.setPend fun _ => .inl (armed_of_doneEnabled hd)
  | @handler d _ hd =>
    have hentered : (takePos (setPend d false s)).Inv := (h.setPend (by simp)).takePos
    have ha := armed_or_late_of_irqEnabled hd
    exact (hentered.reconcile _ ha).notify _
  | handlerFails => exact (h.setPend (by simp)).takePos.raiseFatal _
  | received _ hm => exact h.setRing hm

/-- Every way a step answers a next state: it refuses words that spell no command, or it runs the command they
spell and moves past them (30_encoding R86, R87, R89). -/
theorem step_next (h : step s = .next t) :
    (∃ e, decode (upcoming s) = .reject e ∧ t = markRefused .encoding s) ∨
      ∃ i rest u, decode (upcoming s) = .ok i rest ∧ exec i s = .next u ∧ t = advancePc i.words u := by
  unfold step at h
  split at h
  · cases h
  · rename_i w ws hu
    rw [hu]
    split at h
    · rename_i e hd
      cases h
      exact .inl ⟨e, hd, rfl⟩
    · rename_i i rest hd
      split at h <;> cases h
      exact .inr ⟨i, rest, _, hd, ‹_›, rfl⟩

/-- Settles O3: a refused step writes the mark, every other step ends in the effect of its command and a move
of the index. -/
theorem stepKeepsInvariant : Obligations.StepKeepsInvariant := by
  intro s t hs h
  rcases step_next h with ⟨e, -, rfl⟩ | ⟨i, rest, u, -, hexec, rfl⟩
  · exact hs.markRefused _
  · exact ((exec_effect hexec).inv hs).advancePc _

end Sys2Proof.Machine
end

section
/-! O7: what an effect appends to the logs and the results (10_state R32, R33, 60_exceptions R235). -/

namespace Sys2Proof.Machine

variable {s t : State} {i : Instr}

/-- The handler calls no driver and hands no result to the host (60_exceptions R235, R244). -/
theorem afterHandler_drvLog_results (d : Dir) (h : Nat) (s : State) :
    (afterHandler d h s).drvLog = s.drvLog ∧ (afterHandler d h s).results = s.results := by
  obtain ⟨hframe, -, -⟩ := afterHandler_frame d h s
  exact ⟨(congrArg State.drvLog hframe :), (congrArg State.results hframe :)⟩

theorem reconcile_notifyLog_cb (d : Dir) (h : Nat) (s : State) :
    (reconcile d h s).notifyLog = s.notifyLog ∧ (reconcile d h s).cb = s.cb := by
  rcases reconcile_cases d h s with ⟨-, he⟩ | ⟨-, he⟩ <;> rw [he] <;> exact ⟨rfl, rfl⟩

/-- The handler notifies where a sink is registered, with its token, and nowhere else (42_completion R175). -/
theorem afterHandler_notifyLog (d : Dir) (h : Nat) (s : State) :
    (afterHandler d h s).notifyLog = s.notifyLog ∨
      ∃ k, s.cb.get d = some k ∧ (afterHandler d h s).notifyLog = s.notifyLog ++ [(d, k)] := by
  obtain ⟨hlog, hcb⟩ := reconcile_notifyLog_cb d h (takePos (setPend d false s))
  unfold afterHandler
  rcases notify_cases d (reconcile d h (takePos (setPend d false s))) with ⟨-, he⟩ | ⟨k, hk, he⟩ <;> rw [he]
  · exact .inl hlog
  · exact .inr ⟨k, by simpa [hcb] using hk, by simp [hlog]⟩

theorem Effect.notifyLog (h : Effect s i t) :
    t.notifyLog = s.notifyLog ∨
      ∃ d k, i = .irq d ∧ s.cb.get d = some k ∧ t.notifyLog = s.notifyLog ++ [(d, k)] := by
  cases h with
  | handler => exact (afterHandler_notifyLog _ _ s).imp_right fun ⟨k, hk⟩ => ⟨_, k, rfl, hk⟩
  | readBlock | readSample | write => exact .inl (by simp [moveCur_eq_setCur])
  | _ => exact .inl (by simp)

theorem Effect.drvLog (h : Effect s i t) : s.drvLog <+: t.drvLog := by
  cases h with
  | handler => exact ⟨[], by simp [afterHandler_drvLog_results]⟩
  | readBlock | readSample | write => simp [moveCur_eq_setCur, afterArm_drvLog]
  | _ => simp [afterArm_drvLog, afterDisarm_drvLog]

theorem Effect.results (h : Effect s i t) :
    t.results = s.results ∨ (IsCommand i ∧ ∃ r, t.results = s.results ++ [r]) := by
  cases h with
  | refused | done | handlerFails | received => exact .inl (by simp)
  | handler => exact .inl (afterHandler_drvLog_results _ _ s).2
  | startFails _ hi | queryFails _ _ hi => exact .inr ⟨Instr.arms_command hi, by simp⟩
  | enable _ hi | disable _ hi | stopFails _ hi | available _ hi =>
    refine .inr ⟨?_, by simp⟩
    rcases hi with ⟨rfl, -⟩ | ⟨rfl, -⟩ <;> decide
  | write _ _ _ _ hi =>
    refine .inr ⟨?_, by simp [moveCur_eq_setCur]⟩
    rcases hi with ⟨rfl, -⟩ | ⟨v, c, rfl, -⟩ <;> simp [Instr.cmdClass]
  | readBlock | readSample => exact .inr ⟨by simp [Instr.cmdClass], by simp [moveCur_eq_setCur]⟩
  | _ => exact .inr ⟨by simp [Instr.cmdClass], by simp⟩

/-- Settles O7: the parts are those of an effect. -/
theorem logsAreAppendedOnly : Obligations.LogsAreAppendedOnly := by
  intro i s t h
  have he := exec_effect h
  obtain ⟨l, hl⟩ := he.drvLog
  exact ⟨he.notifyLog, ⟨l, hl.symm⟩, he.results⟩

end Sys2Proof.Machine
end

section
/-! O9: which effect writes a cursor (10_state R21, 41_lifecycle R145, R150), said for both directions at once. -/

namespace Sys2Proof.Machine

variable {s t : State} {i : Instr}

/-- The items that move `cur[d]` by their own meaning. Arming, which puts it at the start of segment 1, and the
release of the last session, which puts it at 0, are not among them. -/
inductive MovesCur : Dir → Instr → Prop where
  | readBlock (n : BitVec 24) : MovesCur .rx (.rdb n)
  | readSample : MovesCur .rx .rds
  | writeBlock (p : List Byte) : MovesCur .tx (.wrb p)
  | writeSample (v : Word) : MovesCur .tx (.wrs v)
  | disableTransmit : MovesCur .tx .distx
  | disableReceive : MovesCur .rx .disrx
  | advance (d : Dir) (a : BitVec 23) : MovesCur d (.adv d a)
  | handler (d : Dir) : MovesCur d (.irq d)

theorem afterArm_cur_get (e : Dir) (c : SessionCfg) (s : State) (d : Dir) :
    (afterArm e c s).cur.get d = s.cur.get d ∨
      (e = d ∧ s.armed.get d = false ∧ (afterArm e c s).cur.get d = s.params.segSize) := by
  rcases afterArm_cases e c s with ⟨-, he⟩ | ⟨ha, he⟩ <;> rw [he]
  · exact .inl rfl
  · by_cases hd : d = e
    · subst e
      exact .inr ⟨rfl, ha, by simp⟩
    · exact .inl (by simp [Per.get_set_ne _ _ hd])

theorem afterDisarm_cur_get_cases (e : Dir) (s : State) (d : Dir) :
    (afterDisarm e s).cur.get d = s.cur.get d ∨ (afterDisarm e s).cur.get d = 0 := by
  rw [afterDisarm_cur_get]
  split
  · exact .inr rfl
  · exact .inl rfl

/-- The release disarms the transmitter, then the receiver (41_lifecycle R145). -/
theorem releaseDisarm_cur_get (s : State) (d : Dir) :
    (afterDisarm .rx (afterDisarm .tx s)).cur.get d = s.cur.get d ∨
      (afterDisarm .rx (afterDisarm .tx s)).cur.get d = 0 := by
  rcases afterDisarm_cur_get_cases .rx (afterDisarm .tx s) d with h | h
  · rw [h]
    exact afterDisarm_cur_get_cases .tx s d
  · exact .inr h

theorem afterHandler_cur_get_ne {d e : Dir} (hd : d ≠ e) (h : Nat) (s : State) :
    (afterHandler e h s).cur.get d = s.cur.get d := by
  obtain ⟨-, -, hcur | hcur⟩ := afterHandler_frame e h s <;> rw [hcur]
  exact Per.get_set_ne _ _ hd

/-- How the step of an item from `s` to `t` can leave `cur[d]`: it is as before, or the item is one that moves it,
or one that arms `d`, or it releases the last session. -/
def CursorWritten (d : Dir) (s : State) (i : Instr) (t : State) : Prop :=
  t.cur.get d = s.cur.get d ∨ MovesCur d i ∨
    (Instr.arms i = some d ∧ s.armed.get d = false ∧ t.cur.get d = s.params.segSize) ∨
    (i = .endSession ∧ t.ref = 0 ∧ t.cur.get d = 0)

theorem CursorWritten.of_movesCur {d e : Dir} (hi : MovesCur e i)
    (hother : d ≠ e → t.cur.get d = s.cur.get d) : CursorWritten d s i t := by
  by_cases hd : d = e
  · exact .inr (.inl (hd ▸ hi))
  · exact .inl (hother hd)

theorem CursorWritten.of_arms {d e : Dir} {c : SessionCfg} (hi : Instr.arms i = some e)
    (hcur : t.cur = (afterArm e c s).cur) : CursorWritten d s i t := by
  rcases afterArm_cur_get e c s d with h | ⟨rfl, ha, h⟩ <;> rw [← hcur] at h
  · exact .inl h
  · exact .inr (.inr (.inl ⟨hi, ha, h⟩))

theorem CursorWritten.of_release {d : Dir} (hr : t.ref = 0)
    (hcur : t.cur.get d = s.cur.get d ∨ t.cur.get d = 0) : CursorWritten d s .endSession t :=
  hcur.imp_right fun h => .inr (.inr ⟨rfl, hr, h⟩)

theorem Effect.cursorWritten (h : Effect s i t) (d : Dir) : CursorWritten d s i t := by
  cases h with
  | endLast | endRelease => exact .of_release (by simp) (by simpa using releaseDisarm_cur_get (setRef 0 s) d)
  | endStopRx => exact .of_release (by simp) (by simpa using afterDisarm_cur_get_cases .tx (setRef 0 s) d)
  | enable _ hi | available _ hi =>
    rcases hi with ⟨rfl, rfl⟩ | ⟨rfl, rfl⟩ <;> exact .of_arms rfl rfl
  | queryFails _ _ hi => exact .of_arms hi rfl
  | peekSample => exact .of_arms rfl rfl
  | disable _ hi =>
    rcases hi with ⟨rfl, rfl⟩ | ⟨rfl, rfl⟩
    · exact .of_movesCur .disableTransmit fun hd => by simp [afterDisarm_cur_get, hd]
    · exact .of_movesCur .disableReceive fun hd => by simp [afterDisarm_cur_get, hd]
  | readBlock => exact .of_movesCur (.readBlock _) fun hd => by simp [moveCur_eq_setCur, Per.get_set, hd]
  | readSample => exact .of_movesCur .readSample fun hd => by simp [moveCur_eq_setCur, Per.get_set, hd]
  | write _ _ _ _ hi =>
    rcases hi with ⟨rfl, -⟩ | ⟨v, c, rfl, -⟩
    · exact .of_movesCur (.writeBlock _) fun hd => by simp [moveCur_eq_setCur, Per.get_set, hd]
    · exact .of_movesCur (.writeSample _) fun hd => by simp [moveCur_eq_setCur, Per.get_set, hd]
  | queryFailsAligned => exact .of_movesCur (.writeSample _) fun hd => by simp [Per.get_set, hd]
  | advance => exact .of_movesCur (.advance _ _) fun hd => by simp [Per.get_set, hd]
  | handler => exact .of_movesCur (.handler _) fun hd => afterHandler_cur_get_ne hd _ s
  | _ => exact .inl (by simp)

/-- Settles O9: the list of R21 is `MovesCur` together with the items that arm the direction and `END`. -/
theorem cursorWriters : Obligations.CursorWriters := by
  intro i s t h
  have he := exec_effect h
  constructor
  · rcases he.cursorWritten .rx with hsame | hmoves | ⟨harms, hidle, hcur⟩ | ⟨hi, href, hcur⟩
    · exact .inl hsame
    · cases hmoves <;> simp
    · rcases Instr.arms_rx harms with rfl | rfl | ⟨n, rfl⟩ | rfl | rfl <;> simp_all
    · simp_all
  · rcases he.cursorWritten .tx with hsame | hmoves | ⟨harms, hidle, hcur⟩ | ⟨hi, href, hcur⟩
    · exact .inl hsame
    · cases hmoves <;> simp
    · rcases Instr.arms_tx harms with rfl | rfl | ⟨p, rfl⟩ | ⟨v, rfl⟩ <;> simp_all
    · simp_all

end Sys2Proof.Machine
end

section
/-! O10: which effect writes the count and the configuration (10_state R24, R25). -/

namespace Sys2Proof.Machine

variable {s t : State} {i : Instr}

theorem afterHandler_session (d : Dir) (h : Nat) (s : State) :
    (afterHandler d h s).ref = s.ref ∧ (afterHandler d h s).cfg = s.cfg := by
  obtain ⟨hframe, -, -⟩ := afterHandler_frame d h s
  exact ⟨(congrArg State.ref hframe :), (congrArg State.cfg hframe :)⟩

theorem Effect.session (h : Effect s i t) :
    (t.ref = s.ref ∧ t.cfg = s.cfg) ∨
      (∃ j r b m, i = .cfg j r b m ∧ t.ref = s.ref + 1 ∧ t.cfg = some ⟨j, r, b, m⟩) ∨
      (i = .endSession ∧ t.ref + 1 = s.ref ∧ (t.cfg = s.cfg ∨ (t.ref = 0 ∧ t.cfg = none))) := by
  cases h with
  | cfgFirst _ _ _ _ hr | cfgAgain _ _ _ _ hr =>
    exact .inr (.inl ⟨_, _, _, _, rfl, by simp [hr], rfl⟩)
  | endOne _ hr =>
    have hpos : s.ref - 1 + 1 = s.ref := by omega
    exact .inr (.inr ⟨rfl, hpos, .inl rfl⟩)
  | endLast _ hr => exact .inr (.inr ⟨rfl, by simp [hr], .inr ⟨by simp, rfl⟩⟩)
  | endStopTx _ hr | endStopRx _ hr | endRelease _ hr =>
    exact .inr (.inr ⟨rfl, by simp [hr], .inl (by simp)⟩)
  | handler => exact .inl (afterHandler_session _ _ s)
  | readBlock | readSample | write => exact .inl (by simp [moveCur_eq_setCur])
  | _ => exact .inl (by simp)

/-- Settles O10: an effect leaves the count and the configuration, or is one of `CFG` or of `END`. -/
theorem sessionWriters : Obligations.SessionWriters := fun _ _ _ h => (exec_effect h).session

end Sys2Proof.Machine
end

section
/-! O11: which effect writes the notification sinks and the pending bits (10_state R27, R28). -/

namespace Sys2Proof.Machine

variable {s t : State} {i : Instr}

theorem afterHandler_cb (d : Dir) (h : Nat) (s : State) : (afterHandler d h s).cb = s.cb := by
  obtain ⟨hframe, -, -⟩ := afterHandler_frame d h s
  exact (congrArg State.cb hframe :)

theorem Effect.cb (h : Effect s i t) :
    (t.cb.tx = s.cb.tx ∨ i = .ontx t.cb.tx) ∧ (t.cb.rx = s.cb.rx ∨ i = .onrx t.cb.rx) := by
  cases h with
  | onTransmit => exact ⟨.inr rfl, .inl rfl⟩
  | onReceive => exact ⟨.inl rfl, .inr rfl⟩
  | handler => simp [afterHandler_cb]
  | readBlock | readSample | write => simp [moveCur_eq_setCur]
  | _ => simp

/-- The command that disables a direction (41_lifecycle R148, R149). -/
def disableInstr : Dir → Instr
  | .tx => .distx
  | .rx => .disrx

/-- How the step of an item from `s` to `t` can leave `pend[d]`. -/
def PendWritten (d : Dir) (s : State) (i : Instr) (t : State) : Prop :=
  t.pend.get d = s.pend.get d ∨ (i = .done d ∧ t.pend.get d = true) ∨
    (t.pend.get d = false ∧ (i = .irq d ∨ (s.params.lateCompletion = false ∧
      (i = disableInstr d ∨ (i = .endSession ∧ t.ref = 0)))))

theorem afterDisarm_pend_get_cases (e : Dir) (s : State) (d : Dir) :
    (afterDisarm e s).pend.get d = s.pend.get d ∨
      (e = d ∧ s.params.lateCompletion = false ∧ (afterDisarm e s).pend.get d = false) := by
  rw [afterDisarm_pend_get]
  split
  · rename_i h
    obtain ⟨rfl, -, hlate⟩ := h
    exact .inr ⟨rfl, hlate, rfl⟩
  · exact .inl rfl

theorem releaseDisarm_pend_get (s : State) (d : Dir) :
    (afterDisarm .rx (afterDisarm .tx s)).pend.get d = s.pend.get d ∨
      (s.params.lateCompletion = false ∧ (afterDisarm .rx (afterDisarm .tx s)).pend.get d = false) := by
  rcases afterDisarm_pend_get_cases .rx (afterDisarm .tx s) d with h | ⟨-, hlate, h⟩
  · rw [h]
    exact (afterDisarm_pend_get_cases .tx s d).imp_right And.right
  · exact .inr ⟨by simpa using hlate, h⟩

theorem PendWritten.of_release {d : Dir} (href : t.ref = 0)
    (hpend : t.pend.get d = s.pend.get d ∨ (s.params.lateCompletion = false ∧ t.pend.get d = false)) :
    PendWritten d s .endSession t :=
  hpend.imp_right fun ⟨hlate, h⟩ => .inr ⟨h, .inr ⟨hlate, .inr ⟨rfl, href⟩⟩⟩

theorem PendWritten.of_disable {d e : Dir} (hpend : t.pend = (afterDisarm e s).pend) :
    PendWritten d s (disableInstr e) t := by
  rcases afterDisarm_pend_get_cases e s d with h | ⟨rfl, hlate, h⟩ <;> rw [← hpend] at h
  · exact .inl h
  · exact .inr (.inr ⟨h, .inr ⟨hlate, .inl rfl⟩⟩)

theorem PendWritten.of_handler {d e : Dir} (hpend : t.pend = s.pend.set e false) :
    PendWritten d s (.irq e) t := by
  by_cases hd : d = e
  · subst e
    exact .inr (.inr ⟨by rw [hpend, Per.get_set_same], .inl rfl⟩)
  · exact .inl (by rw [hpend, Per.get_set_ne _ _ hd])

theorem PendWritten.of_done {d e : Dir} : PendWritten d s (.done e) (setPend e true s) := by
  by_cases hd : d = e
  · subst e
    exact .inr (.inl ⟨rfl, by simp⟩)
  · exact .inl (Per.get_set_ne _ _ hd)

theorem Effect.pendWritten (h : Effect s i t) (d : Dir) : PendWritten d s i t := by
  cases h with
  | endLast | endRelease => exact .of_release (by simp) (by simpa using releaseDisarm_pend_get (setRef 0 s) d)
  | endStopRx =>
    refine .of_release (by simp) ?_
    simpa using (afterDisarm_pend_get_cases .tx (setRef 0 s) d).imp_right And.right
  | disable _ hi =>
    rcases hi with ⟨rfl, rfl⟩ | ⟨rfl, rfl⟩
    · exact .of_disable (e := .tx) rfl
    · exact .of_disable (e := .rx) rfl
  | done => exact .of_done
  | handler =>
    obtain ⟨-, hpend, -⟩ := afterHandler_frame _ _ s
    exact .of_handler hpend
  | handlerFails => exact .of_handler rfl
  | readBlock | readSample | write => exact .inl (by simp [moveCur_eq_setCur])
  | _ => exact .inl (by simp)

/-- Settles O11: the sinks together, the pending bits direction by direction. -/
theorem sinkAndPendingWriters : Obligations.SinkAndPendingWriters := by
  intro i s t h
  have he := exec_effect h
  obtain ⟨hcbTx, hcbRx⟩ := he.cb
  exact ⟨hcbTx, hcbRx, he.pendWritten .tx, he.pendWritten .rx⟩

end Sys2Proof.Machine
end

section
/-! O1, O2: the state at construction (10_state R40, 70_reset R270). -/

namespace Sys2Proof.Machine

/-- Settles O1: each field is read off `State.reset`; a ring that lists nothing reads as its draws. -/
theorem constructionState : Obligations.ConstructionState :=
  ⟨rfl, rfl, rfl, rfl, rfl, rfl, rfl, rfl, rfl, rfl, rfl, rfl, Config.params_lateCompletion, fun _ => rfl⟩

/-- Both cursors stand at offset 0 of a ring that is not empty. -/
theorem reset_cursorGood (d : Dir) : CursorGood d State.reset := by
  have hring : 8 ≤ Config.params.ringSize := (Legal.ring Config.params_legal).1
  cases d <;> exact ⟨Nat.lt_of_lt_of_le (by decide) hring, fun _ _ => rfl⟩

theorem reset_inv : State.reset.Inv := by
  refine State.inv_iff.2 ⟨Config.params_legal, reset_cursorGood, fun d => ?_, ?_, ?_, reset_ring_wf, ?_⟩
  · cases d <;> exact fun h => Bool.noConfusion h
  · exact fun c hc => by cases hc
  · exact ⟨Nat.zero_le _, fun _ => ⟨rfl, rfl⟩, fun _ _ => rfl⟩
  · exact fun c hc => absurd hc List.not_mem_nil

/-- Settles O2: the invariant holds of construction, and the log is empty with no session and nothing armed. -/
theorem constructionIsGood : Obligations.ConstructionIsGood :=
  ⟨reset_inv, fun _ => rfl, fun _ => rfl, fun _ => rfl⟩

end Sys2Proof.Machine
end

section
/-! O27: the step as the meaning of the decoded command (10_state R35, 30_encoding R89). -/

namespace Sys2Proof.Machine

/-- Settles O27: a stream that decodes to a command is not empty, so `step` fetches it. -/
theorem stepRunsTheDecodedCommand : Obligations.StepRunsTheDecodedCommand := by
  intro s i rest _ hd
  unfold step upcoming
  cases hw : s.stream.drop s.pc with
  | nil =>
    rw [hw] at hd
    cases hd
  | cons w ws =>
    rw [hw] at hd
    simp only [hd]
    cases exec i s <;> rfl

end Sys2Proof.Machine
end

section
/-! O12: which effect writes the ring (20_memory R50, R62). -/

namespace Sys2Proof.Machine

variable {s t : State} {i : Instr}

theorem afterHandler_ring (d : Dir) (h : Nat) (s : State) : (afterHandler d h s).ring = s.ring := by
  obtain ⟨hframe, -, -⟩ := afterHandler_frame d h s
  exact (congrArg State.ring hframe :)

/-- The ring is written by the two write commands and by the DMA engine, and by nothing else. -/
theorem Effect.ring (h : Effect s i t) :
    t.ring = s.ring ∨ (∃ p, i = .wrb p) ∨ (∃ v, i = .wrs v) ∨ ∃ n x, i = .rxw n x := by
  cases h with
  | write _ _ _ _ hi =>
    rcases hi with ⟨rfl, -⟩ | ⟨v, c, rfl, -⟩
    · exact .inr (.inl ⟨_, rfl⟩)
    · exact .inr (.inr (.inl ⟨v, rfl⟩))
  | received => exact .inr (.inr (.inr ⟨_, _, rfl⟩))
  | handler => exact .inl (afterHandler_ring _ _ s)
  | readBlock | readSample => exact .inl (by simp [moveCur_eq_setCur])
  | _ => exact .inl (by simp)

/-- Settles O12: the field `ring` is not written, and the bytes depend on it alone. -/
theorem otherCommandsLeaveTheRing : Obligations.OtherCommandsLeaveTheRing := by
  intro i s t h hwrb hwrs hrxw
  rcases (exec_effect h).ring with hring | ⟨p, hi⟩ | ⟨v, hi⟩ | ⟨n, x, hi⟩
  · exact ringByte_congr hring
  · exact absurd hi (hwrb p)
  · exact absurd hi (hwrs v)
  · exact absurd hi (hrxw n x)

end Sys2Proof.Machine
end

section
/-! O5: no command or event stops the model in a good state (20_memory R65). The two stops are a sample width
with no configuration and an access outside the ring: what the prelude ensures rules out both, and each
operation after it keeps that. -/

namespace Sys2Proof.Machine

variable {s : State}

/-! ## What an operation ensures -/

/-- `x` does not stop the model, and where it goes on, its value and state meet `Q`. -/
def Ret.Ensures {α : Type} (Q : α → State → Prop) : Ret α → Prop
  | .ok a s => Q a s
  | .fatal _ _ => True
  | .refuse _ => True
  | .fault _ => False

/-- `x` does not stop the model. -/
abbrev Ret.NeverStops {α : Type} (x : Ret α) : Prop := x.Ensures fun _ _ => True

section Ensures

variable {α β : Type} {Q : α → State → Prop} {R : β → State → Prop}

theorem Ret.not_ensures_fault (f : Fault) : ¬(Ret.fault f : Ret α).Ensures Q := id

theorem Ret.Ensures.bind {x : Ret α} {f : α → State → Ret β} (hx : x.Ensures Q)
    (hf : ∀ a s, Q a s → (f a s).Ensures R) : (x.bind f).Ensures R := by
  cases x with
  | ok a s => exact hf a s hx
  | fatal | refuse => trivial
  | fault => exact hx

/-- A sequence ends well when all that is left after its first part is to give a value and a state. -/
theorem Ret.Ensures.bind_ok {x : Ret α} {g : α → State → β} {u : α → State → State} (hx : x.Ensures Q) :
    (x.bind fun a s => .ok (g a s) (u a s)).NeverStops :=
  hx.bind fun _ _ _ => trivial

end Ensures

theorem command_answers {body : State → Ret Result} (h : (body s).NeverStops) :
    ∃ t, command body s = .next t := by
  unfold command
  split
  · exact ⟨_, rfl⟩
  · split
    · exact ⟨_, rfl⟩
    · cases hb : body s with
      | ok | fatal | refuse => exact ⟨_, rfl⟩
      | fault f => exact absurd (hb ▸ h) (Ret.not_ensures_fault f)

theorem event_answers {enabled : Bool} {body : State → Ret Unit}
    (h : enabled = true → (body s).NeverStops) : ∃ t, event enabled body s = .next t := by
  unfold event
  split
  · rename_i he
    cases hb : body s with
    | ok | fatal | refuse => exact ⟨_, rfl⟩
    | fault f => exact absurd (hb ▸ h he) (Ret.not_ensures_fault f)
  · exact ⟨_, rfl⟩

/-! ## What the shared operations ensure -/

theorem bringUp_neverStops (c : SessionCfg) (s : State) : (bringUp c s).NeverStops := by
  rw [bringUp_eq]
  cases nextOk s <;> trivial

theorem disarm_neverStops (d : Dir) (s : State) : (disarm d s).NeverStops := by
  rcases disarm_cases d s with h | ⟨-, h⟩ <;> rw [h] <;> trivial

theorem releaseAll_neverStops (s : State) : (releaseAll s).NeverStops := by
  rcases releaseAll_cases s with h | ⟨-, h⟩ | ⟨-, h⟩ | h <;> rw [h] <;> trivial

/-- A transfer for `d` is possible: there is a sample width, and the cursor lies in the ring. -/
def TransferReady (d : Dir) (s : State) : Prop := (∃ c, s.cfg = some c) ∧ s.cur.get d < s.params.ringSize

/-- In a good state a session has a configuration, so arming finds a sample width (43_streaming R190). -/
theorem prelude_ensures (h : s.Inv) (d : Dir) : (prelude d s).Ensures fun _ t => TransferReady d t := by
  unfold prelude
  split
  · trivial
  · rename_i hr
    obtain ⟨hcur, -⟩ := h.cursorGood d
    obtain ⟨-, hnone, -⟩ := h.session
    cases hc : s.cfg with
    | none => exact absurd (hnone hc).1 hr
    | some c =>
      rw [arm_eq hc]
      split
      · exact ⟨⟨c, hc⟩, hcur⟩
      · split
        · exact ⟨⟨c, hc⟩, by simpa using Legal.segSize_lt h.params⟩
        · trivial

theorem sampleWidth_ensures {d : Dir} (h : TransferReady d s) :
    (sampleWidth s).Ensures fun _ t => t = s := by
  obtain ⟨⟨c, hc⟩, -⟩ := h
  rw [sampleWidth, hc]
  rfl

/-- A query moves no cursor, and a position that it goes on with lies in the ring (42_completion R170). -/
theorem queryPos_ensures {d : Dir} (h : TransferReady d s) :
    (queryPos s).Ensures fun p t => TransferReady d t ∧ p < t.params.ringSize := by
  rcases queryPos_cases s with ⟨p, ⟨hp, -⟩, hq⟩ | ⟨-, hq⟩ <;> rw [hq]
  · exact ⟨h, hp⟩
  · trivial

theorem truncated_le {d : Dir} {n h : Nat} (hh : h < s.params.ringSize) :
    truncated d n h s ≤ s.params.ringSize := min_ringDist_le hh

theorem ringRead_neverStops {o n : Nat} (ho : o < s.params.ringSize) (hn : n ≤ s.params.ringSize) :
    (ringRead o n s).NeverStops := by
  rw [ringRead_inside ho hn]
  trivial

theorem ringWrite_neverStops {o : Nat} {bs : List Byte} (ho : o < s.params.ringSize)
    (hn : bs.length ≤ s.params.ringSize) : (ringWrite o bs s).NeverStops := by
  rw [ringWrite_inside ho hn]
  trivial

theorem writeOut_neverStops (bs : List Byte) (h : TransferReady .tx s) : (writeOut bs s).NeverStops := by
  refine (queryPos_ensures h).bind fun p u ⟨⟨_, hcur⟩, hp⟩ => ?_
  have hle : (bs.take (truncated .tx bs.length p u)).length ≤ u.params.ringSize :=
    (List.length_take_le _ _).trans (truncated_le hp)
  exact (ringWrite_neverStops hcur hle).bind_ok

theorem sampleAtCur_neverStops (h : s.Inv) : (sampleAtCur s).NeverStops := by
  refine (prelude_ensures h .rx).bind fun _ u hu => (sampleWidth_ensures hu).bind ?_
  rintro wb _ rfl
  refine (queryPos_ensures hu).bind fun p v ⟨⟨_, hcur⟩, hp⟩ => ?_
  exact (ringRead_neverStops hcur (truncated_le hp)).bind_ok

/-! ## The bodies of the commands and events -/

theorem configure_neverStops (c : SessionCfg) (s : State) : (configure c s).NeverStops := by
  unfold configure
  split
  · trivial
  · split
    · trivial
    · split
      · exact (bringUp_neverStops c s).bind_ok
      · trivial

theorem execEndSession_answers (s : State) : ∃ t, execEndSession s = .next t := by
  refine command_answers ?_
  split
  · trivial
  · simp only []
    split
    · exact (releaseAll_neverStops _).bind_ok
    · trivial

/-- The two checks of an enable are the prelude of a data command (41_lifecycle R150). -/
theorem enable_neverStops (h : s.Inv) (d : Dir) : (enable d s).NeverStops := by
  have he : enable d s = (prelude d s).bind fun _ u => .ok .success u := by
    unfold enable prelude
    split <;> rfl
  rw [he]
  exact (prelude_ensures h d).bind_ok

theorem disable_neverStops (d : Dir) (s : State) : (disable d s).NeverStops :=
  (disarm_neverStops d s).bind_ok

theorem available_neverStops (h : s.Inv) (d : Dir) : (available d s).NeverStops :=
  (prelude_ensures h d).bind fun _ _ hu => (queryPos_ensures hu).bind_ok

theorem execRdb_answers (h : s.Inv) (n : BitVec 24) : ∃ t, execRdb n s = .next t := by
  refine command_answers ((prelude_ensures h .rx).bind fun _ u hu => ?_)
  refine (queryPos_ensures hu).bind fun p v ⟨⟨_, hcur⟩, hp⟩ => ?_
  exact (ringRead_neverStops hcur (truncated_le hp)).bind_ok

theorem execRds_answers (h : s.Inv) : ∃ t, execRds s = .next t :=
  command_answers (sampleAtCur_neverStops h).bind_ok

theorem execPks_answers (h : s.Inv) : ∃ t, execPks s = .next t :=
  command_answers (sampleAtCur_neverStops h).bind_ok

theorem execWrb_answers (h : s.Inv) (payload : List Byte) : ∃ t, execWrb payload s = .next t :=
  command_answers ((prelude_ensures h .tx).bind fun _ _ hu => writeOut_neverStops payload hu)

/-- Aligning moves the cursor down, so it stays in the ring (40_ring R118). -/
theorem execWrs_answers (h : s.Inv) (v : Word) : ∃ t, execWrs v s = .next t := by
  refine command_answers ((prelude_ensures h .tx).bind fun _ u hu => (sampleWidth_ensures hu).bind ?_)
  rintro wb _ rfl
  exact writeOut_neverStops _ ⟨hu.1, (alignDown_le _ wb).trans_lt hu.2⟩

theorem execFls_answers (s : State) : ∃ t, execFls s = .next t := command_answers trivial

theorem execOntx_answers (k : Option (BitVec 16)) (s : State) : ∃ t, execOntx k s = .next t :=
  command_answers trivial

theorem execOnrx_answers (k : Option (BitVec 16)) (s : State) : ∃ t, execOnrx k s = .next t :=
  command_answers trivial

theorem execAdv_answers (d : Dir) (a : BitVec 23) (s : State) : ∃ t, execAdv d a s = .next t := by
  refine command_answers ?_
  split
  · split <;> trivial
  · trivial

theorem execIdx_answers (o : BitVec 24) (s : State) : ∃ t, execIdx o s = .next t := by
  refine command_answers ?_
  split <;> trivial

theorem execDone_answers (d : Dir) (s : State) : ∃ t, execDone d s = .next t :=
  event_answers fun _ => trivial

theorem execIrq_answers (d : Dir) (s : State) : ∃ t, execIrq d s = .next t := by
  refine event_answers fun _ => ?_
  rcases queryPos_cases (enterHandler d s) with ⟨p, -, hq⟩ | ⟨-, hq⟩ <;> rw [hq] <;> trivial

/-- The engine's byte goes to an offset that its enable condition puts in the ring (42_completion R179). -/
theorem execRxw_answers (n : BitVec 24) (x : Byte) (s : State) : ∃ t, execRxw n x s = .next t := by
  refine event_answers fun he => ?_
  simp only [rxwEnabled, Bool.and_eq_true, decide_eq_true_eq] at he
  obtain ⟨-, hn⟩ := he
  rw [memWrite_inside (bs := [x]) hn]
  trivial

/-! ## Every item, and the step -/

/-- In a good state every command and every event answers a next state (20_memory R65). -/
theorem exec_answers (h : s.Inv) (i : Instr) : ∃ t, exec i s = .next t := by
  cases i with
  | cfg => exact command_answers (configure_neverStops _ s)
  | endSession => exact execEndSession_answers s
  | avr | avw => exact command_answers (available_neverStops h _)
  | rdb n => exact execRdb_answers h n
  | wrb p => exact execWrb_answers h p
  | rds => exact execRds_answers h
  | pks => exact execPks_answers h
  | wrs v => exact execWrs_answers h v
  | fls => exact execFls_answers s
  | ontx k => exact execOntx_answers k s
  | onrx k => exact execOnrx_answers k s
  | entx | enrx => exact command_answers (enable_neverStops h _)
  | distx | disrx => exact command_answers (disable_neverStops _ s)
  | adv d a => exact execAdv_answers d a s
  | idx o => exact execIdx_answers o s
  | done d => exact execDone_answers d s
  | irq d => exact execIrq_answers d s
  | rxw n x => exact execRxw_answers n x s

theorem step_endOfStream (h : upcoming s = []) : step s = .refused .endOfStream := by
  unfold step
  rw [h]

theorem step_answers (hs : s.Inv) (hw : upcoming s ≠ []) : ∃ t, step s = .next t := by
  unfold step
  split
  · exact absurd ‹_› hw
  · split
    · exact ⟨_, rfl⟩
    · rename_i i _ _
      obtain ⟨t, ht⟩ := exec_answers hs i
      exact ⟨_, by rw [ht]⟩

/-- Settles O5: what decodes to an item is run and answers, other words are refused, and where
no word is left the step says so. -/
theorem noStepGetsStuck : Obligations.NoStepGetsStuck :=
  fun _ hs => ⟨step_answers hs, step_endOfStream⟩

end Sys2Proof.Machine
end


section
/-! O20, O21: decoding and encoding are inverse (30_encoding R81, R83, R85, R87, R88). A command is its opcode, the
number in bits `[31:8]` of word 0 and the words after it; the decoder answers exactly the command of the three. -/

namespace Sys2Proof

/-! ## The parts of a command -/

/-- The opcode column of 30_encoding R85. -/
def Instr.opcode : Instr → Nat
  | .cfg _ _ _ _ => 0x01
  | .endSession => 0x02
  | .avr => 0x03
  | .avw => 0x04
  | .rdb _ => 0x05
  | .wrb _ => 0x06
  | .rds => 0x07
  | .pks => 0x08
  | .wrs _ => 0x09
  | .fls => 0x0A
  | .ontx _ => 0x0B
  | .onrx _ => 0x0C
  | .entx => 0x10
  | .enrx => 0x11
  | .distx => 0x12
  | .disrx => 0x13
  | .adv _ _ => 0x18
  | .idx _ => 0x19
  | .done _ => 0x20
  | .irq _ => 0x21
  | .rxw _ _ => 0x22

/-- The number in bits `[31:8]` of word 0 (30_encoding R81). -/
def Instr.upperBits : Instr → Nat
  | .cfg mode _ bits master => mode.toNat + 2 ^ 8 * bits.toNat + 2 ^ 16 * master.toNat
  | .rdb count => count.toNat
  | .wrb payload => payload.length
  | .ontx token | .onrx token => bitsFR token
  | .adv d amount => bitOfDir d + 2 * amount.toNat
  | .idx offset | .rxw offset _ => offset.toNat
  | .done d | .irq d => bitOfDir d
  | _ => 0

/-- The words after word 0 (30_encoding R81, R88). -/
def Instr.laterWords : Instr → List Word
  | .cfg _ rate _ _ => [rate]
  | .wrb payload => packPayload payload
  | .wrs sample => [sample]
  | .rxw _ x => [BitVec.ofNat 32 x.toNat]
  | _ => []

theorem encode_eq (i : Instr) : encode i = word0 i.opcode i.upperBits :: i.laterWords := by
  cases i <;> rfl

theorem Instr.opcode_lt (i : Instr) : i.opcode < 2 ^ 8 := by cases i <;> norm_num [opcode]

/-- Every field but the count of `WRB` is typed by its width, so the bits fit exactly when the count does
(30_encoding R90). -/
theorem Instr.wellFormed_iff (i : Instr) : i.wellFormed = true ↔ i.upperBits < 2 ^ 24 := by
  cases i with
  | cfg mode _ bits master =>
    have := master.toNat_lt
    simp only [wellFormed, upperBits, true_iff]
    omega
  | rdb n | idx n | rxw n => simpa [wellFormed, upperBits] using n.isLt
  | wrb p => simp [wellFormed, upperBits, payloadFits]
  | ontx k | onrx k => simpa [wellFormed, upperBits] using bitsFR_lt k
  | adv d n =>
    have := bitOfDir_lt d
    simp only [wellFormed, upperBits, true_iff]
    omega
  | done d | irq d => cases d <;> decide
  | _ => simp [wellFormed, upperBits]

theorem fieldO_word0 {o : Nat} (r : Nat) (ho : o < 2 ^ 8) : (fieldO (word0 o r)).toNat = o := by
  simp only [fieldO_toNat, word0, BitVec.toNat_ofNat]
  omega

theorem fieldN_word0 {o r : Nat} (ho : o < 2 ^ 8) (hr : r < 2 ^ 24) : (fieldN (word0 o r)).toNat = r := by
  rw [fieldN_toNat, word0_toNat ho hr]
  omega

/-! ## The payload of `WRB` -/

theorem bytesOfWords_injective : Function.Injective bytesOfWords := fun v w h => by
  simpa [wordsOfBytes_bytesOfWords] using congrArg wordsOfBytes h

/-- The payload words are the payload and the zero bytes that fill the last word (30_encoding R88). -/
theorem bytesOfWords_packPayload_eq (p : List Byte) :
    bytesOfWords (packPayload p) = p ++ List.replicate (4 * payloadWords p.length - p.length) 0 := by
  obtain ⟨k, hk⟩ := bytesOfWords_packPayload p
  have hlen := congrArg List.length hk
  rw [bytesOfWords_length, packPayload_length, List.length_append, List.length_replicate] at hlen
  rw [hk, hlen, Nat.add_sub_cancel_left]

/-- Words whose bytes from `n` on are zero are the payload words of their first `n` bytes. -/
theorem packPayload_take_bytesOfWords {n : Nat} {ws : List Word} (hlen : ws.length = payloadWords n)
    (hzero : ∀ b ∈ (bytesOfWords ws).drop n, b = 0) : packPayload ((bytesOfWords ws).take n) = ws := by
  have htake : ((bytesOfWords ws).take n).length = n := by
    rw [List.length_take, bytesOfWords_length, hlen, payloadWords]
    omega
  apply bytesOfWords_injective
  rw [bytesOfWords_packPayload_eq, htake, ← hlen, ← bytesOfWords_length, ← List.length_drop,
    ← List.eq_replicate_of_mem hzero, List.take_append_drop]

/-! ## What each format accepts -/

section Formats

variable {w : Word} {ws rest : List Word} {i j : Instr}

theorem decodeF0_ok_iff : decodeF0 i w ws = .ok j rest ↔ (fieldN w).toNat = 0 ∧ i = j ∧ ws = rest := by
  unfold decodeF0
  rw [← field_zero_iff]
  split <;> simp_all

theorem decodeFV_ok_iff :
    decodeFV w ws = .ok i rest ↔ ∃ v, (fieldN w).toNat = 0 ∧ .wrs v = i ∧ ws = v :: rest := by
  rw [← field_zero_iff]
  cases ws <;> simp only [decodeFV] <;> split <;> simp_all

theorem bool_eq_iff_toNat {b c : Bool} : b = c ↔ b.toNat = c.toNat :=
  (Function.LeftInverse.injective Bool.ofNat_toNat).eq_iff.symm

/-- The fields of format FC, read from bits `[31:8]` as one number. -/
theorem fieldsFC_iff {mode bits : BitVec 8} {master : Bool} :
    zeroFC w = 0 ∧ fieldJ w = mode ∧ fieldB w = bits ∧ fieldM w = master ↔
      (fieldN w).toNat = mode.toNat + 2 ^ 8 * bits.toNat + 2 ^ 16 * master.toNat := by
  have hmode := mode.isLt
  have hbits := bits.isLt
  have hmaster := master.toNat_lt
  rw [field_zero_iff, ← BitVec.toNat_inj, ← BitVec.toNat_inj, bool_eq_iff_toNat, zeroFC_toNat,
    fieldJ_toNat, fieldB_toNat, fieldM_toNat, fieldN_toNat]
  omega

theorem decodeFC_ok_iff :
    decodeFC w ws = .ok i rest ↔ ∃ mode rate bits master,
      (fieldN w).toNat = mode.toNat + 2 ^ 8 * bits.toNat + 2 ^ 16 * master.toNat ∧
        .cfg mode rate bits master = i ∧ ws = rate :: rest := by
  simp only [← fieldsFC_iff]
  cases ws <;> simp only [decodeFC] <;> split <;> simp_all

/-- The fields of format FR, read from bits `[31:8]` as one number. -/
theorem fieldsFR_iff {k : Option (BitVec 16)} :
    zeroFR w = 0 ∧ fieldBit8 w = k.isSome ∧ fieldT w = k.getD 0#16 ↔ (fieldN w).toNat = bitsFR k := by
  rw [field_zero_iff, ← BitVec.toNat_inj, bool_eq_iff_toNat, zeroFR_toNat, fieldT_toNat,
    fieldBit8_toNat, fieldN_toNat]
  cases k with
  | none =>
    simp only [bitsFR, Option.isSome_none, Bool.toNat_false, Option.getD_none, BitVec.toNat_zero]
    omega
  | some t =>
    have ht := t.isLt
    simp only [bitsFR, Option.isSome_some, Bool.toNat_true, Option.getD_some]
    omega

theorem decodeFR_ok_iff {mk : Option (BitVec 16) → Instr} :
    decodeFR mk w ws = .ok i rest ↔ ∃ k, (fieldN w).toNat = bitsFR k ∧ mk k = i ∧ ws = rest := by
  simp only [← fieldsFR_iff, decodeFR, Option.exists]
  repeat' split
  all_goals simp_all

/-- The fields of `ADV`, and of format FD with `A = 0`, read from bits `[31:8]` as one number. -/
theorem fieldsFD_iff {d : Dir} {a : BitVec 23} :
    fieldA w = a ∧ dirOfBit (fieldBit8 w) = d ↔ (fieldN w).toNat = bitOfDir d + 2 * a.toNat := by
  have hdir : dirOfBit (fieldBit8 w) = d ↔ (fieldBit8 w).toNat = bitOfDir d :=
    ⟨fun h => h ▸ (bitOfDir_dirOfBit _).symm, dirOfBit_of_bit⟩
  have hd := bitOfDir_lt d
  rw [hdir, ← BitVec.toNat_inj, fieldA_toNat, fieldBit8_toNat, fieldN_toNat]
  omega

theorem decodeFD_ok_iff {mk : Dir → Instr} :
    decodeFD mk w ws = .ok i rest ↔ ∃ d, (fieldN w).toNat = bitOfDir d ∧ mk d = i ∧ ws = rest := by
  have hfields (d : Dir) := fieldsFD_iff (w := w) (d := d) (a := 0#23)
  simp only [BitVec.toNat_zero, mul_zero, add_zero] at hfields
  simp only [← hfields, decodeFD]
  split <;> simp_all

/-- Word 1 of format FW holds one byte, the bits above it are zero. -/
theorem eq_ofNat_iff_fields {v : Word} {x : Byte} :
    v = BitVec.ofNat 32 x.toNat ↔ fieldN v = 0 ∧ fieldX v = x := by
  rw [field_zero_iff, ← BitVec.toNat_inj, ← BitVec.toNat_inj, fieldN_toNat, fieldX_toNat, BitVec.toNat_ofNat]
  have hx := x.isLt
  have hv := v.isLt
  omega

theorem decodeFW_ok_iff :
    decodeFW w ws = .ok i rest ↔ ∃ x : Byte, .rxw (fieldN w) x = i ∧ ws = BitVec.ofNat 32 x.toNat :: rest := by
  cases ws with
  | nil => simp [decodeFW]
  | cons v ws =>
    simp only [decodeFW, List.cons.injEq, eq_ofNat_iff_fields]
    split <;> simp_all

theorem takeWords_packPayload (p : List Byte) (rest : List Word) :
    takeWords (payloadWords p.length) (packPayload p ++ rest) = some (packPayload p, rest) := by
  simp [takeWords_eq, ← packPayload_length]

theorem decodeWrb_ok_iff :
    decodeWrb w ws = .ok i rest ↔
      ∃ p, (fieldN w).toNat = p.length ∧ .wrb p = i ∧ ws = packPayload p ++ rest := by
  constructor
  · intro h
    simp only [decodeWrb, takeWords_eq] at h
    split at h
    · cases h
    · rename_i payload _ htake
      split at htake <;> cases htake
      split at h <;> cases h
      rename_i hle hzero
      have hlen : (ws.take (payloadWords (fieldN w).toNat)).length = payloadWords (fieldN w).toNat :=
        List.length_take_of_le hle
      refine ⟨_, ?_, rfl, ?_⟩
      · rw [List.length_take, bytesOfWords_length, hlen, payloadWords]
        omega
      · rw [packPayload_take_bytesOfWords hlen (by simpa using hzero), List.take_append_drop]
  · rintro ⟨p, hn, rfl, rfl⟩
    simp [decodeWrb, hn, takeWords_packPayload, bytesOfWords_packPayload_eq]

end Formats

/-! ## Decoding and encoding -/

/-- What the decoder accepts: the opcode, the bits above it and the later words are those of the command. -/
theorem decode_ok_iff {w : Word} {ws rest : List Word} {i : Instr} :
    decode (w :: ws) = .ok i rest ↔
      (fieldO w).toNat = i.opcode ∧ (fieldN w).toNat = i.upperBits ∧ ws = i.laterWords ++ rest := by
  constructor
  · intro h
    simp only [decode] at h
    split at h
    case h_1 ho =>
      obtain ⟨_, _, _, _, hn, rfl, rfl⟩ := decodeFC_ok_iff.mp h
      exact ⟨ho, hn, rfl⟩
    case h_5 ho | h_18 ho =>
      cases h
      exact ⟨ho, rfl, rfl⟩
    case h_6 ho =>
      obtain ⟨p, hn, rfl, rfl⟩ := decodeWrb_ok_iff.mp h
      exact ⟨ho, hn, rfl⟩
    case h_9 ho =>
      obtain ⟨v, hn, rfl, rfl⟩ := decodeFV_ok_iff.mp h
      exact ⟨ho, hn, rfl⟩
    case h_11 ho | h_12 ho =>
      obtain ⟨k, hn, rfl, rfl⟩ := decodeFR_ok_iff.mp h
      exact ⟨ho, hn, rfl⟩
    case h_17 ho =>
      cases h
      exact ⟨ho, fieldsFD_iff.mp ⟨rfl, rfl⟩, rfl⟩
    case h_19 ho | h_20 ho =>
      obtain ⟨d, hn, rfl, rfl⟩ := decodeFD_ok_iff.mp h
      exact ⟨ho, hn, rfl⟩
    case h_21 ho =>
      obtain ⟨x, rfl, rfl⟩ := decodeFW_ok_iff.mp h
      exact ⟨ho, rfl, rfl⟩
    case h_22 => cases h
    all_goals
      obtain ⟨hn, rfl, rfl⟩ := decodeF0_ok_iff.mp h
      exact ⟨‹_›, hn, rfl⟩
  · rintro ⟨ho, hn, hws⟩
    simp only [decode, ho]
    cases i with
    | cfg => exact decodeFC_ok_iff.mpr ⟨_, _, _, _, hn, rfl, hws⟩
    | rdb n | idx n =>
      obtain rfl := BitVec.eq_of_toNat_eq hn
      exact congrArg _ hws
    | wrb p => exact decodeWrb_ok_iff.mpr ⟨p, hn, rfl, hws⟩
    | wrs v => exact decodeFV_ok_iff.mpr ⟨v, hn, rfl, hws⟩
    | ontx k | onrx k => exact decodeFR_ok_iff.mpr ⟨k, hn, rfl, hws⟩
    | adv d n =>
      obtain ⟨rfl, rfl⟩ := fieldsFD_iff.mpr hn
      exact congrArg _ hws
    | done d | irq d => exact decodeFD_ok_iff.mpr ⟨d, hn, rfl, hws⟩
    | rxw n x =>
      obtain rfl := BitVec.eq_of_toNat_eq hn
      exact decodeFW_ok_iff.mpr ⟨x, rfl, hws⟩
    | _ => exact decodeF0_ok_iff.mpr ⟨hn, rfl, hws⟩

/-- A stream decodes to a command exactly when the command is well formed and its encoding starts the stream. -/
theorem decode_eq_ok_iff {ws rest : List Word} {i : Instr} :
    decode ws = .ok i rest ↔ i.wellFormed = true ∧ encode i ++ rest = ws := by
  cases ws with
  | nil => simp [decode, encode_eq]
  | cons w ws =>
    rw [decode_ok_iff, encode_eq, List.cons_append, List.cons.injEq, i.wellFormed_iff]
    constructor
    · rintro ⟨ho, hn, rfl⟩
      rw [← ho, ← hn, word0_of_fields]
      exact ⟨(fieldN w).isLt, rfl, rfl⟩
    · rintro ⟨hlt, rfl, rfl⟩
      exact ⟨fieldO_word0 _ i.opcode_lt, fieldN_word0 i.opcode_lt hlt, rfl⟩

/-- Settles O20: the encoding of a command has its opcode, its bits and its later words. -/
theorem decodeOfEncode : Obligations.DecodeOfEncode :=
  fun _ _ h => decode_eq_ok_iff.mpr ⟨h, rfl⟩

/-- Settles O21: a stream that decodes is the encoding of the command, followed by the rest. -/
theorem encodeOfDecode : Obligations.EncodeOfDecode :=
  fun _ _ _ h => decode_eq_ok_iff.mp h

end Sys2Proof
end

section
/-! O22, O24, O25: words that spell no command (30_encoding R86, R87, R88), and words the spec writes out. Words that
decode are those of a command (`decode_ok_iff`), so each refused field is shown to be zero in every command. -/

namespace Sys2Proof.Machine

/-- Settles O22: each list of words is run through the decoder. -/
theorem specWordsDecode : Obligations.SpecWordsDecode := by
  unfold Obligations.SpecWordsDecode
  decide

section Words

variable {w : Word} {ws : List Word}

/-- Words that decode to no command are refused by the decoder, and by a step that finds them. -/
theorem refusedWords_of_forall_ne (h : ∀ i rest, decode (w :: ws) ≠ .ok i rest) : RefusedWords (w :: ws) := by
  cases hd : decode (w :: ws) with
  | ok i rest => exact absurd hd (h i rest)
  | reject e =>
    refine ⟨⟨e, hd⟩, fun s hs => ?_⟩
    simp only [step, hs, hd, refuseStep]

/-- Words are refused when no command has their opcode, their bits above it and later words that begin theirs. -/
theorem refusedWords_of_fields
    (h : ∀ (i : Instr) rest, (fieldO w).toNat = i.opcode → (fieldN w).toNat = i.upperBits →
      ws = i.laterWords ++ rest → False) : RefusedWords (w :: ws) :=
  refusedWords_of_forall_ne fun i rest hd => by
    obtain ⟨ho, hn, hws⟩ := decode_ok_iff.mp hd
    exact h i rest ho hn hws

end Words

/-- Settles O24: the opcode of every command is in the map. -/
theorem reservedOpcodesAreRefused : Obligations.ReservedOpcodesAreRefused := by
  intro w ws ho
  refine refusedWords_of_fields fun i _ hi _ _ => ho ?_
  change (fieldO w).toNat ∈ _
  rw [hi]
  cases i <;> simp [Instr.opcode]

/-! ## The must-be-zero bits, format by format (30_encoding R87) -/

section Formats

variable {w : Word} {ws : List Word}

theorem refusedWords_F0
    (ho : (fieldO w).toNat ∈ [0x02, 0x03, 0x04, 0x07, 0x08, 0x09, 0x0A, 0x10, 0x11, 0x12, 0x13])
    (hz : fieldN w ≠ 0) : RefusedWords (w :: ws) := by
  refine refusedWords_of_fields fun i rest hi hn _ => hz ((field_zero_iff _).mpr ?_)
  rw [hi] at ho
  rw [hn]
  cases i with
  | endSession | avr | avw | rds | pks | wrs | fls | entx | enrx | distx | disrx => rfl
  | _ => simp [Instr.opcode] at ho

theorem refusedWords_FC (ho : (fieldO w).toNat = 0x01) (hz : zeroFC w ≠ 0) : RefusedWords (w :: ws) := by
  refine refusedWords_of_fields fun i rest hi hn _ => ?_
  rw [hi] at ho
  cases i with
  | cfg => exact hz (fieldsFC_iff.mpr hn).1
  | _ => cases ho

theorem refusedWords_FR (ho : (fieldO w).toNat ∈ [0x0B, 0x0C])
    (hz : zeroFR w ≠ 0 ∨ (fieldBit8 w = false ∧ fieldT w ≠ 0)) : RefusedWords (w :: ws) := by
  refine refusedWords_of_fields fun i rest hi hn _ => ?_
  have hk : ∃ k, (fieldN w).toNat = bitsFR k := by
    rw [hi] at ho
    cases i with
    | ontx k | onrx k => exact ⟨k, hn⟩
    | _ => simp [Instr.opcode] at ho
  obtain ⟨k, hk⟩ := hk
  obtain ⟨hzero, hp, ht⟩ := fieldsFR_iff.mpr hk
  cases k <;> simp_all

theorem refusedWords_FD (ho : (fieldO w).toNat ∈ [0x20, 0x21]) (hz : fieldA w ≠ 0) : RefusedWords (w :: ws) := by
  refine refusedWords_of_fields fun i rest hi hn _ => ?_
  rw [hi] at ho
  cases i with
  | done | irq => exact hz (fieldsFD_iff.mpr hn).1
  | _ => simp [Instr.opcode] at ho

theorem refusedWords_FW {w1 : Word} {rest : List Word} (ho : (fieldO w).toNat = 0x22) (hz : fieldN w1 ≠ 0) :
    RefusedWords (w :: w1 :: rest) := by
  refine refusedWords_of_fields fun i rest hi _ hws => ?_
  rw [hi] at ho
  cases i with
  | rxw n x =>
    obtain ⟨hx, -⟩ := List.cons.inj hws
    exact hz (eq_ofNat_iff_fields.mp hx).1
  | _ => cases ho

end Formats

/-! ## The padding of `WRB` (30_encoding R88) -/

theorem bytesOfWords_append (us vs : List Word) : bytesOfWords (us ++ vs) = bytesOfWords us ++ bytesOfWords vs := by
  induction us with
  | nil => rfl
  | cons u us ih => simp [bytesOfWords, ih]

/-- A byte of the payload words after the payload is zero (30_encoding R88). -/
theorem eq_zero_of_padding {p : List Byte} {rest : List Word} {j : Nat} {b : Byte} (hj : p.length ≤ j)
    (hj' : j < 4 * payloadWords p.length) (hb : (bytesOfWords (packPayload p ++ rest))[j]? = some b) : b = 0 := by
  have hlen : j < (bytesOfWords (packPayload p)).length := by rwa [bytesOfWords_length, packPayload_length]
  rw [bytesOfWords_append, List.getElem?_append_left hlen, bytesOfWords_packPayload_eq,
    List.getElem?_append_right hj] at hb
  exact List.eq_of_mem_replicate (List.mem_of_getElem? hb)

theorem refusedWords_padding {w : Word} {ws : List Word} (ho : (fieldO w).toNat = 0x06)
    (hb : ∃ j b, (fieldN w).toNat ≤ j ∧ j < 4 * payloadWords (fieldN w).toNat ∧
      (bytesOfWords ws)[j]? = some b ∧ b ≠ 0) : RefusedWords (w :: ws) := by
  refine refusedWords_of_fields fun i rest hi hn hws => ?_
  rw [hi] at ho
  cases i with
  | wrb p =>
    obtain ⟨j, b, hj, hj', hjb, hne⟩ := hb
    rw [hn] at hj hj'
    rw [hws] at hjb
    exact hne (eq_zero_of_padding hj hj' hjb)
  | _ => cases ho

/-- Settles O25, format by format. -/
theorem mustBeZeroBitsAreRefused : Obligations.MustBeZeroBitsAreRefused := fun _ _ =>
  ⟨refusedWords_F0, refusedWords_FC, refusedWords_FR, refusedWords_FD,
    fun ho _ _ hws hz => hws ▸ refusedWords_FW ho hz, refusedWords_padding⟩

end Sys2Proof.Machine
end

section
/-! O26: the length of a command and its first word (30_encoding R82, R89). -/

namespace Sys2Proof.Machine

theorem encode_length (i : Instr) : (encode i).length = i.words := by
  cases i with
  | wrb p => exact Laws.EncodeLength.wrb p
  | _ => rfl

/-- The length found from word 0 is the length of the command that has its opcode and its bits. -/
theorem words_eq_lengthFrom {w : Word} {i : Instr} (ho : (fieldO w).toNat = i.opcode)
    (hn : (fieldN w).toNat = i.upperBits) : i.words = lengthFrom w := by
  simp only [lengthFrom, ho, hn]
  cases i <;> rfl

theorem words_eq_lengthFrom_of_decode {w : Word} {ws rest : List Word} {i : Instr}
    (h : decode (w :: ws) = .ok i rest) : i.words = lengthFrom w := by
  obtain ⟨ho, hn, -⟩ := decode_ok_iff.mp h
  exact words_eq_lengthFrom ho hn

/-- A command takes the words of its encoding (30_encoding R89). -/
theorem drop_words_of_decode {ws rest : List Word} {i : Instr} (h : decode ws = .ok i rest) :
    ws.drop i.words = rest ∧ i.words ≤ ws.length := by
  obtain ⟨-, rfl⟩ := decode_eq_ok_iff.mp h
  simp [← encode_length]

/-- Settles O26: the words taken are those of the encoding, and word 0 says how many they are. -/
theorem lengthsAreFoundFromTheFirstWord : Obligations.LengthsAreFoundFromTheFirstWord := by
  intro w ws
  have htaken : ∀ i rest, decode (w :: ws) = .ok i rest →
      i.words = lengthFrom w ∧ (w :: ws).drop (lengthFrom w) = rest ∧ lengthFrom w ≤ (w :: ws).length := by
    intro i rest h
    have hwords := words_eq_lengthFrom_of_decode h
    exact ⟨hwords, hwords ▸ drop_words_of_decode h⟩
  refine ⟨htaken, fun hshort => refusedWords_of_forall_ne fun i rest h => ?_⟩
  obtain ⟨-, -, hle⟩ := htaken i rest h
  exact hshort.not_ge hle

end Sys2Proof.Machine
end

section
/-! O23: match and mask (30_encoding R93). The opcode alone tells the rows apart; the other bits of a mask are the
must-be-zero bits of the format. -/

namespace Sys2Proof

/-- Every mask holds the opcode bits. -/
theorem fieldO_mask_of_mem {r : OpcodeRow} (hr : r ∈ opcodeRows) : fieldO r.mask = BitVec.allOnes 8 := by
  revert r
  decide

theorem fieldO_eq_of_hits {w : Word} {r : OpcodeRow} (hr : r ∈ opcodeRows) (h : r.hits w = true) :
    fieldO r.pattern = fieldO w := by
  have hw : w &&& r.mask = r.pattern := by simpa [OpcodeRow.hits] using h
  have hand : fieldO (w &&& r.mask) = fieldO w &&& fieldO r.mask := by
    simp [fieldO, BitVec.extractLsb'_and]
  rw [← hw, hand, fieldO_mask_of_mem hr, BitVec.and_allOnes]

theorem opcodeRows_opcodes_nodup : (opcodeRows.map fun r => fieldO r.pattern).Nodup := by decide

/-- The rows a word hits have one opcode, and no two rows of the table have the same. -/
theorem filter_hits_length_le_one (w : Word) : (opcodeRows.filter (·.hits w)).length ≤ 1 := by
  have hsame : (opcodeRows.filter (·.hits w)).map (fun r => fieldO r.pattern) =
      List.replicate (opcodeRows.filter (·.hits w)).length (fieldO w) := by
    refine List.eq_replicate_iff.mpr ⟨List.length_map .., fun o ho => ?_⟩
    obtain ⟨r, hr, rfl⟩ := List.mem_map.mp ho
    obtain ⟨hmem, hhit⟩ := List.mem_filter.mp hr
    exact fieldO_eq_of_hits hmem hhit
  have hnodup := opcodeRows_opcodes_nodup.sublist (List.filter_sublist (p := (·.hits w)).map _)
  rw [hsame] at hnodup
  exact List.nodup_replicate.mp hnodup

/-! ## The row of a command -/

/-- The mask column of a command: the opcode bits and the must-be-zero bits of its format (30_encoding R93). -/
def Instr.mask : Instr → Word
  | .cfg _ _ _ _ => 0xFE0000FF
  | .rdb _ | .wrb _ | .adv _ _ | .idx _ | .rxw _ _ => 0x000000FF
  | .ontx _ | .onrx _ => 0x0000FEFF
  | .done _ | .irq _ => 0xFFFFFEFF
  | _ => 0xFFFFFFFF

/-- The row of a command in the table. -/
def Instr.row (i : Instr) : OpcodeRow := ⟨i.mnemonic, BitVec.ofNat 32 i.opcode, i.mask⟩

theorem Instr.row_mem (i : Instr) : i.row ∈ opcodeRows := by
  cases i <;> simp [opcodeRows, Instr.row, Instr.mnemonic, Instr.opcode, Instr.mask]

/-- Word 0 of a command hits its row: the bits of the mask that are not the opcode are zero. -/
theorem Instr.row_hits {w : Word} {i : Instr} (ho : (fieldO w).toNat = i.opcode)
    (hn : (fieldN w).toNat = i.upperBits) : i.row.hits w = true := by
  suffices h : w &&& i.mask = (fieldO w).setWidth 32 by
    rw [OpcodeRow.hits, Instr.row, h, ← ho, BitVec.ofNat_toNat, beq_self_eq_true]
  cases i with
  | cfg =>
    obtain ⟨hzero, -⟩ := fieldsFC_iff.mpr hn
    exact (and_maskFC w).trans (by simp [hzero])
  | rdb | wrb | adv | idx | rxw => exact and_maskO w
  | ontx k | onrx k =>
    obtain ⟨hzero, -⟩ := fieldsFR_iff.mpr hn
    exact (and_maskFR w).trans (by simp [hzero])
  | done d | irq d =>
    obtain ⟨hzero, -⟩ := fieldsFD_iff (a := 0#23).mpr hn
    exact (and_maskFD w).trans (by simp [hzero])
  | _ =>
    have hw := word0_of_fields w
    rw [hn] at hw
    rw [← BitVec.ofNat_toNat]
    exact (and_maskF0 w).trans hw.symm

/-- Settles O23: one row at most is hit, and the row of a command that decodes is. -/
theorem matchAndMask : Obligations.MatchAndMask := by
  intro w ws
  have hone := filter_hits_length_le_one w
  refine ⟨hone, fun i rest h => ?_, fun hnone => Machine.refusedWords_of_forall_ne fun i rest h => ?_⟩
  all_goals
    obtain ⟨ho, hn, -⟩ := decode_ok_iff.mp h
    have hmem : i.row ∈ opcodeRows.filter (·.hits w) := List.mem_filter.mpr ⟨i.row_mem, Instr.row_hits ho hn⟩
  · obtain ⟨r', hr'⟩ := List.length_eq_one_iff.mp (hone.antisymm (List.length_pos_of_mem hmem))
    rw [hr', List.mem_singleton] at hmem
    rw [hr', ← hmem, List.map_singleton, Instr.row]
  · exact List.not_mem_nil (hnone ▸ hmem)

end Sys2Proof
end

section
/-! O28, O49: the segment index of an offset (40_ring R111, R112, R119). The formula of the source is
a division by `S`. -/

namespace Sys2Proof.Machine

variable {p : Params} {o : Nat}

theorem indexOf_eq_div (hS : 0 < p.segSize) : indexOf p o = o / p.segSize := by
  rw [indexOf, Nat.add_div_right _ hS, Nat.succ_sub_one]

theorem indexOf_of_lt_segSize (h : o < p.segSize) : indexOf p o = 0 := by
  rw [indexOf_eq_div (Nat.zero_lt_of_lt h), Nat.div_eq_of_lt h]

theorem indexOf_of_segSize_le (hlo : p.segSize ≤ o) (hhi : o < p.ringSize) : indexOf p o = 1 := by
  unfold Params.ringSize at hhi
  rw [indexOf_eq_div (by omega)]
  exact Nat.div_eq_of_lt_le (by omega) (by omega)

theorem two_le_indexOf (hS : 0 < p.segSize) (h : p.ringSize ≤ o) : 2 ≤ indexOf p o := by
  rw [indexOf_eq_div hS, Nat.le_div_iff_mul_le hS]
  exact h

theorem indexOf_of_lt_ringSize (h : o < p.ringSize) : indexOf p o = if o < p.segSize then 0 else 1 := by
  split
  · exact indexOf_of_lt_segSize ‹_›
  · exact indexOf_of_segSize_le (Nat.le_of_not_lt ‹_›) h

/-- Settles O28: the index is the quotient by `S`. -/
theorem segmentIndexOfOffset : Obligations.SegmentIndexOfOffset := fun _ _ hp =>
  ⟨indexOf_of_lt_segSize, indexOf_of_segSize_le, two_le_indexOf (by omega)⟩

/-- `IDX` of an offset in the ring passes its one check. -/
theorem execIdx_inside {s : State} {n : BitVec 24} (hs : Issuable s) (hn : n.toNat < s.params.ringSize) :
    execIdx n s = .next (giveResult (.segment (indexOf s.params n.toNat)) s) := by
  rw [execIdx, command_issuable hs, if_neg (Nat.not_le_of_lt hn), endCommand]

/-- Settles O49: the index is 0 or 1 in the ring, with no need of legal parameters. -/
theorem idxGivesTheSegment : Obligations.IdxGivesTheSegment := by
  intro n s hs hn
  rw [← indexOf_of_lt_ringSize hn]
  exact execIdx_inside hs hn

end Sys2Proof.Machine
end

section
/-! O29, O30, O31, O48: the distance and the advance are arithmetic modulo the ring (40_ring R113 to R115, R120,
R121). An advance is an offset in ring order, and offsets in ring order add up. -/

namespace Sys2Proof.Machine

variable {p : Params} {o a : Nat}

theorem ringDist_eq_emod {h c : Nat} (hh : h < p.ringSize) (hc : c < p.ringSize) :
    (ringDist p h c : Int) = ((h : Int) - c) % p.ringSize := by
  unfold ringDist
  split
  · rw [← Int.add_emod_right, Int.emod_eq_of_lt (by omega) (by omega)]
    omega
  · rw [Int.emod_eq_of_lt (by omega) (by omega)]
    omega

/-- Settles O29: the distance lies in the ring, so it is the remainder it is congruent to. -/
theorem distanceIsModular : Obligations.DistanceIsModular := fun _ _ _ hh hc =>
  ⟨Nat.le_sub_one_of_lt (ringDist_lt hh), ringDist_eq_emod hh hc⟩

theorem advance_eq_ringOffset (ho : o < p.ringSize) (ha : a ≤ p.ringSize) :
    advance p o a = ringOffset p o a := by
  unfold advance ringOffset
  split
  · rw [Nat.mod_eq_sub_mod ‹_›, Nat.mod_eq_of_lt (by omega)]
  · rw [Nat.mod_eq_of_lt (by omega)]

/-- Settles O30: an advance is an offset in ring order. -/
theorem advanceIsModular : Obligations.AdvanceIsModular := fun _ _ _ ho ha =>
  ⟨advance_lt ho ha, advance_eq_ringOffset ho ha⟩

theorem ringOffset_of_lt {i : Nat} (h : o + i < p.ringSize) : ringOffset p o i = o + i := Nat.mod_eq_of_lt h

theorem ringOffset_ringOffset (i j : Nat) : ringOffset p (ringOffset p o i) j = ringOffset p o (i + j) := by
  rw [ringOffset, ringOffset, Nat.mod_add_mod, Nat.add_assoc, ringOffset]

theorem ringOffset_ringSize (ho : o < p.ringSize) : ringOffset p o p.ringSize = o := by
  rw [ringOffset, Nat.add_mod_right, Nat.mod_eq_of_lt ho]

/-- Advances in turn are one move by their sum. -/
theorem foldl_advance (l : List Nat) (ho : o < p.ringSize) (hl : ∀ a ∈ l, a ≤ p.ringSize) :
    l.foldl (advance p) o = ringOffset p o l.sum := by
  induction l generalizing o with
  | nil => exact (ringOffset_of_lt (i := 0) ho).symm
  | cons a l ih =>
    obtain ⟨ha, hl⟩ := List.forall_mem_cons.mp hl
    rw [List.foldl_cons, ih (advance_lt ho ha) hl, advance_eq_ringOffset ho ha, ringOffset_ringOffset,
      List.sum_cons]

/-- Settles O31: a move by the whole ring ends where it began. -/
theorem fullRevolutionReturns : Obligations.FullRevolutionReturns := by
  intro p o l ho hl hsum
  rw [foldl_advance l ho hl, hsum, ringOffset_ringSize ho]

/-- `ADV` on an armed direction by no more than the ring passes its two checks. -/
theorem execAdv_armed {s : State} {d : Dir} {n : BitVec 23} (hs : Issuable s) (hd : s.armed.get d = true)
    (hn : n.toNat ≤ s.params.ringSize) :
    execAdv d n s = .next (giveResult (.offset (advance s.params (s.cur.get d) n.toNat)) (moveCur d n.toNat s)) := by
  rw [execAdv, command_issuable hs, if_pos hd, if_neg (Nat.not_lt_of_le hn), endCommand, moveCur]

/-- Settles O48: the move and the result write the cursor and the list of results alone. -/
theorem advMovesACursor : Obligations.AdvMovesACursor := fun _ _ _ => execAdv_armed

end Sys2Proof.Machine
end

section
/-! O33: rounding down to a sample width (40_ring R118). The width divides 4, and 4 divides the ring and its base. -/

namespace Sys2Proof.Machine

variable {p : Params} {o wb : Nat}

theorem dvd_alignDown (o wb : Nat) : wb ∣ alignDown o wb := Nat.dvd_sub_mod o

theorem lt_alignDown_add (o : Nat) (hwb : 0 < wb) : o < alignDown o wb + wb := by
  have hmod : o % wb < wb := Nat.mod_lt o hwb
  unfold alignDown
  omega

/-- Between two multiples of `wb` there is room for a whole sample. -/
theorem alignDown_add_le {n : Nat} (ho : o < n) (hn : wb ∣ n) : alignDown o wb + wb ≤ n := by
  have hlt : alignDown o wb < n := (alignDown_le o wb).trans_lt ho
  exact Nat.le_of_lt_add_of_dvd (Nat.add_lt_add_right hlt wb) (Nat.dvd_add_self_right.mpr (dvd_alignDown o wb)) hn

theorem dvd_four_of_width (h : wb ∈ [1, 2, 4]) : wb ∣ 4 := by
  revert wb
  decide

/-- Settles O33: the rounded offset, the ring and its base are multiples of the width. -/
theorem alignDownStaysInTheRing : Obligations.AlignDownStaysInTheRing := by
  intro p o wb hp hwb ho
  have h4 : wb ∣ 4 := dvd_four_of_width hwb
  obtain ⟨-, hringSize⟩ := Legal.ring hp
  obtain ⟨-, -, -, hbaseAddr, -, -⟩ := hp
  have hring : wb ∣ p.ringSize := h4.trans (Nat.dvd_of_mod_eq_zero hringSize)
  have hbase : wb ∣ p.base := h4.trans (Nat.dvd_of_mod_eq_zero hbaseAddr)
  have haligned : wb ∣ alignDown o wb := dvd_alignDown o wb
  exact ⟨Nat.mod_eq_zero_of_dvd haligned, alignDown_le o wb,
    lt_alignDown_add o (Nat.pos_of_dvd_of_pos h4 (by decide)), alignDown_add_le ho hring,
    Nat.mod_eq_zero_of_dvd (hbase.add haligned)⟩

end Sys2Proof.Machine
end

section
/-! O32: a split copy reads and writes in ring order (40_ring R117): the first piece does not reach past the ring
end, and the second one, where there is one, starts at offset 0. -/

namespace Sys2Proof.Machine

variable {p : Params} {s : State} {o n : Nat}

/-! ## Reading -/

theorem ringBytes_add (s : State) (o m k : Nat) :
    ringBytes s o (m + k) = ringBytes s o m ++ ringBytes s (ringOffset s.params o m) k := by
  simp [ringBytes, List.range_add, ringOffset_ringOffset, Function.comp_def]

/-- Bytes that do not reach past the ring end are those of a block read. -/
theorem ringBytes_eq_readBytes (h : o + n ≤ s.params.ringSize) : ringBytes s o n = readBytes s o n := by
  rw [ringBytes, readBytes_eq]
  refine List.map_congr_left fun i hi => ?_
  rw [List.mem_range] at hi
  rw [ringOffset_of_lt (by omega)]

theorem ringBytes_split (ho : o < s.params.ringSize) (hn : n ≤ s.params.ringSize) :
    ringBytes s o n =
      readBytes s o (splitFirst s.params o n) ++ readBytes s 0 (n - splitFirst s.params o n) := by
  obtain ⟨hend, hle, hrest⟩ := splitFirst_bounds ho hn
  have hadd := ringBytes_add s o (splitFirst s.params o n) (n - splitFirst s.params o n)
  rw [Nat.add_sub_cancel' hle] at hadd
  rw [hadd, ringBytes_eq_readBytes hend]
  congr 1
  rcases Nat.eq_zero_or_pos (n - splitFirst s.params o n) with hzero | hpos
  · rw [hzero]
    rfl
  · have hwrap : o + splitFirst s.params o n = s.params.ringSize := by
      unfold splitFirst at hpos ⊢
      omega
    rw [ringOffset, hwrap, Nat.mod_self, ringBytes_eq_readBytes (by omega)]

theorem ringRead_eq_ringBytes (ho : o < s.params.ringSize) (hn : n ≤ s.params.ringSize) :
    ringRead o n s = .ok (ringBytes s o n) s := by
  rw [ringRead_inside ho hn, ringBytes_split ho hn]

/-! ## Writing -/

/-- A block write from `o` on does not reach the offsets before `o`. -/
theorem ringByte_writeBytes_before {a : Nat} (bs : List Byte) (h : a < o) :
    ringByte { s with ring := writeBytes s.ring o bs } a = ringByte s a := by
  rw [ringByte_writeBytes, if_neg fun hin => Nat.not_le_of_lt h hin.1]

/-- An offset from `o` on has its byte of the block, or what it held before where the block is too short. -/
theorem ringByte_writeBytes_from {a : Nat} (bs : List Byte) (h : o ≤ a) :
    ringByte { s with ring := writeBytes s.ring o bs } a = (bs[a - o]?).getD (ringByte s a) := by
  rw [ringByte_writeBytes]
  split
  · rfl
  · rw [List.getElem?_eq_none (by omega), Option.getD_none]

theorem ringAfter_of_le {a : Nat} (hle : o ≤ a) (ha : a < p.ringSize) : ringAfter p o a = a - o := by
  rw [ringAfter, Nat.sub_add_comm hle, Nat.add_mod_right, Nat.mod_eq_of_lt (by omega)]

theorem ringAfter_of_lt {a : Nat} (hlt : a < o) (ho : o < p.ringSize) :
    ringAfter p o a = a + p.ringSize - o := Nat.mod_eq_of_lt (by omega)

/-- What the two block writes of a split write store: the first one reaches the offsets from `o` on, the second
one those before `o`. -/
theorem storedAt_split {bs : List Byte} {k : Nat} (ho : o < s.params.ringSize)
    (hn : bs.length ≤ s.params.ringSize) (hk : k = splitFirst s.params o bs.length) :
    StoredAt o bs s
      { s with ring := writeBytes (writeBytes s.ring o (bs.take k)) 0 (bs.drop k) } := by
  intro a
  have hsecond := ringByte_writeBytes_from (s := { s with ring := writeBytes s.ring o (bs.take k) })
    (bs.drop k) (Nat.zero_le a)
  rw [Nat.sub_zero, List.getElem?_drop] at hsecond
  refine hsecond.trans ?_
  unfold splitFirst at hk
  rcases Nat.lt_or_ge a o with hlt | hle
  · have hindex : bs[k + a]? = bs[a + s.params.ringSize - o]? := by
      rcases Nat.le_total bs.length (s.params.ringSize - o) with hfits | hwraps
      · rw [List.getElem?_eq_none (by omega), List.getElem?_eq_none (by omega)]
      · rw [show k + a = a + s.params.ringSize - o by omega]
    rw [ringByte_writeBytes_before _ hlt, if_pos (hlt.trans ho), ringAfter_of_lt hlt ho, hindex]
  · rw [List.getElem?_eq_none (by omega), Option.getD_none, ringByte_writeBytes_from _ hle,
      List.getElem?_take]
    split_ifs with hin hring hring
    · rw [ringAfter_of_le hle hring]
    · omega
    · rw [ringAfter_of_le hle hring, List.getElem?_eq_none (by omega)]
    · rfl

/-- A split write stores its bytes in ring order and writes no field but the ring. -/
theorem ringWrite_stores {bs : List Byte} (ho : o < s.params.ringSize) (hn : bs.length ≤ s.params.ringSize) :
    ∃ m, ringWrite o bs s = .ok () { s with ring := m } ∧ StoredAt o bs s { s with ring := m } :=
  ⟨_, ringWrite_inside ho hn, storedAt_split ho hn rfl⟩

/-- Settles O32: both hold of a copy of up to `RING` bytes. -/
theorem splitCopyFollowsTheRing : Obligations.SplitCopyFollowsTheRing := by
  refine ⟨fun o n s ho hn => ?_, fun o bs s ho hn => ?_⟩
  · have hle : n ≤ s.params.ringSize := hn.trans (Nat.sub_le _ _)
    exact ⟨ringRead_eq_ringBytes ho hle, ringBytes_split ho hle⟩
  · obtain ⟨m, hwrite, hstored⟩ := ringWrite_stores ho (hn.trans (Nat.sub_le _ _))
    exact ⟨_, hwrite, hstored, rfl⟩

end Sys2Proof.Machine
end

section
/-! O4: the driver-log laws (41_lifecycle R152, R153; 10_state R26) as one rule per part of a command, and every
effect as one of these parts followed by writes the laws do not read. -/

namespace Sys2Proof.Machine

variable {s t : State} {i : Instr}

/-! ## Counting calls -/

theorem countCalls_of_append {l : List DrvCall} (h : t.drvLog = s.drvLog ++ l) (kind : DrvCall → Bool) :
    countCalls kind t = countCalls kind s + l.countP kind := by
  simp only [countCalls, ← List.countP_eq_length_filter, h, List.countP_append]

@[simp] theorem isStart_startCall (p : Params) (wb : Nat) (d e : Dir) :
    DrvCall.isStart e (startCall p wb d) = decide (e = d) := by
  cases d <;> cases e <;> rfl

@[simp] theorem isStop_stopCall (d e : Dir) : DrvCall.isStop e (stopCall d) = decide (e = d) := by
  cases d <;> cases e <;> rfl

@[simp] theorem isStop_startCall (p : Params) (wb : Nat) (d e : Dir) :
    DrvCall.isStop e (startCall p wb d) = false := by
  cases d <;> cases e <;> rfl

@[simp] theorem isStart_stopCall (d e : Dir) : DrvCall.isStart e (stopCall d) = false := by
  cases d <;> cases e <;> rfl

@[simp] theorem isConfigure_startCall (p : Params) (wb : Nat) (d : Dir) :
    (startCall p wb d).isConfigure = false := by
  cases d <;> rfl

@[simp] theorem isDeconfigure_startCall (p : Params) (wb : Nat) (d : Dir) :
    (startCall p wb d).isDeconfigure = false := by
  cases d <;> rfl

@[simp] theorem isConfigure_stopCall (d : Dir) : (stopCall d).isConfigure = false := by cases d <;> rfl

@[simp] theorem isDeconfigure_stopCall (d : Dir) : (stopCall d).isDeconfigure = false := by cases d <;> rfl

/-! ## The laws and the parts of a command -/

/-- The laws of the driver log, with one clause for both directions. -/
structure DriverLaws (s : State) : Prop where
  bringUp : BringUpBalanced s
  arming : ∀ d, ArmingBalanced d s

/-- The laws speak of states without a fatal fault. -/
theorem DriverLaws.of_fatal (h : t.fatal ≠ none) : DriverLaws t :=
  ⟨fun hf => absurd hf h, fun _ hf => absurd hf h⟩

/-- The laws are kept by any step whose calls account for the change of the count and of the armed bits. -/
theorem DriverLaws.of_calls {l : List DrvCall} (h : DriverLaws s) (hfatal : t.fatal = s.fatal)
    (hlog : t.drvLog = s.drvLog ++ l)
    (href : l.countP DrvCall.isConfigure + (if s.ref = 0 then 0 else 1) =
      l.countP DrvCall.isDeconfigure + (if t.ref = 0 then 0 else 1))
    (harmed : ∀ d, l.countP (DrvCall.isStart d) + (s.armed.get d).toNat =
      l.countP (DrvCall.isStop d) + (t.armed.get d).toNat) : DriverLaws t := by
  have hcount := countCalls_of_append hlog
  constructor
  · intro hf
    have hlaw := h.bringUp (hfatal ▸ hf)
    rw [hcount, hcount]
    omega
  · intro d hf
    have hlaw := h.arming d (hfatal ▸ hf)
    have hbits := harmed d
    simp only [Bool.toNat, Bool.cond_eq_ite] at hbits
    rw [hcount, hcount]
    omega

/-- The laws read the fatal reason, the log, the armed bits, and whether there is a session. -/
theorem DriverLaws.of_unread (h : DriverLaws s) (hfatal : t.fatal = s.fatal) (hlog : t.drvLog = s.drvLog)
    (harmed : t.armed = s.armed) (href : t.ref = 0 ↔ s.ref = 0) : DriverLaws t :=
  h.of_calls (l := []) hfatal (by simp [hlog]) (by simp [href]) (by simp [harmed])

/-- Arming logs one start call of its direction exactly where it sets the bit. -/
protected theorem DriverLaws.afterArm (h : DriverLaws s) (d : Dir) (c : SessionCfg) :
    DriverLaws (afterArm d c s) := by
  refine h.of_calls (by simp) (afterArm_drvLog d c s) ?_ fun e => ?_
  · cases s.armed.get d <;> simp
  · by_cases he : e = d
    · subst e
      cases s.armed.get d <;> simp
    · cases s.armed.get d <;> simp [he, Per.get_set]

/-- Disarming logs one stop call of its direction exactly where it clears the bit. -/
protected theorem DriverLaws.afterDisarm (h : DriverLaws s) (d : Dir) : DriverLaws (afterDisarm d s) := by
  refine h.of_calls (by simp) (afterDisarm_drvLog d s) ?_ fun e => ?_
  · cases s.armed.get d <;> simp
  · by_cases he : e = d
    · subst e
      cases s.armed.get d <;> simp
    · cases s.armed.get d <;> simp [he, Per.get_set]

/-- The first session is opened with one `configure` (41_lifecycle R143). -/
protected theorem DriverLaws.openFirst (h : DriverLaws s) (c : SessionCfg) (href : s.ref = 0) :
    DriverLaws (setRef 1 (afterBringUp c s)) :=
  h.of_calls (l := [.initPinMux, .init, .configure s.params.channel c]) rfl (by simp)
    (by simp [href, DrvCall.isConfigure, DrvCall.isDeconfigure])
    fun d => by simp [DrvCall.isStart, DrvCall.isStop]

/-- The last session is closed with one `deconfigure` (41_lifecycle R145). -/
protected theorem DriverLaws.closeLast (h : DriverLaws s) (n : Nat) (href : s.ref ≠ 0) :
    DriverLaws (setRef 0 (afterCall (.deconfigure n) s)) :=
  h.of_calls (l := [.deconfigure n]) rfl rfl (by simp [href, DrvCall.isConfigure, DrvCall.isDeconfigure])
    fun d => by simp [DrvCall.isStart, DrvCall.isStop]

/-- The handler calls no driver and writes neither the armed bits nor the count. -/
protected theorem DriverLaws.afterHandler (h : DriverLaws s) (d : Dir) (p : Nat) :
    DriverLaws (afterHandler d p s) := by
  obtain ⟨hframe, -, -⟩ := afterHandler_frame d p s
  obtain ⟨href, -⟩ := afterHandler_session d p s
  exact h.of_unread (congrArg State.fatal hframe :) (congrArg State.drvLog hframe :)
    (congrArg State.armed hframe :) (by rw [href])

/-! ## The step -/

protected theorem Effect.driverLaws (he : Effect s i t) (h : DriverLaws s) : DriverLaws t := by
  cases he with
  | cfgFatal | endStopTx | endStopRx | endRelease | startFails | stopFails | queryFails | queryFailsAligned
  | handlerFails => exact .of_fatal (by simp)
  | cfgFirst _ _ _ _ href => exact (h.openFirst _ href).of_unread rfl rfl rfl .rfl
  | cfgAgain _ _ _ _ href => exact h.of_unread rfl rfl rfl (by simp [href])
  | endOne _ href => exact h.of_unread rfl rfl rfl (show s.ref - 1 = 0 ↔ s.ref = 0 by omega)
  | endLast _ href =>
    simp only [afterDisarm_setRef, afterCall_setRef]
    have hdisarmed := (h.afterDisarm .tx).afterDisarm .rx
    exact (hdisarmed.closeLast _ (by simp [href])).of_unread rfl rfl rfl .rfl
  | enable | available | peekSample | readBlock | readSample | write =>
    exact (h.afterArm _ _).of_unread rfl rfl rfl .rfl
  | disable => exact (h.afterDisarm _).of_unread rfl rfl rfl .rfl
  | handler => exact h.afterHandler _ _
  | _ => exact h.of_unread rfl rfl rfl .rfl

/-- Settles O4: a refused step and the move of the index are not read by the laws, and every effect keeps them. -/
theorem stepKeepsDriverLogLaws : Obligations.StepKeepsDriverLogLaws := by
  rintro s t ⟨hbringUp, htx, hrx⟩ h
  have hs : DriverLaws s := ⟨hbringUp, (Dir.casesOn · htx hrx)⟩
  have ht : DriverLaws t := by
    rcases step_next h with ⟨e, -, rfl⟩ | ⟨i, rest, u, -, hexec, rfl⟩
    · exact hs.of_unread rfl rfl rfl .rfl
    · exact ((exec_effect hexec).driverLaws hs).of_unread rfl rfl rfl .rfl
  exact ⟨ht.bringUp, ht.arming .tx, ht.arming .rx⟩

end Sys2Proof.Machine
end

section
/-! O8: which effect writes a bit of the Stream State (41_lifecycle R151), said for both directions at once. -/

namespace Sys2Proof.Machine

variable {s t : State} {i : Instr}

theorem afterHandler_armed (d : Dir) (h : Nat) (s : State) : (afterHandler d h s).armed = s.armed := by
  obtain ⟨hframe, -, -⟩ := afterHandler_frame d h s
  exact (congrArg State.armed hframe :)

/-- How the step of an item from `s` to `t` can leave `armed[d]`: as before, set by an item that arms `d`, or
cleared by the disable of `d` or by `END` with the count reaching 0. -/
def ArmedWritten (d : Dir) (s : State) (i : Instr) (t : State) : Prop :=
  t.armed.get d = s.armed.get d ∨ (t.armed.get d = true ∧ Instr.arms i = some d) ∨
    (t.armed.get d = false ∧ (i = disableInstr d ∨ (i = .endSession ∧ t.ref = 0)))

theorem ArmedWritten.of_arms {d e : Dir} (hi : Instr.arms i = some e) (harmed : t.armed = s.armed.set e true) :
    ArmedWritten d s i t := by
  by_cases hd : d = e
  · subst e
    exact .inr (.inl ⟨by simp [harmed], hi⟩)
  · exact .inl (by rw [harmed, Per.get_set_ne _ _ hd])

theorem ArmedWritten.of_disable {d e : Dir} (harmed : t.armed = s.armed.set e false) :
    ArmedWritten d s (disableInstr e) t := by
  by_cases hd : d = e
  · subst e
    exact .inr (.inr ⟨by simp [harmed], .inl rfl⟩)
  · exact .inl (by rw [harmed, Per.get_set_ne _ _ hd])

theorem ArmedWritten.of_release {d : Dir} (href : t.ref = 0)
    (harmed : t.armed.get d = s.armed.get d ∨ t.armed.get d = false) : ArmedWritten d s .endSession t :=
  harmed.imp_right fun h => .inr ⟨h, .inr ⟨rfl, href⟩⟩

theorem Effect.armedWritten (h : Effect s i t) (d : Dir) : ArmedWritten d s i t := by
  cases h with
  | endLast | endRelease => exact .of_release (by simp) (.inr (by cases d <;> simp))
  | endStopRx => exact .of_release (by simp) (by cases d <;> simp)
  | enable _ hi | available _ hi =>
    rcases hi with ⟨rfl, rfl⟩ | ⟨rfl, rfl⟩ <;> exact .of_arms rfl (by simp)
  | disable _ hi =>
    rcases hi with ⟨rfl, rfl⟩ | ⟨rfl, rfl⟩
    · exact .of_disable (e := .tx) (by simp)
    · exact .of_disable (e := .rx) (by simp)
  | queryFails _ _ hi => exact .of_arms hi (by simp)
  | peekSample | queryFailsAligned => exact .of_arms rfl (by simp)
  | readBlock | readSample => exact .of_arms rfl (by simp [moveCur_eq_setCur])
  | write _ _ _ _ hi =>
    rcases hi with ⟨rfl, -⟩ | ⟨v, c, rfl, -⟩ <;> exact .of_arms rfl (by simp [moveCur_eq_setCur])
  | handler => exact .inl (by rw [afterHandler_armed])
  | _ => exact .inl (by simp)

/-- Settles O8: the bits direction by direction; what arms a direction is listed by `Instr.arms_tx` and
`Instr.arms_rx`. -/
theorem armedBitWriters : Obligations.ArmedBitWriters := by
  intro i s t h
  have he := exec_effect h
  exact ⟨(he.armedWritten .tx).imp_right (.imp_left (.imp_right Instr.arms_tx)),
    (he.armedWritten .rx).imp_right (.imp_left (.imp_right Instr.arms_rx))⟩

end Sys2Proof.Machine
end

section
/-! O41 to O44: the enables and the disables (41_lifecycle R146 to R149, R153), said for both directions at once. -/

namespace Sys2Proof.Machine

variable {s t : State} {c : SessionCfg} (d : Dir)

/-! ## How the end of a body ends its command -/

theorem command_ok {body : State → Ret Result} {r : Result} (hs : Issuable s) (hb : body s = .ok r t) :
    command body s = .next (giveResult r t) := by
  rw [command_issuable hs, hb, endCommand]

theorem command_fatal {body : State → Ret Result} {r : FatalReason} (hs : Issuable s)
    (hb : body s = .fatal r t) : command body s = .next (giveResult (.fatal r) (raiseFatal r t)) := by
  rw [command_issuable hs, hb, endCommand]

/-! ## Disarming and its state -/

theorem afterDisarm_of_not_armed (ha : s.armed.get d = false) : afterDisarm d s = s := by
  simp [afterDisarm, ha]

/-- Where it disarms, the pending bit stays only with late completions (41_lifecycle R148, R149). -/
theorem afterDisarm_of_armed (ha : s.armed.get d = true) :
    afterDisarm d s =
      { takeOk s with
        armed := s.armed.set d false
        cur := s.cur.set d 0
        pend := s.pend.set d (s.pend.get d && s.params.lateCompletion)
        drvLog := s.drvLog ++ [stopCall d] } := by
  unfold afterDisarm
  cases hl : s.params.lateCompletion
  · simp [ha, setPend, setCur, setArmed, takeOk, logCall]
  · cases d <;> simp [ha, setCur, setArmed, takeOk, logCall, Per.set]

/-- Disarming succeeds where there is nothing to stop, or the driver's next answer is success. -/
theorem disarm_ok (hk : s.armed.get d = true → nextOk s = true) : disarm d s = .ok () (afterDisarm d s) := by
  rw [disarm_eq, afterDisarm]
  split
  · rw [if_pos (hk ‹_›)]
    rfl
  · rfl

theorem disarm_fatal (ha : s.armed.get d = true) (hk : nextOk s = false) :
    disarm d s = .fatal (stopReason d) (afterCall (stopCall d) s) := by
  rw [disarm_eq, if_pos ha, if_neg (by simp [hk])]
  rfl

/-! ## Arming and its state -/

theorem afterArm_of_not_armed (ha : s.armed.get d = false) :
    afterArm d c s =
      { takeOk s with
        armed := s.armed.set d true
        cur := s.cur.set d s.params.segSize
        drvLog := s.drvLog ++ [startCall s.params c.wb d] } := by
  rw [afterArm, if_neg (by simp [ha])]
  rfl

/-- The two checks of an enable are the prelude of a data command (41_lifecycle R150). -/
theorem enable_eq_prelude (s : State) :
    enable d s = (prelude d s).bind fun _ u => .ok .success u := by
  unfold enable prelude
  split <;> rfl

theorem prelude_armed (hr : s.ref ≠ 0) (ha : s.armed.get d = true) : prelude d s = .ok () s := by
  rw [prelude, if_neg hr, arm, if_pos ha]

theorem prelude_fatal (hr : s.ref ≠ 0) (hc : s.cfg = some c) (ha : s.armed.get d = false)
    (hk : nextOk s = false) :
    prelude d s = .fatal (startReason d) (afterCall (startCall s.params c.wb d) s) := by
  rw [prelude, if_neg hr, arm_eq hc, if_neg (by simp [ha]), if_neg (by simp [hk])]
  rfl

/-! ## The four commands -/

theorem enable_ready (h : DataReady d c s) :
    command (enable d) s = .next (giveResult .success (afterArm d c s)) :=
  command_ok h.1 (by rw [enable_eq_prelude, prelude_ready h, Ret.bind_ok])

theorem enable_armed (hs : Issuable s) (hr : s.ref ≠ 0) (ha : s.armed.get d = true) :
    command (enable d) s = .next (giveResult .success s) :=
  command_ok hs (by rw [enable_eq_prelude, prelude_armed d hr ha, Ret.bind_ok])

theorem enable_fatal (hs : Issuable s) (hr : s.ref ≠ 0) (hc : s.cfg = some c) (ha : s.armed.get d = false)
    (hk : nextOk s = false) :
    command (enable d) s =
      .next (giveResult (.fatal (startReason d))
        (raiseFatal (startReason d) (afterCall (startCall s.params c.wb d) s))) :=
  command_fatal hs (by rw [enable_eq_prelude, prelude_fatal d hr hc ha hk, Ret.bind_fatal])

theorem disable_ok (hs : Issuable s) (hk : s.armed.get d = true → nextOk s = true) :
    command (disable d) s = .next (giveResult .success (afterDisarm d s)) :=
  command_ok hs (by rw [disable, disarm_ok d hk, Ret.bind_ok])

theorem disable_not_armed (hs : Issuable s) (ha : s.armed.get d = false) :
    command (disable d) s = .next (giveResult .success s) := by
  rw [disable_ok d hs (by simp [ha]), afterDisarm_of_not_armed d ha]

theorem disable_fatal (hs : Issuable s) (ha : s.armed.get d = true) (hk : nextOk s = false) :
    command (disable d) s =
      .next (giveResult (.fatal (stopReason d)) (raiseFatal (stopReason d) (afterCall (stopCall d) s))) :=
  command_fatal hs (by rw [disable, disarm_fatal d ha hk, Ret.bind_fatal])

/-- Settles O41: an enable of a ready direction ends in `afterArm`, which is the state itself where the
direction is armed. -/
theorem enableArmsADirection : Obligations.EnableArmsADirection := by
  intro s c hs hr hc
  refine ⟨enable_armed .tx hs hr, enable_armed .rx hs hr, fun ha hk => ?_, fun ha hk => ?_⟩
  · exact (enable_ready .tx ⟨hs, hr, hc, .inr hk⟩).trans (by rw [afterArm_of_not_armed .tx ha]; rfl)
  · exact (enable_ready .rx ⟨hs, hr, hc, .inr hk⟩).trans (by rw [afterArm_of_not_armed .rx ha]; rfl)

/-- Settles O42: a disable that the driver allows ends in `afterDisarm`. -/
theorem disableDisarmsADirection : Obligations.DisableDisarmsADirection := by
  intro s hs
  refine ⟨disable_not_armed .tx hs, disable_not_armed .rx hs, fun ha hk => ?_, fun ha hk => ?_⟩
  · exact (disable_ok .tx hs fun _ => hk).trans (by rw [afterDisarm_of_armed .tx ha]; rfl)
  · exact (disable_ok .rx hs fun _ => hk).trans (by rw [afterDisarm_of_armed .rx ha]; rfl)

/-- Settles O43: the call is logged before its answer is known, and nothing after it runs. -/
theorem refusedStartOrStopIsFatal : Obligations.RefusedStartOrStopIsFatal :=
  fun _ hs hk =>
    ⟨fun _ hr hc ha => enable_fatal .tx hs hr hc ha hk, fun _ hr hc ha => enable_fatal .rx hs hr hc ha hk,
      fun ha => disable_fatal .tx hs ha hk, fun ha => disable_fatal .rx hs ha hk⟩

/-! ## Issued twice -/

/-- A command that is turned away before its body hands nothing to the host (60_exceptions R236, R238). -/
theorem issuable_of_success {body : State → Ret Result} (h : command body s = .next t)
    (hres : t.results = s.results ++ [.success]) : Issuable s := by
  rcases command_next h with ⟨-, rfl⟩ | ⟨-, -, rfl⟩ | ⟨hs, -⟩
  · simp at hres
  · simp at hres
  · exact hs

/-- A refused enable hands nothing to the host, a failed one its fatal reason. -/
theorem enable_success (h : command (enable d) s = .next t) (hres : t.results = s.results ++ [.success]) :
    Issuable s ∧ s.ref ≠ 0 ∧ ∃ c, t = giveResult .success (afterArm d c s) := by
  have hs := issuable_of_success h hres
  rw [command_issuable hs, enable_eq_prelude] at h
  rcases prelude_cases d s with hp | ⟨hr, c, -, hp⟩ | ⟨-, c, -, -, hp⟩ | hp <;> rw [hp] at h <;> cases h
  · simp at hres
  · exact ⟨hs, hr, c, rfl⟩
  · simp at hres

theorem disable_success (h : command (disable d) s = .next t) (hres : t.results = s.results ++ [.success]) :
    Issuable s ∧ t = giveResult .success (afterDisarm d s) := by
  have hs := issuable_of_success h hres
  rw [command_issuable hs, disable] at h
  rcases disarm_cases d s with hp | ⟨-, hp⟩ <;> rw [hp] at h <;> cases h
  · exact ⟨hs, rfl⟩
  · simp at hres

theorem enable_enable (h : command (enable d) s = .next t) (hres : t.results = s.results ++ [.success]) :
    command (enable d) t = .next (giveResult .success t) := by
  obtain ⟨⟨hctx, hfatal⟩, hr, c, rfl⟩ := enable_success d h hres
  exact enable_armed d (by simp [Issuable, hctx, hfatal]) (by simpa using hr) (by simp)

theorem disable_disable (h : command (disable d) s = .next t) (hres : t.results = s.results ++ [.success]) :
    command (disable d) t = .next (giveResult .success t) := by
  obtain ⟨⟨hctx, hfatal⟩, rfl⟩ := disable_success d h hres
  exact disable_not_armed d (by simp [Issuable, hctx, hfatal]) (by simp)

/-- Settles O44: a command that answered `OK` left its direction as it wants it, so the second finds nothing to
do. -/
theorem enableAndDisableAreIdempotent : Obligations.EnableAndDisableAreIdempotent := by
  intro i hi s t h hres
  simp only [List.mem_cons, List.not_mem_nil, or_false] at hi
  rcases hi with rfl | rfl | rfl | rfl
  · exact enable_enable .tx h hres
  · exact enable_enable .rx h hres
  · exact disable_disable .tx h hres
  · exact disable_disable .rx h hres

end Sys2Proof.Machine
end

section
/-! O35, O37: `CFG` of a valid configuration (41_lifecycle R140 to R143). -/

namespace Sys2Proof.Machine

variable {s : State} {c : SessionCfg}

theorem bringUp_ok (hk : nextOk s = true) : bringUp c s = .ok () (afterBringUp c s) := by
  rw [bringUp_eq, hk]
  rfl

theorem bringUp_fatal (hk : nextOk s = false) : bringUp c s = .fatal .bringUp (afterBringUp c s) := by
  rw [bringUp_eq, hk]
  rfl

theorem afterBringUp_eq (c : SessionCfg) (s : State) :
    afterBringUp c s =
      { takeOk s with drvLog := s.drvLog ++ [.initPinMux, .init, .configure s.params.channel c] } := by
  simp [takeOk, logCall]

/-- Past its checks, `CFG` brings the hardware up where no session is open, and opens one. -/
theorem configure_valid (ha : s.armed = ⟨false, false⟩) (hm : c.mode.toNat ∈ [0, 1, 2])
    (hb : c.bps.toNat ∈ [8, 16, 32]) (hr : s.ref ≠ s.params.refMax) :
    configure c s = (if s.ref = 0 then bringUp c s else .ok () s).bind fun _ u =>
      .ok .success (setCfg (some c) (setRef (u.ref + 1) u)) := by
  rw [← validMode_iff] at hm
  rw [← validBits_iff] at hb
  rw [configure, if_neg (by simp [anyArmed, ha, hm, hb]), if_neg hr]

/-- Settles O35: the first session brings the hardware up before it is opened, a later one is only opened. -/
theorem cfgOpensASession : Obligations.CfgOpensASession := by
  intro mode rate bits master s hs ha hm hb hr c
  have hcfg := configure_valid (c := c) ha hm hb hr
  constructor
  · intro h0 hk
    have hfirst : configure c s = .ok .success (setCfg (some c) (setRef (s.ref + 1) (afterBringUp c s))) := by
      rw [hcfg, if_pos h0, bringUp_ok hk]
      rfl
    refine (command_ok hs hfirst).trans ?_
    rw [h0, afterBringUp_eq]
    rfl
  · intro h0
    have hagain : configure c s = .ok .success (setCfg (some c) (setRef (s.ref + 1) s)) := by
      rw [hcfg, if_neg h0, Ret.bind_ok]
    exact command_ok hs hagain

/-- Settles O37: the fault ends `CFG` in the state after the three calls of bring-up. -/
theorem failedBringUpIsFatal : Obligations.FailedBringUpIsFatal := by
  intro mode rate bits master s hs ha hm hb h0 hmax hk
  let c : SessionCfg := ⟨mode, rate, bits, master⟩
  have hcfg : configure c s = .fatal .bringUp (afterBringUp c s) := by
    rw [configure_valid ha hm hb (h0 ▸ hmax.symm), if_pos h0, bringUp_fatal hk, Ret.bind_fatal]
  refine (command_fatal hs hcfg).trans ?_
  rw [afterBringUp_eq]
  rfl

end Sys2Proof.Machine
end

section
/-! O38 to O40: `END` and the release (41_lifecycle R144, R145). -/

namespace Sys2Proof.Machine

variable {s : State}

/-! ## The disarming part of a release -/

theorem Per.set_get_self {α : Type} (x : Per α) (d : Dir) : x.set d (x.get d) = x := by cases d <;> rfl

/-- The state after disarming `d`, for either value of its bit. -/
theorem afterDisarm_eq (d : Dir) (s : State) :
    afterDisarm d s =
      { takeOk^[(s.armed.get d).toNat] s with
        armed := s.armed.set d false
        cur := s.cur.set d (if s.armed.get d then 0 else s.cur.get d)
        pend := s.pend.set d (s.pend.get d && (!s.armed.get d || s.params.lateCompletion))
        drvLog := s.drvLog ++ (if s.armed.get d then [stopCall d] else []) } := by
  cases ha : s.armed.get d
  · have harmed : s.armed.set d false = s.armed := by rw [← ha, Per.set_get_self]
    simp [afterDisarm_of_not_armed d ha, harmed, Per.set_get_self]
  · simp [afterDisarm_of_armed d ha]

/-- The state after disarming both directions, the transmitter first, for any values of their bits. -/
theorem releaseDisarm_eq {a b : Bool} (ha : s.armed = ⟨a, b⟩) :
    afterDisarm .rx (afterDisarm .tx s) =
      { takeOk^[a.toNat + b.toNat] s with
        armed := ⟨false, false⟩
        cur := ⟨if a then 0 else s.cur.tx, if b then 0 else s.cur.rx⟩
        pend := ⟨s.pend.tx && (!a || s.params.lateCompletion),
          s.pend.rx && (!b || s.params.lateCompletion)⟩
        drvLog := s.drvLog ++ (if a then [.stopStreaming] else []) ++
          (if b then [.stopListening] else [])
        results := s.results } := by
  rw [afterDisarm_eq .rx, afterDisarm_eq .tx, ha]
  cases a <;> cases b <;> rfl

theorem nextOk_afterDisarm_tx (s : State) : nextOk (afterDisarm .tx s) = nextOk (takeOk^[s.armed.tx.toNat] s) := by
  rw [afterDisarm_eq]
  rfl

theorem nextOk_releaseDisarm (s : State) :
    nextOk (afterDisarm .rx (afterDisarm .tx s)) = nextOk (takeOk^[s.armed.tx.toNat + s.armed.rx.toNat] s) := by
  rw [releaseDisarm_eq rfl]
  rfl

/-! ## `END` -/

/-- Settles O38: a count that does not reach 0 calls no release. -/
theorem endOfOneOfSeveralSessions : Obligations.EndOfOneOfSeveralSessions := by
  intro s hs hr
  have h0 : s.ref ≠ 0 := by omega
  have h1 : s.ref - 1 ≠ 0 := by omega
  change execEndSession s = _
  rw [execEndSession, command_issuable hs, if_neg h0]
  simp only [setRef_ref, h1, if_false, Ret.bind_ok, endCommand]
  rfl

/-- `END` of the last session is the release, with the count already 0. -/
theorem execEndSession_last (hs : Issuable s) (hr : s.ref = 1) :
    execEndSession s = endCommand s ((releaseAll (setRef 0 s)).bind fun _ u => .ok .success u) := by
  rw [execEndSession, command_issuable hs, hr]
  rfl

/-- The state a release ends in that raises `r` at the call `c`, made in `s`. -/
def afterFailedRelease (r : FatalReason) (c : DrvCall) (s : State) : State :=
  { takeOk s with
    ref := 0
    fatal := some r
    drvLog := s.drvLog ++ [c]
    results := s.results ++ [.fatal r] }

theorem execEndSession_stopTx (hs : Issuable s) (hr : s.ref = 1) (ha : s.armed.tx = true)
    (hk : nextOk s = false) :
    execEndSession s = .next (afterFailedRelease .stopTx .stopStreaming s) := by
  rw [execEndSession_last hs hr, releaseAll, disarm_fatal .tx (s := setRef 0 s) ha hk]
  rfl

theorem execEndSession_stopRx (hs : Issuable s) (hr : s.ref = 1)
    (htx : s.armed.tx = true → nextOk s = true) (ha : s.armed.rx = true)
    (hk : nextOk (takeOk^[s.armed.tx.toNat] s) = false) :
    execEndSession s = .next (afterFailedRelease .stopRx .stopListening (afterDisarm .tx s)) := by
  rw [execEndSession_last hs hr, releaseAll, disarm_ok .tx (s := setRef 0 s) htx, Ret.bind_ok, afterDisarm_setRef,
    disarm_fatal .rx (by simpa using ha) (by rw [nextOk_setRef, nextOk_afterDisarm_tx, hk])]
  rfl

/-- Where both stops succeed or are not needed, the release comes to `deconfigure`. -/
theorem execEndSession_deconfigure (hs : Issuable s) (hr : s.ref = 1)
    (htx : s.armed.tx = true → nextOk s = true)
    (hrx : s.armed.rx = true → nextOk (takeOk^[s.armed.tx.toNat] s) = true) :
    execEndSession s = endCommand s ((callDriver (.deconfigure s.params.channel) .release
      (setRef 0 (afterDisarm .rx (afterDisarm .tx s)))).bind fun _ u => .ok .success (setCfg none u)) := by
  rw [execEndSession_last hs hr, releaseAll, disarm_ok .tx (s := setRef 0 s) htx, Ret.bind_ok, afterDisarm_setRef,
    disarm_ok .rx (by simpa [nextOk_afterDisarm_tx] using hrx), Ret.bind_ok, afterDisarm_setRef,
    setRef_params, afterDisarm_params, afterDisarm_params, Ret.bind_assoc]
  rfl

theorem execEndSession_release (hs : Issuable s) (hr : s.ref = 1)
    (htx : s.armed.tx = true → nextOk s = true)
    (hrx : s.armed.rx = true → nextOk (takeOk^[s.armed.tx.toNat] s) = true)
    (hk : nextOk (takeOk^[s.armed.tx.toNat + s.armed.rx.toNat] s) = false) :
    execEndSession s = .next (afterFailedRelease .release (.deconfigure s.params.channel)
      (afterDisarm .rx (afterDisarm .tx s))) := by
  rw [execEndSession_deconfigure hs hr htx hrx, callDriver_eq,
    if_neg (by simp [nextOk_releaseDisarm, hk])]
  rfl

/-- Settles O39: the hypothesis answers each of the calls the release makes. -/
theorem endOfTheLastSessionReleases : Obligations.EndOfTheLastSessionReleases := by
  intro s hs hr hk
  have hrel : nextOk (setRef 0 (afterDisarm .rx (afterDisarm .tx s))) = true := by
    rw [nextOk_setRef, nextOk_releaseDisarm, hk _ le_rfl]
  change execEndSession s = _
  rw [execEndSession_deconfigure hs hr (fun _ => hk 0 (Nat.zero_le _)) (fun _ => hk _ (Nat.le_add_right _ _)),
    callDriver_eq, if_pos hrel, releaseDisarm_eq rfl, Function.iterate_succ_apply']
  rfl

/-- Settles O40: the clauses are the three calls that can fail, at each of the states of the two directions that
lets the release come to them. -/
theorem failedReleaseIsFatal : Obligations.FailedReleaseIsFatal := by
  intro s hs hr
  refine ⟨execEndSession_stopTx hs hr, fun ha hk => ?_, fun ha hk hk' => ?_, fun ha hk => ?_,
    fun ha hk hk' => ?_, fun ha hk hk' => ?_, fun ha hk hk' hk'' => ?_⟩
  · refine (execEndSession_stopRx hs hr (by simp [ha]) (by simp [ha]) (by simp [ha, hk])).trans ?_
    simp [afterFailedRelease, afterDisarm_eq, ha, Per.set]
  · refine (execEndSession_stopRx hs hr (fun _ => hk) (by simp [ha]) (by simp [ha, hk'])).trans ?_
    simp [afterFailedRelease, afterDisarm_eq, ha, Per.set]
  · refine (execEndSession_release hs hr (by simp [ha]) (by simp [ha]) (by simp [ha, hk])).trans ?_
    simp [afterFailedRelease, releaseDisarm_eq ha, ha]
  · refine (execEndSession_release hs hr (fun _ => hk) (by simp [ha]) (by simp [ha, hk'])).trans ?_
    simp [afterFailedRelease, releaseDisarm_eq ha]
  · refine (execEndSession_release hs hr (by simp [ha]) (by simp [ha, hk]) (by simp [ha, hk'])).trans ?_
    simp [afterFailedRelease, releaseDisarm_eq ha]
  · refine (execEndSession_release hs hr (fun _ => hk) (by simp [ha, hk']) (by simp [ha, hk''])).trans ?_
    simp [afterFailedRelease, releaseDisarm_eq ha]

end Sys2Proof.Machine
end

section
/-! When an event is enabled (42_completion R171, R172, R179), and what an event answers that is enabled or not
(60_exceptions R237, R244). -/

namespace Sys2Proof.Machine

variable {s : State} {d : Dir}

theorem doneEnabled_iff : doneEnabled d s = true ↔ s.fatal = none ∧ s.armed.get d = true := by
  simp [doneEnabled]

theorem irqEnabled_iff :
    irqEnabled d s = true ↔ s.fatal = none ∧ s.pend.get d = true ∧
      (s.armed.get d = true ∨ s.params.lateCompletion = true) ∧ s.ctx = .foreground := by
  simp [irqEnabled, and_assoc]

theorem rxwEnabled_iff {n : Nat} :
    rxwEnabled n s = true ↔ s.fatal = none ∧ s.armed.rx = true ∧ n < s.params.ringSize := by
  simp [rxwEnabled, and_assoc]

theorem event_enabled {e : Bool} (body : State → Ret Unit) (he : e = true) :
    event e body s = endEvent s (body s) := by
  rw [event, if_pos he]

theorem event_not_enabled {e : Bool} (body : State → Ret Unit) (he : ¬e = true) :
    event e body s = .next (markRefused .event s) := by
  rw [event, if_neg he, refuseStep]

theorem execDone_enabled (he : doneEnabled d s = true) : execDone d s = .next (setPend d true s) :=
  event_enabled _ he

theorem execDone_not_enabled (he : ¬doneEnabled d s = true) : execDone d s = .next (markRefused .event s) :=
  event_not_enabled _ he

theorem execIrq_not_enabled (he : ¬irqEnabled d s = true) : execIrq d s = .next (markRefused .event s) :=
  event_not_enabled _ he

/-- The enable condition puts the byte in the ring, so the write does not stop the model. -/
theorem execRxw_enabled {n : BitVec 24} (x : Byte) (he : rxwEnabled n.toNat s = true) :
    execRxw n x s = .next { s with ring := writeBytes s.ring n.toNat [x] } := by
  obtain ⟨-, -, hn⟩ := rxwEnabled_iff.1 he
  rw [execRxw, event_enabled _ he, memWrite_inside (bs := [x]) hn, endEvent]

theorem execRxw_not_enabled {n : BitVec 24} (x : Byte) (he : ¬rxwEnabled n.toNat s = true) :
    execRxw n x s = .next (markRefused .event s) :=
  event_not_enabled _ he

end Sys2Proof.Machine
end

section
/-! O18: what interrupt context may issue (42_completion R176, R178). -/

namespace Sys2Proof.Machine

variable {s : State} {i : Instr}

/-- The checks that all commands make first are those of `command` (60_exceptions R238). -/
theorem exec_command (hi : IsCommand i) : ∃ body, ∀ s, exec i s = command body s := by
  cases i with
  | done | irq | rxw => exact absurd rfl hi
  | _ => exact ⟨_, fun _ => rfl⟩

theorem command_interrupt (body : State → Ret Result) (hc : s.ctx = .interrupt) :
    command body s = .next (markRefused .callbackCommand s) := by
  rw [command, if_pos hc, refuseStep]

/-- Settles O18: the context is the first check of every command, and a condition of the handler. -/
theorem interruptContextIssuesNothing : Obligations.InterruptContextIssuesNothing := by
  intro i s hc
  constructor
  · intro hi
    obtain ⟨body, hbody⟩ := exec_command hi
    rw [hbody, command_interrupt body hc]
  · intro d
    exact execIrq_not_enabled (by simp [irqEnabled_iff, hc])

end Sys2Proof.Machine
end

section
/-! O51: the state an enabled handler ends in (42_completion R173 to R175), in closed form. -/

namespace Sys2Proof.Machine

variable {s : State} {d : Dir} {h : Nat}

theorem execIrq_inside (he : irqEnabled d s = true) (hp : NextPosAt h s) :
    execIrq d s = .next (afterHandler d h s) := by
  have hq : queryPos (enterHandler d s) = .ok h (takePos (setPend d false s)) := queryPos_inside hp
  rw [execIrq, event_enabled _ he, hq]
  rfl

theorem notify_eq (d : Dir) (s : State) :
    notify d s = { s with notifyLog := s.notifyLog ++ (s.cb.get d).toList.map fun k => (d, k) } := by
  rcases notify_cases d s with ⟨hk, he⟩ | ⟨k, hk, he⟩ <;> rw [he, hk]
  · simp
  · rfl

/-- A cursor in segment 0 with the position goes to segment 1, one in segment 1 with it to segment 0. -/
theorem reconcile_eq (hc : s.cur.get d < s.params.ringSize) (hh : h < s.params.ringSize) :
    reconcile d h s =
      setCur d
        (if s.cur.get d < s.params.segSize ∧ h < s.params.segSize then s.params.segSize
         else if s.params.segSize ≤ s.cur.get d ∧ s.params.segSize ≤ h then 0
         else s.cur.get d) s := by
  have hstay : setCur d (s.cur.get d) s = s := by rw [setCur, Per.set_get_self]
  unfold reconcile
  rw [indexOf_of_lt_ringSize hc, indexOf_of_lt_ringSize hh]
  by_cases hc0 : s.cur.get d < s.params.segSize <;> by_cases hh0 : h < s.params.segSize
  · simp [hc0, hh0, nextSegment, segStart]
  · simp [hc0, hh0, Nat.not_le_of_lt hc0, hstay]
  · simp [hc0, hh0, Nat.not_le_of_lt hh0, hstay]
  · simp [hc0, hh0, Nat.le_of_not_lt, nextSegment, segStart]

/-- Settles O51: the hypotheses enable the handler and answer its query. -/
theorem handlerReconcilesAndNotifies : Obligations.HandlerReconcilesAndNotifies := by
  intro d s h _ hfatal hctx hpend harmed hcur hp
  refine (execIrq_inside (irqEnabled_iff.2 ⟨hfatal, hpend, harmed, hctx⟩) hp).trans ?_
  rw [afterHandler, reconcile_eq (s := takePos (setPend d false s)) hcur hp.1, notify_eq]
  rfl

end Sys2Proof.Machine
end

section
/-! O59: a position outside the ring (42_completion R170), from the query out to the commands that make it. -/

namespace Sys2Proof.Machine

variable {s : State} {d : Dir} {c : SessionCfg}

theorem queryPos_afterArm_outside (hp : NextPosOutside s) :
    queryPos (afterArm d c s) = .fatal .hwPos (takePos (afterArm d c s)) :=
  queryPos_outside (by simpa [NextPosOutside] using hp)

theorem sampleWidth_afterArm (hr : DataReady d c s) :
    sampleWidth (afterArm d c s) = .ok c.wb (afterArm d c s) := by
  obtain ⟨-, -, hc, -⟩ := hr
  rw [sampleWidth, afterArm_cfg, hc]

theorem available_outside (hr : DataReady d c s) (hp : NextPosOutside s) :
    available d s = .fatal .hwPos (takePos (afterArm d c s)) := by
  rw [available, prelude_ready hr, Ret.bind_ok, queryPos_afterArm_outside hp, Ret.bind_fatal]

theorem sampleAtCur_outside (hr : DataReady .rx c s) (hp : NextPosOutside s) :
    sampleAtCur s = .fatal .hwPos (takePos (afterArm .rx c s)) := by
  rw [sampleAtCur, prelude_ready hr, Ret.bind_ok, sampleWidth_afterArm hr, Ret.bind_ok,
    queryPos_afterArm_outside hp, Ret.bind_fatal]

theorem execRds_outside (hr : DataReady .rx c s) (hp : NextPosOutside s) :
    execRds s = .next (giveResult (.fatal .hwPos) (raiseFatal .hwPos (takePos (afterArm .rx c s)))) :=
  command_fatal hr.1 (by rw [sampleAtCur_outside hr hp, Ret.bind_fatal])

theorem execPks_outside (hr : DataReady .rx c s) (hp : NextPosOutside s) :
    execPks s = .next (giveResult (.fatal .hwPos) (raiseFatal .hwPos (takePos (afterArm .rx c s)))) :=
  command_fatal hr.1 (by rw [sampleAtCur_outside hr hp, Ret.bind_fatal])

theorem writeOut_outside (bs : List Byte) (hp : NextPosOutside s) :
    writeOut bs s = .fatal .hwPos (takePos s) := by
  rw [writeOut, queryPos_outside hp, Ret.bind_fatal]

theorem execRdb_outside (n : BitVec 24) (hr : DataReady .rx c s) (hp : NextPosOutside s) :
    execRdb n s = .next (giveResult (.fatal .hwPos) (raiseFatal .hwPos (takePos (afterArm .rx c s)))) :=
  command_fatal hr.1 (by rw [prelude_ready hr, Ret.bind_ok, queryPos_afterArm_outside hp, Ret.bind_fatal])

theorem execWrb_outside (p : List Byte) (hr : DataReady .tx c s) (hp : NextPosOutside s) :
    execWrb p s = .next (giveResult (.fatal .hwPos) (raiseFatal .hwPos (takePos (afterArm .tx c s)))) :=
  command_fatal hr.1 (by rw [prelude_ready hr, Ret.bind_ok, writeOut_outside p (by simpa [NextPosOutside] using hp)])

/-- `WRS` aligns its cursor before the query (43_streaming R197). -/
theorem execWrs_outside (v : Word) (hr : DataReady .tx c s) (hp : NextPosOutside s) :
    execWrs v s =
      .next (giveResult (.fatal .hwPos) (raiseFatal .hwPos
        (takePos (setCur .tx (alignDown (startCursor .tx s) c.wb) (afterArm .tx c s))))) := by
  refine command_fatal hr.1 ?_
  rw [prelude_ready hr, Ret.bind_ok, sampleWidth_afterArm hr, Ret.bind_ok,
    writeOut_outside _ (by simpa [NextPosOutside] using hp), afterArm_cur, Per.set_tx_tx]

theorem execIrq_outside (he : irqEnabled d s = true) (hp : NextPosOutside s) :
    execIrq d s = .next (raiseFatal .hwPos (takePos (setPend d false s))) := by
  have hq : queryPos (enterHandler d s) = .fatal .hwPos (takePos (setPend d false s)) := queryPos_outside hp
  rw [execIrq, event_enabled _ he, hq]
  rfl

/-- Settles O59: the query ends each command in the state it is made in, and the handler too. -/
theorem positionOutsideTheRingIsFatal : Obligations.PositionOutsideTheRingIsFatal := by
  intro s c hp
  refine ⟨fun hr i hi => ?_, fun hr i hi => ?_, fun hr v => execWrs_outside v hr hp,
    fun d he => execIrq_outside he hp⟩
  · rcases hi with rfl | ⟨n, rfl⟩ | rfl | rfl
    · exact command_fatal hr.1 (available_outside hr hp)
    · exact execRdb_outside n hr hp
    · exact execRds_outside hr hp
    · exact execPks_outside hr hp
  · rcases hi with rfl | ⟨p, rfl⟩
    · exact command_fatal hr.1 (available_outside hr hp)
    · exact execWrb_outside p hr hp

end Sys2Proof.Machine
end

section
/-! O45, O47, O50, O52: the pending bits and the events (42_completion R171, R172, R179, R180). -/

namespace Sys2Proof.Machine

variable {s : State} (d : Dir)

/-- The handler of a disarmed direction is enabled where the disable kept its pending bit. -/
theorem disable_keeps_pending (hs : Issuable s) (hl : s.params.lateCompletion = true) (hk : nextOk s = true)
    (hp : s.pend.get d = true) :
    ∃ t, command (disable d) s = .next t ∧ t.armed.get d = false ∧ t.pend.get d = true ∧
      irqEnabled d t = true := by
  have hpend : (afterDisarm d s).pend.get d = true := by simp [afterDisarm_pend_get, hl, hp]
  refine ⟨_, disable_ok d hs fun _ => hk, by simp, hpend, irqEnabled_iff.2 ⟨?_, hpend, .inr ?_, ?_⟩⟩
  · simpa using hs.2
  · simpa using hl
  · simpa using hs.1

/-- Settles O45: a disable clears the pending bit only without late completions. -/
theorem lateCompletionSurvivesDisable : Obligations.LateCompletionSurvivesDisable :=
  fun _ hs hl hk =>
    ⟨fun _ hp => disable_keeps_pending .tx hs hl hk hp, fun _ hp => disable_keeps_pending .rx hs hl hk hp⟩

/-- Settles O47: each hypothesis negates one of the conditions that enable the event. -/
theorem eventsNotEnabledAreRefused : Obligations.EventsNotEnabledAreRefused := by
  intro s
  refine ⟨fun d hd => execDone_not_enabled ?_, fun d hd => execIrq_not_enabled ?_,
    fun n x hn => execRxw_not_enabled x ?_⟩
  · rw [doneEnabled_iff]
    rintro ⟨hfatal, harmed⟩
    simp [hfatal, harmed] at hd
  · rw [irqEnabled_iff]
    rintro ⟨hfatal, hpend, harmed, -⟩
    rcases harmed with harmed | harmed <;> simp [hfatal, hpend, harmed] at hd
  · rw [rxwEnabled_iff]
    rintro ⟨hfatal, harmed, hlt⟩
    simp [hfatal, harmed, Nat.not_le_of_lt hlt] at hn

/-- Settles O50: setting a bit that is set changes nothing. -/
theorem doneSetsThePendingBit : Obligations.DoneSetsThePendingBit := by
  intro d s hfatal harmed
  have hdone := execDone_enabled (doneEnabled_iff.2 ⟨hfatal, harmed⟩)
  refine ⟨hdone, fun hp => hdone.trans ?_⟩
  rw [setPend, ← hp, Per.set_get_self]

theorem ringByte_writeBytes_one (n a : Nat) (x : Byte) :
    ringByte { s with ring := writeBytes s.ring n [x] } a = if a = n then x else ringByte s a := by
  rw [ringByte_writeBytes]
  by_cases ha : a = n
  · simp [ha]
  · rw [if_neg ha, if_neg (by simp only [List.length_singleton]; omega)]

/-- Settles O52: an offset in the ring with RX armed enables the event. -/
theorem rxwStoresOneByte : Obligations.RxwStoresOneByte := fun _ x _ hfatal harmed hn =>
  ⟨_, execRxw_enabled x (rxwEnabled_iff.2 ⟨hfatal, harmed, hn⟩), rfl, fun a => ringByte_writeBytes_one _ a x⟩

end Sys2Proof.Machine
end

section
/-! O34: a sample as bytes and bytes as a value (43_streaming R202, R203, 20_memory R54), for every width. -/

namespace Sys2Proof.Machine

/-! ## The bytes of a sample -/

theorem sampleBytes_eq (v : BitVec 32) (wb : Nat) :
    sampleBytes v wb = (List.range wb).map fun i => v.extractLsb' (8 * i) 8 := by
  induction wb generalizing v with
  | zero => rfl
  | succ wb ih =>
    have hshift (i : Nat) : (v >>> 8).extractLsb' (8 * i) 8 = v.extractLsb' (8 * (i + 1)) 8 := by
      apply BitVec.eq_of_getLsbD_eq
      intro j _
      simp only [BitVec.getLsbD_extractLsb', BitVec.getLsbD_ushiftRight]
      congr 2
      omega
    rw [sampleBytes, ih, List.range_succ_eq_map, List.map_cons, List.map_map]
    exact congrArg _ (List.map_congr_left fun i _ => hshift i)

@[simp] theorem sampleBytes_length (v : BitVec 32) (wb : Nat) : (sampleBytes v wb).length = wb := by
  simp [sampleBytes_eq]

/-! ## The value of bytes -/

/-- Each byte counts by its place (20_memory R54). -/
theorem assemble_map_range (f : Nat → Byte) (n : Nat) :
    assemble ((List.range n).map f) = ((List.range n).map fun i => (f i).toNat * 2 ^ (8 * i)).sum := by
  induction n generalizing f with
  | zero => rfl
  | succ n ih =>
    have hplace (i : Nat) : (f (i + 1)).toNat * 2 ^ (8 * (i + 1)) = 256 * ((f (i + 1)).toNat * 2 ^ (8 * i)) := by
      ring
    rw [List.range_succ_eq_map, List.map_cons, List.map_map, assemble, ih, List.map_cons, List.map_map,
      List.sum_cons, ← List.sum_map_mul_left]
    simp [Function.comp_def, hplace]

theorem eq_map_range_getD (bs : List Byte) : bs = (List.range bs.length).map fun i => (bs[i]?).getD 0 := by
  apply List.ext_getElem
  · simp
  · intro i hi _
    simp [hi]

theorem assemble_lt (bs : List Byte) : assemble bs < 2 ^ (8 * bs.length) := by
  induction bs with
  | nil => decide
  | cons b bs ih =>
    have hb : b.toNat < 256 := b.isLt
    have hpow : 2 ^ (8 * (bs.length + 1)) = 256 * 2 ^ (8 * bs.length) := by ring
    rw [assemble, List.length_cons, hpow]
    omega

theorem assemble_replicate_zero (k : Nat) : assemble (List.replicate k 0) = 0 := by
  induction k with
  | zero => rfl
  | succ k ih =>
    rw [List.replicate_succ, assemble, ih]
    rfl

/-- The missing high bytes of a short sample count for nothing (43_streaming R195). -/
theorem assemble_zeroFill (wb n : Nat) (bs : List Byte) : assemble (zeroFill wb n bs) = assemble bs := by
  unfold zeroFill
  induction bs with
  | nil => exact assemble_replicate_zero _
  | cons b bs ih => rw [List.cons_append, assemble, ih, assemble]

/-- A number of `n` bits, up to the width of a sample value, is read in two's complement (43_streaming R202). -/
theorem toInt_signExtend_ofNat {n x : Nat} (hn : 0 < n) (hn32 : n ≤ 32) (hx : x < 2 ^ n) :
    ((BitVec.ofNat n x).signExtend 32).toInt = if x < 2 ^ (n - 1) then (x : Int) else (x : Int) - 2 ^ n := by
  have hpow : 2 ^ n = 2 * 2 ^ (n - 1) := by rw [← pow_succ', Nat.sub_add_cancel hn]
  have hsign : 2 * x < 2 ^ n ↔ x < 2 ^ (n - 1) := by omega
  rw [BitVec.toInt_signExtend_of_le hn32, BitVec.toInt_eq_toNat_cond, BitVec.toNat_ofNat, Nat.mod_eq_of_lt hx]
  simp only [hsign, Nat.cast_pow, Nat.cast_ofNat]

/-- Settles O34: the widths only bound the value by 32 bits. -/
theorem sampleBytesAndValue : Obligations.SampleBytesAndValue := by
  intro wb hwb
  refine ⟨fun v => sampleBytes_eq v wb, fun bs hlen => ?_⟩
  obtain ⟨hpos, hle⟩ : 0 < 8 * wb ∧ 8 * wb ≤ 32 := by
    simp only [List.mem_cons, List.not_mem_nil, or_false] at hwb
    omega
  have hsum := assemble_map_range (fun i => (bs[i]?).getD 0) bs.length
  rw [← eq_map_range_getD, hlen] at hsum
  have hlt := assemble_lt bs
  rw [hlen] at hlt
  rw [← hsum]
  exact toInt_signExtend_ofNat hpos hle hlt

end Sys2Proof.Machine
end

section
/-! O53 to O57: a data command that is ready and finds its position in the ring (43_streaming R191 to R197): the
prelude, the query and the copy, each as one rule, and the commands as their sequences. -/

namespace Sys2Proof.Machine

variable {s t : State} {d : Dir} {c : SessionCfg} {h : Nat}

/-! ## What the bytes of the ring depend on -/

/-- The bytes in ring order depend on the ring and its size alone. -/
theorem ringBytes_congr (hring : t.ring = s.ring) (hparams : t.params = s.params) (o n : Nat) :
    ringBytes t o n = ringBytes s o n := by
  simp only [ringBytes, ringByte_congr hring, hparams]

theorem StoredAt.congr {s' t' : State} {o : Nat} {bs : List Byte} (hst : StoredAt o bs s t)
    (hring : s'.ring = s.ring) (hparams : s'.params = s.params) (hring' : t'.ring = t.ring) :
    StoredAt o bs s' t' := by
  intro a
  rw [ringByte_congr hring', ringByte_congr hring, hparams]
  exact hst a

/-! ## The cursor -/

theorem setCur_setCur (d : Dir) (v w : Nat) (s : State) : setCur d v (setCur d w s) = setCur d v s := by
  cases d <;> rfl

/-- A cursor in the ring moves on in ring order (40_ring R115). -/
theorem moveCur_eq_ringOffset {n : Nat} (hcur : s.cur.get d < s.params.ringSize) (hn : n ≤ s.params.ringSize) :
    moveCur d n s = setCur d (ringOffset s.params (s.cur.get d) n) s := by
  rw [moveCur, advance_eq_ringOffset hcur hn]

theorem startCursor_lt_ringSize (hp : s.params.Legal) (hcur : s.cur.get d < s.params.ringSize) :
    startCursor d s < s.params.ringSize :=
  startCursor_lt hcur (Legal.segSize_lt hp)

/-! ## The query after arming -/

theorem queryPos_afterArm_inside (hp : NextPosAt h s) :
    queryPos (afterArm d c s) = .ok h (takePos (afterArm d c s)) :=
  queryPos_inside (by simpa [NextPosAt] using hp)

theorem truncated_afterArm (request h : Nat) :
    truncated d request h (takePos (afterArm d c s)) = min request (ringDist s.params h (startCursor d s)) := by
  simp [truncated]

/-! ## The available count -/

theorem available_inside (hr : DataReady d c s) (hp : NextPosAt h s) :
    available d s = .ok (.count (ringDist s.params h (startCursor d s))) (takePos (afterArm d c s)) := by
  rw [available, prelude_ready hr, Ret.bind_ok, queryPos_afterArm_inside hp, Ret.bind_ok]
  simp

/-- Settles O53: the cursor after arming is the one the command starts from. -/
theorem availableCountsReturnTheDistance : Obligations.AvailableCountsReturnTheDistance := fun _ _ _ hp =>
  ⟨fun hr => command_ok hr.1 (available_inside hr hp), fun hr => command_ok hr.1 (available_inside hr hp)⟩

/-! ## Reading at the receive cursor -/

/-- The state a read of `n` bytes ends in that moves the cursor. -/
theorem moveCur_afterArm {n : Nat} (hstart : startCursor d s < s.params.ringSize) (hn : n ≤ s.params.ringSize) :
    moveCur d n (takePos (afterArm d c s)) =
      setCur d (ringOffset s.params (startCursor d s) n) (takePos (afterArm d c s)) := by
  rw [moveCur_eq_ringOffset (by simpa using hstart) (by simpa using hn)]
  simp

theorem ringRead_afterArm {n : Nat} (hstart : startCursor .rx s < s.params.ringSize) (hn : n ≤ s.params.ringSize) :
    ringRead (takePos (afterArm .rx c s)).cur.rx n (takePos (afterArm .rx c s)) =
      .ok (ringBytes s (startCursor .rx s) n) (takePos (afterArm .rx c s)) := by
  have hcur : (takePos (afterArm .rx c s)).cur.rx = startCursor .rx s := by simp
  rw [hcur, ringRead_eq_ringBytes (by simpa using hstart) (by simpa using hn),
    ringBytes_congr (s := s) (by simp) (by simp)]

theorem execRdb_inside (count : BitVec 24) (hstart : startCursor .rx s < s.params.ringSize)
    (hr : DataReady .rx c s) (hp : NextPosAt h s) :
    let n := min count.toNat (ringDist s.params h (startCursor .rx s))
    execRdb count s =
      .next (giveResult (.block n (ringBytes s (startCursor .rx s) n))
        (setCur .rx (ringOffset s.params (startCursor .rx s) n) (takePos (afterArm .rx c s)))) := by
  intro n
  have hn : n ≤ s.params.ringSize := min_ringDist_le hp.1
  refine command_ok hr.1 ?_
  rw [prelude_ready hr, Ret.bind_ok, queryPos_afterArm_inside hp, Ret.bind_ok]
  simp only [truncated_afterArm]
  rw [ringRead_afterArm hstart hn, Ret.bind_ok, moveCur_afterArm hstart hn]

/-- Settles O54: the block is read where the command starts, and is no longer than the ring. -/
theorem rdbReadsABlock : Obligations.RdbReadsABlock := fun count _ _ _ hlegal hcur hr hp =>
  execRdb_inside count (startCursor_lt_ringSize hlegal hcur) hr hp

theorem sampleAtCur_inside (hstart : startCursor .rx s < s.params.ringSize) (hr : DataReady .rx c s)
    (hp : NextPosAt h s) :
    let n := min c.wb (ringDist s.params h (startCursor .rx s))
    sampleAtCur s =
      .ok (n, sampleValue c.wb (zeroFill c.wb n (ringBytes s (startCursor .rx s) n)))
        (takePos (afterArm .rx c s)) := by
  intro n
  rw [sampleAtCur, prelude_ready hr, Ret.bind_ok, sampleWidth_afterArm hr, Ret.bind_ok,
    queryPos_afterArm_inside hp, Ret.bind_ok]
  simp only [truncated_afterArm]
  rw [ringRead_afterArm hstart (min_ringDist_le hp.1), Ret.bind_ok]

/-- The value of a short sample is the number of the bytes read (43_streaming R195, R202). -/
theorem sampleValue_zeroFill_ringBytes (s : State) (wb o n : Nat) :
    sampleValue wb (zeroFill wb n (ringBytes s o n)) =
      (BitVec.ofNat (8 * wb) ((List.range n).map fun i =>
        (ringByte s (ringOffset s.params o i)).toNat * 2 ^ (8 * i)).sum).signExtend 32 := by
  rw [sampleValue, assemble_zeroFill, ringBytes, assemble_map_range]

/-- Settles O56: both read one sample, and `RDS` moves on by the bytes read. -/
theorem rdsAndPksReadASample : Obligations.RdsAndPksReadASample := by
  intro s c h hlegal hcur hr hp o n w v
  have hstart : o < s.params.ringSize := startCursor_lt_ringSize hlegal hcur
  have hsample : sampleAtCur s = .ok (n, v) (takePos (afterArm .rx c s)) := by
    rw [sampleAtCur_inside hstart hr hp, sampleValue_zeroFill_ringBytes]
  change execRds s = _ ∧ execPks s = _
  constructor
  · refine command_ok hr.1 ?_
    rw [hsample, Ret.bind_ok, moveCur_afterArm hstart (min_ringDist_le hp.1)]
  · exact command_ok hr.1 (by rw [hsample, Ret.bind_ok])

/-! ## Writing at the transmit cursor -/

/-- The copy into the ring stores what fits before the position and moves the cursor past it (43_streaming R194,
R197, R201). -/
theorem writeOut_inside {o : Nat} (bs : List Byte) (hcur : o = s.cur.tx) (ho : o < s.params.ringSize)
    (hp : NextPosAt h s) :
    let n := min bs.length (ringDist s.params h o)
    ∃ m, writeOut bs s = .ok (.count n) (setCur .tx (ringOffset s.params o n) { takePos s with ring := m }) ∧
      StoredAt o (bs.take n) s { s with ring := m } := by
  intro n
  have hn : n ≤ s.params.ringSize := min_ringDist_le hp.1
  obtain ⟨m, hwrite, hstored⟩ := ringWrite_stores (s := takePos s) (bs := bs.take n) ho
    ((List.length_take_le _ _).trans hn)
  refine ⟨m, ?_, hstored⟩
  subst hcur
  have hmove := moveCur_eq_ringOffset (s := { takePos s with ring := m }) (d := .tx) ho hn
  rw [writeOut, queryPos_inside hp, Ret.bind_ok]
  change (ringWrite s.cur.tx (bs.take n) (takePos s)).bind (fun _ u => .ok (Result.count n) (moveCur .tx n u)) = _
  rw [hwrite, Ret.bind_ok, hmove]
  rfl

/-- The copy after arming, from an offset `o` of the ring on. -/
theorem writeOut_afterArm (c : SessionCfg) {o : Nat} (bs : List Byte) (ho : o < s.params.ringSize)
    (hp : NextPosAt h s) :
    let n := min bs.length (ringDist s.params h o)
    ∃ t, writeOut bs (setCur .tx o (afterArm .tx c s)) = .ok (.count n) t ∧
      StoredAt o (bs.take n) s t ∧
      { t with ring := s.ring } = setCur .tx (ringOffset s.params o n) (takePos (afterArm .tx c s)) := by
  intro n
  obtain ⟨m, hwrite, hstored⟩ := writeOut_inside (s := setCur .tx o (afterArm .tx c s)) (o := o) bs
    (by simp) (by simpa using ho) (by simpa [NextPosAt] using hp)
  rw [setCur_params, afterArm_params] at hwrite hstored
  have hframe : { takePos (afterArm .tx c s) with ring := s.ring } = takePos (afterArm .tx c s) := by
    rw [← afterArm_ring .tx c s]
    rfl
  refine ⟨_, hwrite, hstored.congr (by simp) (by simp) rfl, ?_⟩
  rw [← hframe]
  rfl

theorem execWrb_inside (payload : List Byte) (hstart : startCursor .tx s < s.params.ringSize)
    (hr : DataReady .tx c s) (hp : NextPosAt h s) :
    let o := startCursor .tx s
    let n := min payload.length (ringDist s.params h o)
    ∃ t, execWrb payload s = .next (giveResult (.count n) t) ∧ StoredAt o (payload.take n) s t ∧
      { t with ring := s.ring } = setCur .tx (ringOffset s.params o n) (takePos (afterArm .tx c s)) := by
  intro o n
  obtain ⟨t, hwrite, hstored, hframe⟩ := writeOut_afterArm c payload hstart hp
  have hcur := setCur_self (afterArm .tx c s)
  rw [afterArm_cur, Per.set_tx_tx] at hcur
  rw [hcur] at hwrite
  exact ⟨t, command_ok hr.1 (by rw [prelude_ready hr, Ret.bind_ok, hwrite]), hstored, hframe⟩

/-- Settles O55: the cursor the command starts from is the one arming leaves. -/
theorem wrbWritesABlock : Obligations.WrbWritesABlock := by
  intro payload s c h hlegal hcur hr hp o n
  obtain ⟨t, hexec, hstored, hframe⟩ := execWrb_inside payload (startCursor_lt_ringSize hlegal hcur) hr hp
  exact ⟨_, hexec, hstored.congr rfl rfl rfl, congrArg (giveResult _) hframe⟩

theorem execWrs_inside (v : Word) (hstart : startCursor .tx s < s.params.ringSize)
    (hr : DataReady .tx c s) (hp : NextPosAt h s) :
    let o := alignDown (startCursor .tx s) c.wb
    let n := min c.wb (ringDist s.params h o)
    ∃ t, execWrs v s = .next (giveResult (.count n) t) ∧ StoredAt o ((sampleBytes v c.wb).take n) s t ∧
      { t with ring := s.ring } = setCur .tx (ringOffset s.params o n) (takePos (afterArm .tx c s)) := by
  intro o n
  have ho : o < s.params.ringSize := (alignDown_le _ _).trans_lt hstart
  obtain ⟨t, hwrite, hstored, hframe⟩ := writeOut_afterArm c (sampleBytes v c.wb) ho hp
  rw [sampleBytes_length] at hwrite hstored hframe
  refine ⟨t, command_ok hr.1 ?_, hstored, hframe⟩
  rw [prelude_ready hr, Ret.bind_ok, sampleWidth_afterArm hr, Ret.bind_ok, afterArm_cur, Per.set_tx_tx, hwrite]

/-- Settles O57: rounding down stays in the ring, and the bytes stored are the lowest of the sample. -/
theorem wrsWritesASample : Obligations.WrsWritesASample := by
  intro v s c h hlegal hcur hr hp o n
  obtain ⟨t, hexec, hstored, hframe⟩ := execWrs_inside v (startCursor_lt_ringSize hlegal hcur) hr hp
  rw [sampleBytes_eq, ← List.map_take, List.take_range, Nat.min_eq_left (Nat.min_le_left _ _)] at hstored
  exact ⟨_, hexec, hstored.congr rfl rfl rfl, congrArg (giveResult _) hframe⟩

end Sys2Proof.Machine
end

section
/-! O60, O46, O58: data commands that fail to arm or find no session (43_streaming R190, 41_lifecycle R150), the
refusals of the other commands' own checks (40_ring R119, R120, 41_lifecycle R142, R144), and the commands that
write no more than a sink (43_streaming R198 to R200). -/

namespace Sys2Proof.Machine

variable {s : State} {c : SessionCfg} {d : Dir} {i : Instr}

theorem command_refuse {body : State → Ret Result} {r : RefReason} (hs : Issuable s) (hb : body s = .refuse r) :
    command body s = .next (markRefused r s) := by
  rw [command_issuable hs, hb, endCommand, refuseStep]

/-! ## The prelude comes first -/

theorem command_congr {body body' : State → Ret Result} (h : body s = body' s) :
    command body s = command body' s := by
  simp only [command, h]

theorem command_sample_eq_prelude (f : Nat × BitVec 32 → State → Ret Result) :
    ∃ rest : Unit → State → Ret Result, ∀ s,
      command (fun s => (sampleAtCur s).bind f) s = command (fun s => (prelude .rx s).bind rest) s :=
  ⟨_, fun _ => command_congr (Ret.bind_assoc _ _ _)⟩

/-- Whatever arms a direction begins with its prelude (43_streaming R190, 41_lifecycle R146, R147). -/
theorem exec_eq_prelude (hi : Instr.arms i = some d) :
    ∃ rest : Unit → State → Ret Result, ∀ s, exec i s = command (fun s => (prelude d s).bind rest) s := by
  cases i <;> cases hi
  case entx | enrx => exact ⟨fun _ u => .ok .success u, fun s => command_congr (enable_eq_prelude _ s)⟩
  case rds | pks => exact command_sample_eq_prelude _
  all_goals exact ⟨_, fun _ => rfl⟩

theorem exec_unconfigured (hi : Instr.arms i = some d) (hs : Issuable s) (h0 : s.ref = 0) :
    exec i s = .next (markRefused .notConfigured s) := by
  obtain ⟨rest, hrest⟩ := exec_eq_prelude hi
  rw [hrest]
  exact command_refuse hs (by rw [prelude_unconfigured h0, Ret.bind_refuse])

theorem exec_start_fatal (hi : Instr.arms i = some d) (hs : Issuable s) (hr : s.ref ≠ 0) (hc : s.cfg = some c)
    (ha : s.armed.get d = false) (hk : nextOk s = false) :
    exec i s =
      .next (giveResult (.fatal (startReason d))
        (raiseFatal (startReason d) (afterCall (startCall s.params c.wb d) s))) := by
  obtain ⟨rest, hrest⟩ := exec_eq_prelude hi
  rw [hrest]
  exact command_fatal hs (by rw [prelude_fatal d hr hc ha hk, Ret.bind_fatal])

/-- Settles O60: each of these commands arms its direction before all else. -/
theorem failedLazyArmingIsFatal : Obligations.FailedLazyArmingIsFatal := by
  intro s c hs hr hc hk
  constructor <;> intro ha i hi
  · have harms : Instr.arms i = some .rx := by rcases hi with rfl | ⟨n, rfl⟩ | rfl | rfl <;> rfl
    exact exec_start_fatal harms hs hr hc ha hk
  · have harms : Instr.arms i = some .tx := by rcases hi with rfl | ⟨p, rfl⟩ | ⟨v, rfl⟩ <;> rfl
    exact exec_start_fatal harms hs hr hc ha hk

/-! ## The other commands' own checks -/

theorem execEndSession_unbalanced (hs : Issuable s) (h0 : s.ref = 0) :
    execEndSession s = .next (markRefused .unbalancedEnd s) :=
  command_refuse hs (if_pos h0)

theorem configure_refMax (ha : s.armed = ⟨false, false⟩) (hm : c.mode.toNat ∈ [0, 1, 2])
    (hb : c.bps.toNat ∈ [8, 16, 32]) (hr : s.ref = s.params.refMax) :
    configure c s = .refuse .refOverflow := by
  rw [← validMode_iff] at hm
  rw [← validBits_iff] at hb
  rw [configure, if_neg (by simp [anyArmed, ha, hm, hb]), if_pos hr]

theorem execIdx_outside {o : BitVec 24} (hs : Issuable s) (ho : s.params.ringSize ≤ o.toNat) :
    execIdx o s = .next (markRefused .range s) :=
  command_refuse hs (if_pos ho)

theorem execAdv_not_armed (a : BitVec 23) (hs : Issuable s) (ha : s.armed.get d = false) :
    execAdv d a s = .next (markRefused .notArmed s) :=
  command_refuse hs (if_neg (by simp [ha]))

theorem execAdv_too_far {a : BitVec 23} (hs : Issuable s) (ha : s.armed.get d = true)
    (hlt : s.params.ringSize < a.toNat) : execAdv d a s = .next (markRefused .range s) :=
  command_refuse hs (by rw [if_pos ha, if_pos hlt])

/-- Settles O46: no session stops a command at its prelude or `END` at its count. -/
theorem commandsTurnedAway : Obligations.CommandsTurnedAway := by
  intro s hs
  refine ⟨fun h0 => ?_, fun mode rate bits master ha hm hb hr => command_refuse hs (configure_refMax ha hm hb hr),
    fun o => execIdx_outside hs, fun d a => execAdv_not_armed a hs, fun d a => execAdv_too_far hs⟩
  have hnone {i : Instr} {d : Dir} (hi : Instr.arms i = some d) := exec_unconfigured hi hs h0
  exact ⟨hnone rfl, hnone rfl, fun _ => hnone rfl, fun _ => hnone rfl, hnone rfl, hnone rfl, fun _ => hnone rfl,
    hnone rfl, hnone rfl, execEndSession_unbalanced hs h0⟩

/-! ## Flush and registration -/

/-- Settles O58: the three bodies go on without a check. -/
theorem flushAndRegistration : Obligations.FlushAndRegistration := fun _ hs =>
  ⟨command_ok (body := fun s => .ok .success s) hs rfl,
    fun k => command_ok (body := fun s => .ok .success (setCb .tx k s)) hs rfl,
    fun k => command_ok (body := fun s => .ok .success (setCb .rx k s)) hs rfl⟩

end Sys2Proof.Machine
end

section
/-! O19: a count handed to the host is bounded by the distance to a position in the ring (43_streaming R201). -/

namespace Sys2Proof.Machine

variable {s t : State} {i : Instr}

/-- The number of bytes a result counts (60_exceptions R235). -/
def Result.byteCount : Result → Option Nat
  | .count n => some n
  | .block n _ => some n
  | _ => none

theorem last_result_eq {u : State} {q r : Result} {l : List Result} (h : (giveResult q u).results = l ++ [r]) :
    q = r := by
  rw [giveResult_results] at h
  exact List.singleton_inj.1 (List.append_inj' h rfl).2

/-- A count is given by a command that finds a position, and is no more than the distance to it. -/
theorem Effect.byteCount_lt {r : Result} {n : Nat} (he : Effect s i t) (hr : t.results = s.results ++ [r])
    (hn : r.byteCount = some n) : n < s.params.ringSize := by
  cases he with
  | available _ _ _ _ hp =>
    cases last_result_eq hr
    cases hn
    exact ringDist_lt hp.1
  | readBlock _ _ _ hp | write _ _ _ hp =>
    cases last_result_eq hr
    cases hn
    exact (min_le_right _ _).trans_lt (ringDist_lt hp.1)
  | refused | done | handlerFails | received => simp at hr
  | handler => simp [afterHandler_drvLog_results] at hr
  | _ =>
    cases last_result_eq hr
    cases hn

/-- Settles O19: both forms of the result have a byte count, and its bound holds of every effect. -/
theorem countsStayBelowRing : Obligations.CountsStayBelowRing := by
  intro i s t n _ h hr
  have he := exec_effect h
  rcases hr with hr | ⟨bs, hr⟩ <;> exact Nat.le_sub_one_of_lt (he.byteCount_lt hr rfl)

end Sys2Proof.Machine
end

section
/-! O13: the bytes a store can change (43_streaming R194, R197, R201, 42_completion R179), with no assumption on
the state: a split write that goes through has its pieces in the ring. -/

namespace Sys2Proof.Machine

variable {s t : State} {i : Instr} {o a : Nat}

theorem memWrite_ok {bs : List Byte} (h : memWrite o bs s = .ok () t) :
    o + bs.length ≤ s.params.ringSize ∧ t = { s with ring := writeBytes s.ring o bs } := by
  unfold memWrite at h
  split at h <;> cases h
  exact ⟨‹_›, rfl⟩

/-- A block write leaves the offsets before and after it. -/
theorem ringByte_memWrite_other {bs : List Byte} (h : memWrite o bs s = .ok () t)
    (ha : ¬(o ≤ a ∧ a < o + bs.length)) : ringByte t a = ringByte s a := by
  obtain ⟨-, rfl⟩ := memWrite_ok h
  rw [ringByte_writeBytes, if_neg ha]

/-- A split write of no more than the ring leaves every offset that is not one of the next `bs.length` in ring
order. It may start at the ring end, where its first piece is empty. -/
theorem ringByte_ringWrite_other {bs : List Byte} (h : ringWrite o bs s = .ok () t)
    (hn : bs.length ≤ s.params.ringSize)
    (ha : ¬(a < s.params.ringSize ∧ ringAfter s.params o a < bs.length)) : ringByte t a = ringByte s a := by
  obtain ⟨_, u, hfirst, hsecond⟩ := Ret.bind_eq_ok h
  obtain ⟨hend, hu⟩ := memWrite_ok hfirst
  have hk : splitFirst s.params o bs.length = min bs.length (s.params.ringSize - o) := rfl
  rw [List.length_take] at hend
  rw [ringByte_memWrite_other hsecond, ringByte_memWrite_other hfirst]
  · rw [List.length_take]
    rintro ⟨hle, hlt⟩
    have hring : a < s.params.ringSize := by omega
    exact ha ⟨hring, by rw [ringAfter_of_le hle hring]; omega⟩
  · rw [List.length_drop]
    rintro ⟨-, hlt⟩
    have hafter : ringAfter s.params o a = a + s.params.ringSize - o := Nat.mod_eq_of_lt (by omega)
    exact ha ⟨by omega, by omega⟩

/-- The offset and the bytes with which a write command comes to the ring (43_streaming R194, R197). -/
inductive WritesFrom (s : State) : Instr → Nat → List Byte → Prop where
  | block (p : List Byte) : WritesFrom s (.wrb p) (startCursor .tx s) p
  | sample (v : Word) {c : SessionCfg} (hc : s.cfg = some c) :
      WritesFrom s (.wrs v) (alignDown (startCursor .tx s) c.wb) (sampleBytes v c.wb)

/-- All that `t` has of the ring is as in `s`, but for the bytes of `bs` that fit between `o` and the position. -/
def LeavesOthers (s t : State) (o : Nat) (bs : List Byte) : Prop :=
  ∀ a, ¬(a < s.params.ringSize ∧ ringAfter s.params o a <
      min bs.length (ringDist s.params ((nextPos s).toNat - s.params.base) o)) →
    ringByte t a = ringByte s a

theorem Effect.leavesOthers (he : Effect s i t) (hi : ∀ n x, i ≠ .rxw n x) :
    t.ring = s.ring ∨ ∃ o bs, WritesFrom s i o bs ∧ LeavesOthers s t o bs := by
  cases he with
  | @write _ c h o bs m _ _ _ hp hfrom _ hwrite =>
    refine .inr ⟨o, bs, ?_, fun a ha => ?_⟩
    · rcases hfrom with ⟨rfl, rfl⟩ | ⟨v, c', rfl, hc, rfl, rfl⟩
      · exact .block _
      · exact .sample v hc
    · rw [hp.2, Nat.add_sub_cancel_left] at ha
      have hlen := List.length_take_of_le (min_le_left bs.length (ringDist s.params h o))
      have hother := ringByte_ringWrite_other (a := a) hwrite
        (by simpa [hlen] using min_ringDist_le hp.1) (by simpa [hlen] using ha)
      exact hother.trans (by simp)
  | received => exact absurd rfl (hi _ _)
  | handler => exact .inl (afterHandler_ring _ _ s)
  | readBlock | readSample => exact .inl (by simp [moveCur_eq_setCur])
  | _ => exact .inl (by simp)

theorem execWrb_leavesOthers {p : List Byte} (h : execWrb p s = .next t) :
    LeavesOthers s t (startCursor .tx s) p := by
  rcases (execWrb_effect h).leavesOthers (by simp) with hring | ⟨o, bs, hfrom, hframe⟩
  · exact fun a _ => ringByte_congr hring a
  · cases hfrom
    exact hframe

/-- Without a configuration nothing is stored, for any width. -/
theorem execWrs_leavesOthers {v : Word} (h : execWrs v s = .next t) :
    t.ring = s.ring ∨ ∃ c, s.cfg = some c ∧
      LeavesOthers s t (alignDown (startCursor .tx s) c.wb) (sampleBytes v c.wb) := by
  rcases (execWrs_effect h).leavesOthers (by simp) with hring | ⟨o, bs, hfrom, hframe⟩
  · exact .inl hring
  · cases hfrom with
    | sample _ hc => exact .inr ⟨_, hc, hframe⟩

theorem execRxw_leavesOthers {n : BitVec 24} {x : Byte} (h : execRxw n x s = .next t) (ha : a ≠ n.toNat) :
    ringByte t a = ringByte s a := by
  by_cases he : rxwEnabled n.toNat s = true
  · rw [execRxw_enabled x he] at h
    cases h
    rw [ringByte_writeBytes_one, if_neg ha]
  · rw [execRxw_not_enabled x he] at h
    cases h
    rfl

/-- Settles O13: a write command stores between its cursor and the position, `RXW` at its offset. -/
theorem storesLeaveOtherBytes : Obligations.StoresLeaveOtherBytes := by
  refine ⟨fun p s t h => execWrb_leavesOthers h, fun v s t c h hc => ?_, fun v s t h hnone a => ?_,
    fun n x s t h a => execRxw_leavesOthers h⟩
  · rcases execWrs_leavesOthers h with hring | ⟨c', hc', hframe⟩
    · exact fun a _ => ringByte_congr hring a
    · obtain rfl : c = c' := Option.some.inj (hc.symm.trans hc')
      simpa only [LeavesOthers, sampleBytes_length] using hframe
  · rcases execWrs_leavesOthers h with hring | ⟨c, hc, -⟩
    · exact ringByte_congr hring a
    · rw [hnone] at hc
      cases hc

end Sys2Proof.Machine
end

section
/-! O36: configuration errors (60_exceptions R231, 41_lifecycle R142). -/

namespace Sys2Proof.Machine

variable {s t : State} {i : Instr} {c : SessionCfg}

theorem anyArmed_iff (armed : Per Bool) : anyArmed armed = true ↔ armedBits armed ≠ 0 := by
  obtain ⟨tx, rx⟩ := armed
  cases tx <;> cases rx <;> decide

theorem configure_invalid
    (h : armedBits s.armed ≠ 0 ∨ c.mode.toNat ∉ [0, 1, 2] ∨ c.bps.toNat ∉ [8, 16, 32]) :
    configure c s = .ok .cfgFail s := by
  rw [← anyArmed_iff, ← validMode_iff, ← validBits_iff] at h
  exact if_pos (by simpa [or_assoc] using h)

theorem Effect.cfg_of_cfgFail (h : Effect s i t) (hr : t.results = s.results ++ [.cfgFail]) :
    ∃ mode rate bits master, i = .cfg mode rate bits master := by
  cases h with
  | cfgFail | cfgFirst | cfgAgain | cfgFatal => exact ⟨_, _, _, _, rfl⟩
  | refused | done | handlerFails | received => simp at hr
  | handler => simp [afterHandler_drvLog_results] at hr
  | _ => cases last_result_eq hr

/-- Settles O36: the three configuration errors end `CFG` before it writes, and every other effect hands over
another result or none. -/
theorem configurationErrorChangesNothing : Obligations.ConfigurationErrorChangesNothing :=
  ⟨fun mode rate bits master _ hs h => command_ok hs (configure_invalid (c := ⟨mode, rate, bits, master⟩) h),
    fun _ _ _ h => (exec_effect h).cfg_of_cfgFail⟩

end Sys2Proof.Machine
end

section
/-! O17: the refusal mark (60_exceptions R236, 10_state R30). -/

namespace Sys2Proof.Machine

variable {s t : State} {i : Instr}

theorem afterHandler_fatal_refused (d : Dir) (h : Nat) (s : State) :
    (afterHandler d h s).fatal = s.fatal ∧ (afterHandler d h s).refused = s.refused := by
  obtain ⟨hframe, -, -⟩ := afterHandler_frame d h s
  exact ⟨(congrArg State.fatal hframe :), (congrArg State.refused hframe :)⟩

/-- A refusal writes the mark and nothing else; whatever is not refused leaves the mark. -/
theorem Effect.refused_or (h : Effect s i t) : (∃ r, t = markRefused r s) ∨ t.refused = s.refused := by
  cases h with
  | refused r => exact .inl ⟨r, rfl⟩
  | handler => exact .inr (afterHandler_fatal_refused _ _ s).2
  | readBlock | readSample | write => exact .inr (by simp [moveCur_eq_setCur])
  | _ => exact .inr (by simp)

/-- Settles O17: an effect leaves the mark or is `markRefused`, which keeps a mark that is set. -/
theorem refusalWritesOnlyTheMark : Obligations.RefusalWritesOnlyTheMark := by
  intro i s t h
  rcases (exec_effect h).refused_or with ⟨r, rfl⟩ | hsame
  · refine ⟨fun hne => ⟨?_, rfl⟩, fun q hq => by simp [hq]⟩
    cases hs : s.refused with
    | none => rfl
    | some q => exact absurd (by simp [hs]) hne
  · exact ⟨fun hne => absurd hsame hne, fun q hq => hsame.trans hq⟩

end Sys2Proof.Machine
end

section
/-! O15, O16: after a fatal fault everything is refused (60_exceptions R233, R237, R238, 10_state R29). -/

namespace Sys2Proof.Machine

variable {s t : State} {i : Instr} {r : FatalReason}

/-- A fatal fault is the first reason why an event is not enabled (42_completion R171, R172, R179). -/
theorem exec_event_of_fatal (hi : ¬IsCommand i) (hf : s.fatal = some r) :
    exec i s = .next (markRefused .event s) := by
  have hne : s.fatal ≠ none := by simp [hf]
  obtain ⟨hdone, hirq, hrxw⟩ := eventsNotEnabledAreRefused s
  cases i with
  | done d => exact hdone d (.inl hne)
  | irq d => exact hirq d (.inl hne)
  | rxw n x => exact hrxw n x (.inl hne)
  | _ => exact absurd nofun hi

theorem command_afterFatal (body : State → Ret Result) (hc : s.ctx = .foreground) (hf : s.fatal = some r) :
    command body s = .next (markRefused .afterFatal s) := by
  rw [command, if_neg (by simp [hc]), if_pos (by simp [hf]), refuseStep]

/-- Settles O16: the check of `fatal` comes before the body of every command, and no event is enabled. -/
theorem afterFatalEverythingIsRefused : Obligations.AfterFatalEverythingIsRefused := by
  intro i s r hf
  refine ⟨fun hi hc => ?_, fun hi => exec_event_of_fatal hi hf⟩
  obtain ⟨body, hbody⟩ := exec_command hi
  rw [hbody, command_afterFatal body hc hf]

/-- In either context, whatever is issued after a fatal fault is refused. -/
theorem exec_refused_of_fatal (i : Instr) (hf : s.fatal = some r) : ∃ q, exec i s = .next (markRefused q s) := by
  obtain ⟨hforeground, hevent⟩ := afterFatalEverythingIsRefused i s r hf
  by_cases hi : IsCommand i
  · cases hc : s.ctx with
    | foreground => exact ⟨_, hforeground hi hc⟩
    | interrupt => exact ⟨_, (interruptContextIssuesNothing i s hc).1 hi⟩
  · exact ⟨_, hevent hi⟩

/-- Settles O15: what the step runs is refused, so it writes the mark, and the step moves the index at most. -/
theorem fatalIsSticky : Obligations.FatalIsSticky := by
  intro s t r hf h
  rcases step_next h with ⟨e, -, rfl⟩ | ⟨i, rest, u, -, hexec, rfl⟩
  · rfl
  · obtain ⟨q, hq⟩ := exec_refused_of_fatal i hf
    cases hq.symm.trans hexec
    rfl

end Sys2Proof.Machine
end

section
/-! O14: which command or event raises which fatal reason (60_exceptions R234). -/

namespace Sys2Proof.Machine

variable {s t : State} {i : Instr}

theorem Instr.queries_cases (h : Instr.queries i) :
    i = .avr ∨ i = .avw ∨ (∃ n, i = .rdb n) ∨ (∃ p, i = .wrb p) ∨ i = .rds ∨ i = .pks ∨ ∃ v, i = .wrs v := by
  obtain ⟨harms, hentx, henrx⟩ := h
  cases i <;> simp [Instr.arms] at harms hentx henrx ⊢

/-- The raised-by column of 60_exceptions R234, for an item run from `s` to `t`. -/
def FatalReason.RaisedBy (s : State) (i : Instr) (t : State) : FatalReason → Prop
  | .startTx => Instr.arms i = some .tx
  | .startRx => Instr.arms i = some .rx
  | .stopTx => i = .distx ∨ i = .endSession
  | .stopRx => i = .disrx ∨ i = .endSession
  | .bringUp => s.ref = 0 ∧ ∃ j r b m, i = .cfg j r b m
  | .release => i = .endSession ∧ t.ref = 0
  | .hwPos => Instr.queries i ∨ ∃ d, i = .irq d

theorem startReason_raisedBy {d : Dir} (hi : Instr.arms i = some d) : (startReason d).RaisedBy s i t := by
  cases d <;> exact hi

theorem stopReason_raisedBy {d : Dir} (hi : i = .distx ∧ d = .tx ∨ i = .disrx ∧ d = .rx) :
    (stopReason d).RaisedBy s i t := by
  rcases hi with ⟨rfl, rfl⟩ | ⟨rfl, rfl⟩ <;> exact .inl rfl

/-- The effects that write `fatal` are those that end in a raise, and they begin with no fatal fault. -/
theorem Effect.fatal (h : Effect s i t) :
    t.fatal = s.fatal ∨ (s.fatal = none ∧ ∃ r, t.fatal = some r ∧ r.RaisedBy s i t) := by
  cases h with
  | cfgFatal hs hr => exact .inr ⟨hs.2, _, rfl, hr, _, _, _, _, rfl⟩
  | endStopTx hs | endStopRx hs => exact .inr ⟨hs.2, _, rfl, .inr rfl⟩
  | endRelease hs => exact .inr ⟨hs.2, _, rfl, rfl, by simp⟩
  | startFails hs hi => exact .inr ⟨hs.2, _, rfl, startReason_raisedBy hi⟩
  | stopFails hs hi => exact .inr ⟨hs.2, _, rfl, stopReason_raisedBy hi⟩
  | queryFails hs hi => exact .inr ⟨hs.2, _, rfl, .inl hi⟩
  | queryFailsAligned hs => exact .inr ⟨hs.2, _, rfl, .inl ⟨rfl, by simp⟩⟩
  | handlerFails he => exact .inr ⟨(irqEnabled_iff.1 he).1, _, rfl, .inr ⟨_, rfl⟩⟩
  | handler => exact .inl (afterHandler_fatal_refused _ _ s).1
  | readBlock | readSample | write => exact .inl (by simp [moveCur_eq_setCur])
  | _ => exact .inl (by simp)

/-- Settles O14: the table of `FatalReason.RaisedBy`, reason by reason. -/
theorem fatalReasonRaisers : Obligations.FatalReasonRaisers := by
  intro i s t h
  refine (exec_effect h).fatal.imp_right fun ⟨hnone, r, ht, hi⟩ => ⟨hnone, ?_⟩
  cases r with
  | startTx => exact .inl ⟨ht, Instr.arms_tx hi⟩
  | startRx => exact .inr (.inl ⟨ht, Instr.arms_rx hi⟩)
  | stopTx => exact .inr (.inr (.inl ⟨ht, hi⟩))
  | stopRx => exact .inr (.inr (.inr (.inl ⟨ht, hi⟩)))
  | bringUp => exact .inr (.inr (.inr (.inr (.inl ⟨ht, hi⟩))))
  | release => exact .inr (.inr (.inr (.inr (.inr (.inl ⟨ht, hi⟩)))))
  | hwPos =>
    refine .inr (.inr (.inr (.inr (.inr (.inr ⟨ht, ?_⟩)))))
    simpa only [or_assoc] using hi.imp_left Instr.queries_cases

end Sys2Proof.Machine
end
